-- ==== Sys2Proof/Word.lean ====
section
/-! DEFINITION. The widths of the block (00_scope.md R10, R11) and the two encoded forms an instruction can have
(30_encoding.md R61 and R71). -/

namespace Sys2Proof

/-- One byte on the wire, an unsigned number 0..255 (R10, R11). -/
abbrev Byte := BitVec 8

/-- A target register address: "register address (7 bits)" (R10). -/
abbrev Addr := BitVec 7

/-- A host command word: 24 bits, bit 23 the most significant (R61). -/
abbrev CmdWord := BitVec 24

/-- A line level: `false` is 0 (low), `true` is 1 (high) (R11). -/
abbrev Level := Bool

/-- What an instruction is encoded as: a host command word of format `CMD24` (R61), or the two bytes of a wire frame
of format `FRAME8`, first byte first (R71 to R73). -/
inductive Encoded where
  | cmd (w : CmdWord)
  | frame (b0 b1 : Byte)
  deriving DecidableEq, Repr

end Sys2Proof
end

