-- ==== Sys2Proof/Syntax.lean ====
section
/-! DEFINITION. The instructions: one constructor per row of spec/opcode_table.json. Operand widths are types, so a term
has no operand out of range (30_encoding.md R61, R67; 90 C4). -/

namespace Sys2Proof

/-- The rows of the opcode table. The first four are the host commands (30_encoding.md R62); the last two are the wire
frames a register transaction puts on the lines (R72, R73), here as instructions of the Register Access Protocol. -/
inductive Instr where
  /-- `XFER <byte>` (R63, 41_bit_transfer.md R97). -/
  | xfer (b : Byte)
  /-- `WRREG <addr>, <byte>` (R64, 42_register_access.md R111). -/
  | wrreg (a : Addr) (v : Byte)
  /-- `RDREG <addr>` (R65, 42_register_access.md R112). -/
  | rdreg (a : Addr)
  /-- `PROBE` (R66, 43_device_probe.md R126). -/
  | probe
  /-- The write frame `0rrrrrrr vvvvvvvv` (R72). -/
  | frameWrite (r : Addr) (v : Byte)
  /-- The read frame `1rrrrrrr 00000000` (R73). -/
  | frameRead (r : Addr)
  deriving DecidableEq, Repr

/-- The instruction is one of the four commands a host writes to `CMD` (R62). -/
def Instr.isCommand : Instr → Bool
  | .xfer _ => true
  | .wrreg _ _ => true
  | .rdreg _ => true
  | .probe => true
  | .frameWrite _ _ => false
  | .frameRead _ => false

end Sys2Proof
end

