-- ==== Sys2Proof/Config.lean ====
section
/-! DEFINITION. The parameters of a model instance (00_scope.md R8) and the free values, which the spec leaves open. -/

namespace Sys2Proof

/-- `P_MISO_CAPTURE`: whether data-in is sampled (`SAMPLE`, the default) or ignored (`NONE`) (R8, 92 D7). -/
inductive Capture where
  | sample
  | none
  deriving DecidableEq, Repr, Inhabited

/-- `PINCFG`: the "immutable tuple {clock pin, data-out pin, data-in pin, chip-select pin}" (10_state.md R25). A pin
identifier is a number (DESIGN CHOICE, log 24). -/
structure PinCfg where
  clk : Nat
  mosi : Nat
  miso : Nat
  cs : Nat
  deriving DecidableEq, Repr, Inhabited

/-- "The four pin identifiers of `PINCFG` must be pairwise distinct" (R26). -/
def PinCfg.distinct (p : PinCfg) : Bool :=
  p.clk != p.mosi && p.clk != p.miso && p.clk != p.cs && p.mosi != p.miso && p.mosi != p.cs && p.miso != p.cs

/-- The parameters of R8, fixed for the life of an instance. Times are in microseconds, `tResetRecovery` in
milliseconds. -/
structure Params where
  pins : PinCfg
  tBitSettle : Nat
  tHalf : Nat
  tCsLead : Nat
  tCsTrail : Nat
  tResetRecovery : Nat
  regCommand : Addr
  cmdSoftReset : Byte
  regVersion : Addr
  capture : Capture
  deriving DecidableEq, Repr, Inhabited

/-! The open parameters of the instance that `State.reset` stands for: constants with no body (92 D10, D19, D20;
log 4). -/

opaque Config.freePins : PinCfg
opaque Config.tBitSettle : Nat
opaque Config.tHalf : Nat
opaque Config.tCsLead : Nat
opaque Config.tCsTrail : Nat
opaque Config.tResetRecovery : Nat
opaque Config.regCommand : Addr
opaque Config.cmdSoftReset : Byte
opaque Config.regVersion : Addr

/-- The pins of the instance: any four distinct ones (R26). Where the free constant has two roles on one pin, which is no
configuration of the block, four other numbers stand in (log 24). -/
def Config.pins : PinCfg := if Config.freePins.distinct then Config.freePins else ⟨0, 1, 2, 3⟩

/-- The instance: every `OPEN` parameter free, `P_MISO_CAPTURE` at its default `SAMPLE` (R8, 92 D7). -/
def Config.params : Params where
  pins := Config.pins
  tBitSettle := Config.tBitSettle
  tHalf := Config.tHalf
  tCsLead := Config.tCsLead
  tCsTrail := Config.tCsTrail
  tResetRecovery := Config.tResetRecovery
  regCommand := Config.regCommand
  cmdSoftReset := Config.cmdSoftReset
  regVersion := Config.regVersion
  capture := .sample

/-- Free value: the level the target oracle answers at the n-th draw that was not given from outside (20_memory.md R47:
"a free draw, under no law"; log 3). -/
opaque Config.misoDraw : Nat → Level

/-- Free value: which of several held writes is accepted at the n-th choice (60_exceptions.md R157: "in an order the model
leaves open"; log 8). -/
opaque Config.heldChoice : Nat → Nat

end Sys2Proof
end

