-- ==== Sys2Proof/WellFormed.lean ====
section
/-! DEFINITION. What is checked before anything runs. An `Instr` has no ill-formed term, since its operand widths are
types; the checks are on what a person or a platform writes: the operands of an assembly line (30_encoding.md R78) and
the parameters of an instance (10_state.md R26). -/

namespace Sys2Proof

/-- One line of assembly (30_encoding.md R77, R79; `.word` of 95_test_vectors.md P3). Operands are the numbers as
written, so that one out of range can be written and refused. -/
inductive AsmLine where
  | xfer (b : Int)
  | wrreg (a v : Int)
  | rdreg (a : Int)
  | probe
  | softreset
  | rdver
  | word (w : Int)
  deriving DecidableEq, Repr

/-- `<byte>` is 0..255 (R77). -/
def byteInRange (b : Int) : Bool := decide (0 ≤ b) && decide (b < 256)

/-- `<addr>` is 0..127 (R77). -/
def addrInRange (a : Int) : Bool := decide (0 ≤ a) && decide (a < 128)

/-- A raw word is 24 bits (R61). -/
def wordInRange (w : Int) : Bool := decide (0 ≤ w) && decide (w < 16777216)

/-- Every operand of the line is in range (R78: out of range "is an assembly error"). -/
def AsmLine.wellFormed : AsmLine → Bool
  | .xfer b => byteInRange b
  | .wrreg a v => addrInRange a && byteInRange v
  | .rdreg a => addrInRange a
  | .probe => true
  | .softreset => true
  | .rdver => true
  | .word w => wordInRange w

/-- The parameters are a configuration of the block: four distinct pins (R26). -/
def Params.wellFormed (p : Params) : Bool := p.pins.distinct

end Sys2Proof
end

