-- ==== Sys2Proof/Decode.lean ====
section
/-! DEFINITION. Decoding, total on 24-bit words and on frames, rejecting by name (30_encoding.md R68, R70); then the
encoder (R63 to R66, R72, R73) and the assembler's words (R77 to R79). -/

namespace Sys2Proof

/-- Why a word or a frame is no instruction (R68, R73). -/
inductive DecodeError where
  /-- `OP = 0x0` or `OP` in `0x5..0xF`. -/
  | reservedOp (op : BitVec 4)
  /-- Some `RSV` bit is set. -/
  | reservedBits
  /-- `XFER` or `PROBE` with `ADDR` not 0. -/
  | addrNotZero
  /-- `RDREG` or `PROBE` with `DATA` not 0. -/
  | dataNotZero
  /-- A frame whose `DIR` is read and whose second byte is not the dummy `0x00`. -/
  | dummyNotZero
  deriving DecidableEq, Repr

/-! The fields of a command word (R61). -/

def opField (w : CmdWord) : BitVec 4 := w.extractLsb' 20 4
def rsvField (w : CmdWord) : BitVec 5 := w.extractLsb' 15 5
def addrField (w : CmdWord) : Addr := w.extractLsb' 8 7
def dataField (w : CmdWord) : Byte := w.extractLsb' 0 8

/-- `Decode(w)` (R70): the rows of R63 to R66 in their order; every other word is illegal (R68). -/
def decodeCmd (w : CmdWord) : Except DecodeError Instr :=
  if opField w = 0x1#4 then
    if rsvField w ≠ 0#5 then .error .reservedBits
    else if addrField w ≠ 0#7 then .error .addrNotZero
    else .ok (.xfer (dataField w))
  else if opField w = 0x2#4 then
    if rsvField w ≠ 0#5 then .error .reservedBits
    else .ok (.wrreg (addrField w) (dataField w))
  else if opField w = 0x3#4 then
    if rsvField w ≠ 0#5 then .error .reservedBits
    else if dataField w ≠ 0#8 then .error .dataNotZero
    else .ok (.rdreg (addrField w))
  else if opField w = 0x4#4 then
    if rsvField w ≠ 0#5 then .error .reservedBits
    else if addrField w ≠ 0#7 then .error .addrNotZero
    else if dataField w ≠ 0#8 then .error .dataNotZero
    else .ok .probe
  else .error (.reservedOp (opField w))

/-- The frame of two bytes: bit 7 of the first selects the direction, bits 6:0 the register (R71 to R73). -/
def decodeFrame (b0 b1 : Byte) : Except DecodeError Instr :=
  if b0.getLsbD 7 then
    if b1 = 0x00#8 then .ok (.frameRead (b0.extractLsb' 0 7)) else .error .dummyNotZero
  else .ok (.frameWrite (b0.extractLsb' 0 7) b1)

/-- Decoding of either form. -/
def decode : Encoded → Except DecodeError Instr
  | .cmd w => decodeCmd w
  | .frame b0 b1 => decodeFrame b0 b1

/-- `Legal(w)`: "w matches one of the four rows of rules R63 to R66 (that is, `(w & mask) = match` for one row)" (R68). -/
def legal (w : CmdWord) : Bool :=
  w &&& 0xFFFF00#24 == 0x100000#24 || w &&& 0xFF8000#24 == 0x200000#24 ||
  w &&& 0xFF80FF#24 == 0x300000#24 || w &&& 0xFFFFFF#24 == 0x400000#24

/-! The encoder. -/

/-- A command word from its fields, `OP` at bit 20, `ADDR` at bit 8, `DATA` at bit 0, `RSV` 0 (R61; 42_register_access.md R111:
`0x200000 | a<<8 | v`). -/
def cmdWord (op : BitVec 4) (addr : Addr) (data : Byte) : CmdWord :=
  op.zeroExtend 24 <<< 20 ||| addr.zeroExtend 24 <<< 8 ||| data.zeroExtend 24

/-- `0001 00000 0000000 dddddddd` (R63). -/
def xferWord (b : Byte) : CmdWord := cmdWord 0x1#4 0#7 b
/-- `0010 00000 aaaaaaa dddddddd` (R64). -/
def wrregWord (a : Addr) (v : Byte) : CmdWord := cmdWord 0x2#4 a v
/-- `0011 00000 aaaaaaa 00000000` (R65). -/
def rdregWord (a : Addr) : CmdWord := cmdWord 0x3#4 a 0#8
/-- The one word `0x400000` (R66). -/
def probeWord : CmdWord := cmdWord 0x4#4 0#7 0#8

/-- Byte 0 of a write frame: `0rrrrrrr` (R72). -/
def writeFrameByte (r : Addr) : Byte := r.zeroExtend 8
/-- Byte 0 of a read frame: `1rrrrrrr` (R73). -/
def readFrameByte (r : Addr) : Byte := 0x80#8 ||| r.zeroExtend 8

/-- The words of an instruction. -/
def encode : Instr → Encoded
  | .xfer b => .cmd (xferWord b)
  | .wrreg a v => .cmd (wrregWord a v)
  | .rdreg a => .cmd (rdregWord a)
  | .probe => .cmd probeWord
  | .frameWrite r v => .frame (writeFrameByte r) v
  | .frameRead r => .frame (readFrameByte r) 0x00#8

/-! Words of assembly lines. -/

/-- The instruction an assembly line stands for, where it stands for one and its operands are in range (R77 to R79).
`SOFTRESET` and `RDVER` take the instance's parameters (R79). -/
def AsmLine.instr (p : Params) (l : AsmLine) : Option Instr :=
  if l.wellFormed then
    match l with
    | .xfer b => some (.xfer (BitVec.ofInt 8 b))
    | .wrreg a v => some (.wrreg (BitVec.ofInt 7 a) (BitVec.ofInt 8 v))
    | .rdreg a => some (.rdreg (BitVec.ofInt 7 a))
    | .probe => some .probe
    | .softreset => some (.wrreg p.regCommand p.cmdSoftReset)
    | .rdver => some (.rdreg p.regVersion)
    | .word _ => none
  else none

/-- The 24-bit word an assembly line becomes; `none` is an assembly error (R78: "the assembler never masks it into
range"). A `.word` line becomes its number, legal or not (95_test_vectors.md P3). -/
def assemble (p : Params) (l : AsmLine) : Option CmdWord :=
  match l with
  | .word w => if wordInRange w then some (BitVec.ofInt 24 w) else none
  | l =>
    match l.instr p with
    | some i =>
      match encode i with
      | .cmd w => some w
      | .frame _ _ => none
    | none => none

/-! The opcode table's numbering. -/

/-- What an instruction of the table whose bits are `w` is fetched as: 24 bits are one command word (R61); 8 or 16 bits
are a wire frame, first byte in bits 7..0, and the second byte 0 where the table gives it no bits (log 25). -/
def encodedOfTable (nbits w : Nat) : Option Encoded :=
  if w < 2 ^ nbits then
    match nbits with
    | 24 => some (.cmd (BitVec.ofNat 24 w))
    | 8 => some (.frame (BitVec.ofNat 8 w) 0x00#8)
    | 16 => some (.frame (BitVec.ofNat 8 (w % 256)) (BitVec.ofNat 8 (w / 256)))
    | _ => none
  else none

/-- The instruction the decoder reads from a table row's bits. -/
def decodeTableWord (nbits w : Nat) : Option Instr :=
  match encodedOfTable nbits w with
  | some e =>
    match decode e with
    | .ok i => some i
    | .error _ => none
  | none => none

end Sys2Proof
end

