-- ==== Sys2Proof/Machine/State.lean ====
section
/-! DEFINITION. The state of the block (10_state.md), the events it records, what the outside can do to it, the reasons it
can stop, and the state after power-on reset. -/

namespace Sys2Proof.Machine

/-- The busy waits, named by the parameter they last (40_line_primitives.md R86). -/
inductive WaitKind where
  | bitSettle
  | halfHigh
  | halfLow
  | csLead
  | csTrail
  | resetRecovery
  deriving DecidableEq, Repr

/-- The verdict of a probe (43_device_probe.md R129). -/
inductive Verdict where
  | linkFault
  | plausible
  deriving DecidableEq, Repr

/-- The event alphabet of `TRACE` (10_state.md R36). -/
inductive Event where
  /-- `CS(l)` -/
  | cs (l : Level)
  /-- `DO(l)` -/
  | dout (l : Level)
  /-- `CK(l)` -/
  | ck (l : Level)
  /-- `DI(l)` -/
  | di (l : Level)
  /-- `WAIT(k)` -/
  | wait (k : WaitKind)
  /-- `GUARD_ACQ` -/
  | guardAcq
  /-- `GUARD_REL` -/
  | guardRel
  /-- `SINK(text, verdict)` -/
  | sink (text : String) (verdict : Verdict)
  /-- `RESET` -/
  | reset
  /-- `ABORT` -/
  | abort
  deriving DecidableEq, Repr

/-- `LINK` with `LINKVER`: "{Uninitialized, Reset-Issued, Identified(version byte)}" (R32, R33). -/
inductive Link where
  | uninit
  | resetIssued
  | identified (version : Byte)
  deriving DecidableEq, Repr

/-- `PHASE`: `IDLE`, or `(C, k)` with k the index of the next event of C's list (R19). -/
inductive Phase where
  | idle
  | run (c : Instr) (k : Nat)
  deriving DecidableEq, Repr

/-- One record of the diagnostic sink (R37). -/
structure SinkRecord where
  text : String
  verdict : Verdict
  deriving DecidableEq, Repr

/-- One access of a host agent to the host registers, selected by a 2-bit number (R38). A write says how many bits wide it
is, because "a partial write of `CMD` is refused" (20_memory.md R50). -/
inductive HostAccess where
  | write (reg : BitVec 2) (bits : Nat) (value : CmdWord)
  | read (reg : BitVec 2)
  deriving DecidableEq, Repr

/-- A host agent's access. -/
structure AgentAccess where
  agent : Nat
  access : HostAccess
  deriving DecidableEq, Repr

/-- What the outside does at one event boundary (log 2): the `RESET` and `ABORT` inputs and at most one host access. -/
structure Inputs where
  reset : Bool := false
  abort : Bool := false
  host : Option AgentAccess := none
  deriving DecidableEq, Repr

/-- A write to `CMD` that is held: the agent that waits and its word (R40). -/
structure HeldWrite where
  agent : Nat
  word : CmdWord
  deriving DecidableEq, Repr

/-- The state. An `Option` here is the spec's "no value" (R31, R43, 60_exceptions.md R146; log 5), not a missing reset
value. -/
structure State where
  /-- `SR_OUT` (R16). -/
  srOut : Option Byte
  /-- `SR_IN` (R17). -/
  srIn : Option Byte
  /-- `BITCNT` (R18). -/
  bitCnt : Option Nat
  /-- `PHASE` (R19). -/
  phase : Phase
  /-- `BUSY` (R28). -/
  busy : Bool
  /-- `CUR_CMD` (R29). -/
  curCmd : Option CmdWord
  /-- An abort sequence is in progress (60_exceptions.md R145, R150; log 11). -/
  aborting : Bool
  /-- `SCLK` (R21). -/
  sclk : Level
  /-- `MOSI` (R22). -/
  mosi : Level
  /-- `CS_N` (R23). -/
  csN : Level
  /-- `GUARD` (R27). -/
  guard : Bool
  /-- `RDATA`, holding a value exactly when `RDATA_VALID` is 1 (R30, R31). -/
  rdata : Option Byte
  /-- `LINK`, with `LINKVER` (R32, R33). -/
  link : Link
  /-- `ILLEGAL` (R35). -/
  illegal : Bool
  /-- `ABORTED` (R35). -/
  aborted : Bool
  /-- `TRACE` (R36), oldest event first. -/
  trace : List Event
  /-- `SINKLOG` (R37), oldest record first. -/
  sinkLog : List SinkRecord
  /-- The faults `IllegalCommand(w)` recorded beside the flag (60_exceptions.md R143), oldest first. -/
  illegalLog : List CmdWord
  /-- The writes to `CMD` that are held (R40). -/
  held : List HeldWrite
  /-- `PINCFG` and the parameters (00_scope.md R8, R25; log 4). -/
  params : Params
  /-- MODEL's own (log 2): what the outside does at each coming event boundary; when it is empty the outside is quiet. -/
  inputs : List Inputs
  /-- MODEL's own (log 3): the target oracle's next answers, where they are given from outside. -/
  misoIn : List Level
  /-- MODEL's own (log 3): how many answers were drawn from the free value `Config.misoDraw`. -/
  draws : Nat
  /-- MODEL's own (log 8): how many choices were drawn from the free value `Config.heldChoice`. -/
  picks : Nat
  /-- MODEL's own (log 10): what the last host read returned. -/
  hostData : CmdWord
  /-- MODEL's own (log 1, log 6): instructions handed to the block from outside the spec's host port, each to be run whole. No
  step fills it. -/
  port : List Encoded
  deriving DecidableEq, Repr

/-- The registers the spec lets "hold no value". -/
inductive ValueReg where
  | rdata
  | linkver
  | srOut
  | srIn
  | bitCnt
  deriving DecidableEq, Repr

/-- Why the machine stops with a fault. -/
inductive Fault where
  /-- `UnwrittenRead(NAME)`: raised by a host read of `RDATA` or `LINKVER` while it holds no value, where "a model read is the
  fault" (R31, R33; 93 U3: `fault`), and by a primitive that would read an engine register that holds none after an ABORT
  (R146; 93 U17: "a model read is a `fault`"), which no run of the rules does. Safe: where the hardware returns an
  unspecified byte, the model stops, as the spec asks of a model. -/
  | unwrittenRead (r : ValueReg)
  /-- `GuardNested` (40_line_primitives.md R88; 93 U16): raised by `GuardAcquire` with `GUARD` = 1, which no run of the rules
  reaches. Safe. -/
  | guardNested
  /-- The sequencer has no next event although `BUSY` is 1 (93 U20: a model that cannot take the next step is stuck): raised
  by a step in a state no run reaches. Safe. -/
  | sequencerStuck
  deriving DecidableEq, Repr

/-- Why the machine refuses. -/
inductive Refusal where
  /-- An instruction with no meaning yet: raised by `exec` alone. Safe. -/
  | notModelled (mnemonic : String)
  /-- A write of `CMD` narrower than 24 bits (20_memory.md R50; 93 U7), or, which the spec leaves open, wider (DESIGN CHOICE,
  log 27): raised by the host access. Safe. -/
  | partialCmdWrite (bits : Nat)
  /-- An instance with two roles on one pin (10_state.md R26; 93 U15): raised by `instantiate`. Safe. -/
  | pinsNotDistinct
  /-- Two bytes in the model's own port that are no frame of 30_encoding.md R72 or R73: raised by a step in a state no run from
  reset reaches (log 6). Safe. -/
  | malformedFrame (b0 b1 : Byte)
  deriving DecidableEq, Repr

/-- What an operation over the state answers. -/
abbrev Out := Host.Outcome State Fault Refusal

/-- The power-on state of an instance with parameters `p`: the reset values of R43 "with `TRACE` and `SINKLOG` empty"
(70_reset_and_hazards.md R160). The model's own fields start empty or at 0 (DESIGN CHOICE, log 16). -/
def State.powerOn (p : Params) : State where
  srOut := some 0x00#8
  srIn := some 0x00#8
  bitCnt := some 0
  phase := .idle
  busy := false
  curCmd := none
  aborting := false
  sclk := false
  mosi := false
  csN := true
  guard := false
  rdata := none
  link := .uninit
  illegal := false
  aborted := false
  trace := []
  sinkLog := []
  illegalLog := []
  held := []
  params := p
  inputs := []
  misoIn := []
  draws := 0
  picks := 0
  hostData := 0#24
  port := []

/-- The machine right after power-on reset (R43, R160). -/
def State.reset : State := State.powerOn Config.params

end Sys2Proof.Machine
end

