-- ==== Sys2Proof/Machine/Flags.lean ====
section
/-! DEFINITION. The flags and registers computed from state: `RDATA_VALID`, `LINKVER`, `LINK_FAULT`, the verdict of a probe,
`STATUS` (10_state.md R31 to R39; 43_device_probe.md R129). -/

namespace Sys2Proof.Machine

/-- `RDATA_VALID`: "While it is 0, `RDATA` holds no value" (R31). -/
def State.rdataValid (s : State) : Bool := s.rdata.isSome

/-- The version byte a link state carries (R33). -/
def Link.version : Link → Option Byte
  | .uninit => none
  | .resetIssued => none
  | .identified v => some v

/-- `LINKVER`: it "holds a value exactly when `LINK = IDENTIFIED`" (R33). -/
def State.linkver (s : State) : Option Byte := s.link.version

/-- The classification of a version byte (R129). -/
def verdictOf (v : Byte) : Verdict := if v = 0x00#8 ∨ v = 0xFF#8 then .linkFault else .plausible

/-- `LINK_FAULT = (LINK = IDENTIFIED) and (LINKVER = 0x00 or LINKVER = 0xFF)` (R34). -/
def State.linkFault (s : State) : Bool :=
  match s.link.version with
  | some v => decide (v = 0x00#8 ∨ v = 0xFF#8)
  | none => false

/-- The code of `LINK` in `STATUS`: `00`, `01`, `10`; "`11` is never produced" (R39). -/
def Link.code : Link → BitVec 2
  | .uninit => 0b00#2
  | .resetIssued => 0b01#2
  | .identified _ => 0b10#2

/-- `STATUS`, from bit 7 down: reserved 0, `LINK_FAULT`, `LINK`, `RDATA_VALID`, `ABORTED`, `ILLEGAL`, `BUSY` (R39). -/
def State.status (s : State) : BitVec 8 :=
  0#1 ++ BitVec.ofBool s.linkFault ++ s.link.code ++ BitVec.ofBool s.rdataValid ++ BitVec.ofBool s.aborted ++
    BitVec.ofBool s.illegal ++ BitVec.ofBool s.busy

end Sys2Proof.Machine
end

