-- ==== Sys2Proof/Machine/Operands.lean ====
section
/-! DEFINITION. The bytes and texts the commands make of their operands (00_scope.md R9; 30_encoding.md R67, R72, R73;
43_device_probe.md R131), and the two shifts of the engine (10_state.md R16, R17). -/

namespace Sys2Proof.Machine

/-- `READ_BIT = 0x80` (R9). -/
def readBit : Byte := 0x80#8

/-- The address byte of a write transaction: `zext_8(a)`, `DIR` = 0 (R67, R72). -/
def writeAddressByte (a : Addr) : Byte := a.zeroExtend 8

/-- The address byte of a read transaction: `READ_BIT | a` (R73). -/
def readAddressByte (a : Addr) : Byte := readBit ||| a.zeroExtend 8

/-- The dummy byte `0x00` of a read transaction (R73). -/
def dummyByte : Byte := 0x00#8

/-- "Bit 7 of `SR_OUT` is always the bit to be driven next" (R16). -/
def nextOutBit (v : Byte) : Level := v.getLsbD 7

/-- `(SR_OUT << 1) & 0xFF` (R16). -/
def shiftLeft (v : Byte) : Byte := v <<< 1

/-- `((SR_IN << 1) | sample) & 0xFF` (R17). -/
def assembleBit (v : Byte) (m : Level) : Byte := (v <<< 1) ||| (if m then 0x01#8 else 0x00#8)

/-- One upper-case hexadecimal digit (R131). -/
def hexDigit (n : Nat) : Char := if n < 10 then Char.ofNat (48 + n) else Char.ofNat (55 + n)

/-- `HEX2(v)`: "the two hexadecimal digits of v, most significant first, zero-padded, in upper case" (R131). -/
def hex2 (v : Byte) : String := String.ofList [hexDigit (v.toNat / 16), hexDigit (v.toNat % 16)]

/-- The record text: "exactly `identification byte: 0x` followed by `HEX2(v)`" (R131). -/
def identificationText (v : Byte) : String := "identification byte: 0x" ++ hex2 v

end Sys2Proof.Machine
end

