-- ==== Sys2Proof/Machine/Ops.lean ====
section
/-! DEFINITION. The micro-operations every command is built from (40_line_primitives.md), the slots an event list is made
of (10_state.md R20), acceptance and the end of a command, the host register port (R38 to R41), and the abnormal events:
the rejection of an illegal word, ABORT and RESET (60_exceptions.md; 70_reset_and_hazards.md). -/

namespace Sys2Proof.Machine

/-- Go on with `f` from a next state; a fault or a refusal stays. -/
def andThen (o : Out) (f : State → Out) : Out :=
  match o with
  | .next s => f s
  | .fault r => .fault r
  | .refused r => .refused r

/-- `TRACE <- TRACE ++ [e]` (R36: "written only by appending"). -/
def record (e : Event) (s : State) : State := { s with trace := s.trace ++ [e] }

/-- `read NAME`: a register that "holds no value" is "the model's fault `UnwrittenRead(NAME)`" (00_scope.md R12; 10_state.md R31,
R33; 93 U3, U17: `fault`, "the model stops with a named fault"). Every read of such a register goes through here. -/
def readReg {α : Type} (r : ValueReg) (v : Option α) : Except Fault α :=
  match v with
  | some x => .ok x
  | none => .error (.unwrittenRead r)

/-- Go on with the value a register holds (R12). -/
def withReg {α : Type} (r : ValueReg) (v : Option α) (f : α → Out) : Out :=
  match readReg r v with
  | .ok x => f x
  | .error e => .fault e

/-! Line primitives and waits. -/

/-- `SetChipSelect(l)` (R81). -/
def setChipSelect (l : Level) (s : State) : State := record (.cs l) { s with csN := l }

/-- `SetDataOut(l)` (R82). -/
def setDataOut (l : Level) (s : State) : State := record (.dout l) { s with mosi := l }

/-- `SetClock(l)` (R83). -/
def setClock (l : Level) (s : State) : State := record (.ck l) { s with sclk := l }

/-- `Wait(k)` (R86). The model measures no time (R87; log 15). -/
def busyWait (k : WaitKind) (s : State) : State := record (.wait k) s

/-- `draw()`: the target oracle's next answer (20_memory.md R47), the next of those given from outside, else a free value
(log 3). -/
def draw (s : State) : Level × State :=
  match s.misoIn with
  | m :: rest => (m, { s with misoIn := rest })
  | [] => (Config.misoDraw s.draws, { s with draws := s.draws + 1 })

/-- `ReadDataIn()` (R84), for the instance's `P_MISO_CAPTURE`: under `SAMPLE` a draw and its event; under `NONE` the level 0,
"no sample, no event". -/
def readDataIn (cap : Capture) (s : State) : Level × State :=
  match cap with
  | .sample => ((draw s).1, record (.di (draw s).1) (draw s).2)
  | .none => (false, s)

/-! The guard and the sink. -/

/-- `GuardAcquire()` (R88): with `GUARD` = 1 the model "faults with `GuardNested`". -/
def guardAcquire (s : State) : Out :=
  if s.guard then .fault .guardNested else .next (record .guardAcq { s with guard := true })

/-- `GuardRelease()` (R89). -/
def guardRelease (s : State) : State := record .guardRel { s with guard := false }

/-- `Sink(text, verdict)` (R94). -/
def sinkRecord (text : String) (verdict : Verdict) (s : State) : State :=
  record (.sink text verdict) { s with sinkLog := s.sinkLog ++ [⟨text, verdict⟩] }

/-! Moves of the engine that are not events of their own. -/

/-- `SR_OUT <- b ; SR_IN <- 0x00 ; BITCNT <- 0` (41_bit_transfer.md R96). -/
def loadByte (b : Byte) (s : State) : State :=
  { s with srOut := some b, srIn := some 0x00#8, bitCnt := some 0 }

/-- `SetDataOut(SR_OUT[7])` (R96 step 1). -/
def driveBit (s : State) : Out :=
  withReg .srOut s.srOut (fun v => .next (setDataOut (nextOutBit v) s))

/-- `m <- ReadDataIn() ; SR_IN <- ((SR_IN << 1) | m) & 0xFF` (R96). -/
def sampleBit (cap : Capture) (s : State) : Out :=
  withReg .srIn s.srIn (fun v =>
    .next { (readDataIn cap s).2 with srIn := some (assembleBit v (readDataIn cap s).1) })

/-- `SR_OUT <- (SR_OUT << 1) & 0xFF ; BITCNT <- BITCNT + 1` (R96 step 5). -/
def shiftBit (s : State) : Out :=
  withReg .srOut s.srOut (fun v => withReg .bitCnt s.bitCnt (fun n =>
    .next { s with srOut := some (shiftLeft v), bitCnt := some (n + 1) }))

/-- `RDATA <- r ; RDATA_VALID <- 1`, where r is the byte the last transfer returned, `SR_IN` (R96, R97, R112, R126). -/
def latchResult (s : State) : Out :=
  withReg .srIn s.srIn (fun r => .next { s with rdata := some r })

/-- `LINK <- IDENTIFIED ; LINKVER <- v`, where v is the byte the version read returned, `SR_IN` (R126). -/
def identify (s : State) : Out :=
  withReg .srIn s.srIn (fun v => .next { s with link := .identified v })

/-- `LINK <- RESET_ISSUED -- LINKVER now holds no value` (R126). -/
def linkReset (s : State) : State := { s with link := .resetIssued }

/-- The sink record of a probe, from the version byte the probe has just recorded (R126, R129, R131). -/
def reportVersion (s : State) : Out :=
  withReg .linkver s.link.version (fun v => .next (sinkRecord (identificationText v) (verdictOf v) s))

/-! Slots: one event of a command's list with the assignments made in its step (R20). -/

/-- What one event of a list does. `sampleBit` is the sample under `SAMPLE`, which is an event (R84). -/
inductive Prim where
  | chipSelect (l : Level)
  | driveBit
  | clock (l : Level)
  | sampleBit
  | wait (k : WaitKind)
  | guardAcquire
  | guardRelease
  | reportVersion
  deriving DecidableEq, Repr

/-- An assignment "made in the same step as the event just before it in the rule" (R20). `sampleNone` is the
sample under `P_MISO_CAPTURE = NONE`, where `ReadDataIn()` records no event (R84, R105; log 18). -/
inductive Assign where
  | load (b : Byte)
  | sampleNone
  | shiftBit
  | latchResult
  | linkReset
  | identify
  deriving DecidableEq, Repr

/-- One event and its assignments. -/
structure Slot where
  prim : Prim
  assigns : List Assign := []
  deriving DecidableEq, Repr

/-- The operation of an event. -/
def performPrim (p : Prim) (s : State) : Out :=
  match p with
  | .chipSelect l => .next (setChipSelect l s)
  | .driveBit => driveBit s
  | .clock l => .next (setClock l s)
  | .sampleBit => sampleBit .sample s
  | .wait k => .next (busyWait k s)
  | .guardAcquire => guardAcquire s
  | .guardRelease => .next (guardRelease s)
  | .reportVersion => reportVersion s

/-- The operation of an assignment. -/
def performAssign (a : Assign) (s : State) : Out :=
  match a with
  | .load b => .next (loadByte b s)
  | .sampleNone => sampleBit .none s
  | .shiftBit => shiftBit s
  | .latchResult => latchResult s
  | .linkReset => .next (linkReset s)
  | .identify => identify s

/-- The assignments of a step, in order. -/
def performAssigns : List Assign → State → Out
  | [], s => .next s
  | a :: rest, s => andThen (performAssign a s) (performAssigns rest)

/-- One step of a list: its event, then the assignments made with it (R20). -/
def performSlot (x : Slot) (s : State) : Out := andThen (performPrim x.prim s) (performAssigns x.assigns)

/-- An event list from its first event to its last. -/
def runSlots : List Slot → State → Out
  | [], s => .next s
  | x :: rest, s => andThen (performSlot x s) (runSlots rest)

/-! Acceptance, the end of a command, a whole command. -/

/-- The commands whose rule clears `RDATA_VALID` at acceptance: XFER, RDREG and PROBE (R31). -/
def clearsResult : Instr → Bool
  | .xfer _ => true
  | .wrreg _ _ => false
  | .rdreg _ => true
  | .probe => true
  | .frameWrite _ _ => false
  | .frameRead _ => false

/-- Acceptance: `CUR_CMD <- w ; BUSY <- 1 ; PHASE <- (Decode(w), 0)`, and the assignments the rule makes before its first
event (R20, R31). It records no event. -/
def accept (i : Instr) (w : CmdWord) (s : State) : State :=
  { s with
    curCmd := some w
    busy := true
    phase := .run i 0
    rdata := if clearsResult i then none else s.rdata }

/-- "at the end of the list: BUSY <- 0 ; PHASE <- IDLE" (R20). -/
def finish (s : State) : State := { s with busy := false, phase := .idle }

/-- The command `i`, whose word is `w`, is issued: while `BUSY` = 1 it is held (R40; log 14); else it is accepted and its list is
run from the first event to the last, the sum of the steps R20 makes of it (log 1). -/
def issueCommand (i : Instr) (w : CmdWord) (slots : List Slot) (s : State) : Out :=
  if s.busy then .next { s with held := s.held ++ [⟨0, w⟩] }
  else andThen (runSlots slots (accept i w s)) (fun t => .next (finish t))

/-- A wire frame is handed to the Register Access Protocol alone (log 6): while a command runs it waits, since "no other
agent drives the four lines" (20_memory.md R53); else its transaction is run. -/
def issueFrame (b0 b1 : Byte) (slots : List Slot) (s : State) : Out :=
  if s.busy then .next { s with port := s.port ++ [.frame b0 b1] } else runSlots slots s

/-! The abnormal events: the block's only form of taking an exception (60_exceptions.md R151). -/

/-- `raise IllegalCommand(w)` (R143): the sticky flag, and the recorded fault "beside the flag"; nothing else. -/
def raiseIllegal (w : CmdWord) (s : State) : State :=
  { s with illegal := true, illegalLog := s.illegalLog ++ [w] }

/-- The `ABORT` event and its effects (R146). -/
def abortEffects (s : State) : State :=
  record .abort
    { s with
      aborted := true
      rdata := none
      busy := false
      phase := .idle
      aborting := false
      srOut := none
      srIn := none
      bitCnt := none
      curCmd := none }

/-- The next event of the abort sequence: of R145's list, the first that still applies. -/
def abortEvent (s : State) : State :=
  if s.guard then guardRelease s
  else if s.sclk then setClock false s
  else if !s.csN then setChipSelect true s
  else abortEffects s

/-- ABORT asserted with `BUSY` = 1: the sequence begins at this boundary (R144). -/
def abortBegin (s : State) : State := abortEvent { s with aborting := true }

/-- The events of the reset sequence, in order (R162): the guard, the clock, chip-select, data-out. -/
def resetLines (s : State) : State :=
  setDataOut false (setChipSelect true (setClock false (if s.guard then guardRelease s else s)))

/-- `RESET`: the sequence of R162 and, with the `RESET` event, the values of 10_state.md R43. `TRACE`, `SINKLOG`, the
recorded faults (R143: never cleared), the parameters and a held write (R164) stay. -/
def resetSequence (s : State) : State :=
  record .reset
    { resetLines s with
      srOut := some 0x00#8
      srIn := some 0x00#8
      bitCnt := some 0
      phase := .idle
      busy := false
      curCmd := none
      aborting := false
      rdata := none
      link := .uninit
      illegal := false
      aborted := false }

/-- What becomes of a write to `CMD` when `BUSY` = 0 and it is its turn: it is accepted, as a step of its own with no event (R20),
or rejected (60_exceptions.md R143). -/
def acceptWord (w : CmdWord) (s : State) : State :=
  match decodeCmd w with
  | .ok i => accept i w s
  | .error _ => raiseIllegal w s

/-! The host register port. -/

/-- A 24-bit write of `CMD` by an agent: while `BUSY` = 1 it is held (R40), and while other agents' writes are held it joins
them, since the order is open (60_exceptions.md R157; log 28); else it is accepted or rejected at once (R20; R143: "The
host's write completes at once"). -/
def hostCommand (agent : Nat) (w : CmdWord) (s : State) : State :=
  if s.busy || !s.held.isEmpty then { s with held := s.held ++ [⟨agent, w⟩] } else acceptWord w s

/-- What a host read of register `r` returns: 0 `CMD` reads `0x000000`, 1 `STATUS`, 2 `RDATA`, 3 `LINKVER` (R38, R40); a
register that holds no value is `UnwrittenRead` (R31, R33). -/
def hostRead (r : BitVec 2) (s : State) : Except Fault CmdWord :=
  if r = 0#2 then .ok 0x000000#24
  else if r = 1#2 then .ok (s.status.zeroExtend 24)
  else if r = 2#2 then (readReg .rdata s.rdata).map (fun v => v.zeroExtend 24)
  else (readReg .linkver s.linkver).map (fun v => v.zeroExtend 24)

/-- A host access (R40, R41): a 24-bit write of `CMD` is a command (R20); a narrower one is refused (20_memory.md R50; 93 U7);
one wider than 24 bits, of which the spec says nothing, is refused as well (DESIGN CHOICE, log 27); a write of another
register is ignored; a read returns its value and changes nothing of the block. -/
def hostAccess (a : AgentAccess) (s : State) : Out :=
  match a.access with
  | .write r bits w =>
    if r = 0#2 then
      if bits = 24 then .next (hostCommand a.agent w s) else .refused (.partialCmdWrite bits)
    else .next s
  | .read r =>
    match hostRead r s with
    | .ok v => .next { s with hostData := v }
    | .error f => .fault f

/-- The host agent cannot act now: while `GUARD` = 1 "no host agent has a step" (R91), and an agent whose write is held waits
for it (R40; log 9). -/
def deferred (a : AgentAccess) (s : State) : Bool := s.guard || s.held.any (fun h => h.agent == a.agent)

/-- The held write that is accepted next, and the state without it: the only one, or the one the free choice picks
(60_exceptions.md R157; log 8). -/
def takeHeld (s : State) : Option (CmdWord × State) :=
  match s.held with
  | [] => none
  | [h] => some (h.word, { s with held := [] })
  | h :: h' :: rest =>
    let n := Config.heldChoice s.picks % (rest.length + 2)
    some (((h :: h' :: rest).getD n h).word,
      { s with held := (h :: h' :: rest).eraseIdx n, picks := s.picks + 1 })

/-- Construction of an instance: refused where two roles share a pin (10_state.md R26). -/
def instantiate (p : Params) : Out :=
  if p.pins.distinct then .next (State.powerOn p) else .refused .pinsNotDistinct

end Sys2Proof.Machine
end

