-- ==== Sys2Proof/Machine/BitTransfer.lean ====
section
/-! DEFINITION. The Bit Transfer Engine: `TransferByte` and the XFER command (41_bit_transfer.md). -/

namespace Sys2Proof.Machine

/-- One pass of R96's loop. Under `NONE` the sample is no event and is taken with the wait before it (R84, R20; log 18). -/
def bitSlots (cap : Capture) : List Slot :=
  match cap with
  | .sample =>
    [⟨.driveBit, []⟩, ⟨.wait .bitSettle, []⟩, ⟨.clock true, []⟩, ⟨.wait .halfHigh, []⟩, ⟨.sampleBit, []⟩,
      ⟨.clock false, []⟩, ⟨.wait .halfLow, [.shiftBit]⟩]
  | .none =>
    [⟨.driveBit, []⟩, ⟨.wait .bitSettle, []⟩, ⟨.clock true, []⟩, ⟨.wait .halfHigh, [.sampleNone]⟩,
      ⟨.clock false, []⟩, ⟨.wait .halfLow, [.shiftBit]⟩]

/-- `n` passes of the loop. -/
def bitLoop (cap : Capture) : Nat → List Slot
  | 0 => []
  | n + 1 => bitSlots cap ++ bitLoop cap n

/-- `TransferByte(b)` (R96); `after` are the assignments the caller makes with its last event. -/
def transferByte (cap : Capture) (b : Byte) (after : List Assign) : List Slot :=
  ⟨.guardAcquire, [.load b]⟩ :: (bitLoop cap 8 ++ [⟨.guardRelease, after⟩])

/-- The event list of `XFER b` (R97): "RDATA <- r ; RDATA_VALID <- 1 -- after GUARD_REL". -/
def xferSlots (p : Params) (b : Byte) : List Slot := transferByte p.capture b [.latchResult]

/-- `XFER b` (R97). -/
def execXfer (b : Byte) (s : State) : Out := issueCommand (.xfer b) (xferWord b) (xferSlots s.params b) s

end Sys2Proof.Machine
end

