-- ==== Sys2Proof/Machine/RegisterAccess.lean ====
section
/-! DEFINITION. The Register Access Protocol: the two transactions, the WRREG and RDREG commands (42_register_access.md),
and the two wire frames (30_encoding.md R72, R73). -/

namespace Sys2Proof.Machine

/-- The bracket of a transaction: chip-select, the lead wait, two bytes, chip-select, the trail wait (R109, R110); `after`
are the assignments the caller makes with its last event. -/
def transaction (cap : Capture) (b0 b1 : Byte) (after : List Assign) : List Slot :=
  ⟨.chipSelect false, []⟩ :: ⟨.wait .csLead, []⟩ ::
    (transferByte cap b0 [] ++ transferByte cap b1 [] ++ [⟨.chipSelect true, []⟩, ⟨.wait .csTrail, after⟩])

/-- `WriteTransaction(a, v)` (R109), which is also `MemWrite(a, 1, v)` (20_memory.md R46). -/
def writeTransaction (cap : Capture) (a : Addr) (v : Byte) (after : List Assign) : List Slot :=
  transaction cap (writeAddressByte a) v after

/-- `ReadTransaction(a)` (R110), which is also `MemRead(a, 1)` (R46); its result is `SR_IN` at its end. -/
def readTransaction (cap : Capture) (a : Addr) (after : List Assign) : List Slot :=
  transaction cap (readAddressByte a) dummyByte after

/-- The event list of `WRREG a, v` (R111). -/
def wrregSlots (p : Params) (a : Addr) (v : Byte) : List Slot := writeTransaction p.capture a v []

/-- The event list of `RDREG a` (R112): "RDATA <- r ; RDATA_VALID <- 1 -- after WAIT(CS_TRAIL)". -/
def rdregSlots (p : Params) (a : Addr) : List Slot := readTransaction p.capture a [.latchResult]

/-- `WRREG a, v` (R111). -/
def execWrreg (a : Addr) (v : Byte) (s : State) : Out :=
  issueCommand (.wrreg a v) (wrregWord a v) (wrregSlots s.params a v) s

/-- `RDREG a` (R112). -/
def execRdreg (a : Addr) (s : State) : Out := issueCommand (.rdreg a) (rdregWord a) (rdregSlots s.params a) s

/-- The write frame: "A write transaction puts two bytes on the wire" (R72); the transaction alone, with no host register
touched (log 6). -/
def execFrameWrite (r : Addr) (v : Byte) (s : State) : Out :=
  issueFrame (writeFrameByte r) v (writeTransaction s.params.capture r v []) s

/-- The read frame: "The value read is the byte sampled during byte 1" (R73), which stands in `SR_IN`; no host register is
touched (log 6). -/
def execFrameRead (r : Addr) (s : State) : Out :=
  issueFrame (readFrameByte r) dummyByte (readTransaction s.params.capture r []) s

end Sys2Proof.Machine
end

