-- ==== Sys2Proof/Machine/Probe.lean ====
section
/-! DEFINITION. The Device Probe: the PROBE command (43_device_probe.md). -/

namespace Sys2Proof.Machine

/-- The event list of `PROBE` (R126): `LINK <- RESET_ISSUED` with the write's `WAIT(CS_TRAIL)`, the results with the read's,
and the sink record as the last event. -/
def probeSlots (p : Params) : List Slot :=
  writeTransaction p.capture p.regCommand p.cmdSoftReset [.linkReset] ++
    (⟨.wait .resetRecovery, []⟩ ::
      (readTransaction p.capture p.regVersion [.identify, .latchResult] ++ [⟨.reportVersion, []⟩]))

/-- `PROBE` (R126). -/
def execProbe (s : State) : Out := issueCommand .probe probeWord (probeSlots s.params) s

end Sys2Proof.Machine
end

