-- ==== Sys2Proof/Machine/Dispatch.lean ====
section
/-! DEFINITION. The dispatch: one arm per constructor of `Instr`, each one call of its meaning. -/

namespace Sys2Proof.Machine

def exec (i : Instr) (s : State) : Host.Outcome State Fault Refusal :=
  match i with
  | .xfer b => Sys2Proof.Machine.execXfer b s
  | .wrreg a v => Sys2Proof.Machine.execWrreg a v s
  | .rdreg a => Sys2Proof.Machine.execRdreg a s
  | .probe => Sys2Proof.Machine.execProbe s
  | .frameWrite r v => Sys2Proof.Machine.execFrameWrite r v s
  | .frameRead r => Sys2Proof.Machine.execFrameRead r s

end Sys2Proof.Machine
end

