-- ==== Sys2Proof/Machine/Sequencer.lean ====
section
/-! DEFINITION. The sequencer: the event list of each command, one event per step (10_state.md R19, R20), and what happens at
an event boundary by priority (60_exceptions.md R150). -/

namespace Sys2Proof.Machine

/-- The event list a command's rule produces (R19). A frame's is its transaction (log 6). -/
def slotsOf (p : Params) (i : Instr) : List Slot :=
  match i with
  | .xfer b => xferSlots p b
  | .wrreg a v => wrregSlots p a v
  | .rdreg a => rdregSlots p a
  | .probe => probeSlots p
  | .frameWrite r v => writeTransaction p.capture r v []
  | .frameRead r => readTransaction p.capture r []

/-- "Each later step performs exactly one event of the list, so k advances by one per step"; after the last one the command
ends (R20). -/
def tick (s : State) : Out :=
  match s.phase with
  | .idle => .fault .sequencerStuck
  | .run c k =>
    match (slotsOf s.params c)[k]? with
    | none => .fault .sequencerStuck
    | some x =>
      andThen (performSlot x s) (fun t =>
        if k + 1 = (slotsOf s.params c).length then .next (finish t) else .next { t with phase := .run c (k + 1) })

/-- An instruction taken from the model's own port is run whole (log 1, log 6); a command word that is not legal is rejected
there too (60_exceptions.md R143). -/
def runPort (e : Encoded) (s : State) : Out :=
  match decode e with
  | .ok i => exec i s
  | .error _ =>
    match e with
    | .cmd w => .next (raiseIllegal w s)
    | .frame b0 b1 => .refused (.malformedFrame b0 b1)

/-- The idle block: an instruction of the port (log 6), the acceptance of a held write (R150), or nothing (log 21). -/
def idleStep (s : State) : Out :=
  match s.port with
  | e :: rest => runPort e { s with port := rest }
  | [] =>
    match takeHeld s with
    | some (w, t) => .next (acceptWord w t)
    | none => .next s

/-- The block's own step at a boundary: the next event of the running command before the acceptance of a held write
(R150). -/
def blockStep (s : State) : Out := if s.busy then tick s else idleStep s

/-- What of one boundary's inputs stays pending: an access that did not take place (log 20). -/
def keepHost (x : Inputs) (rest : List Inputs) : List Inputs :=
  match x.host with
  | some a => { reset := false, abort := false, host := some a } :: rest
  | none => rest

/-- One event boundary with its inputs, by priority (R150): RESET; ABORT, once asserted to its end (R145); a host access, where the agent
can act; the block's own step. ABORT counts where `BUSY` = 1 at the boundary: at the boundary after the last event of a list
`BUSY` has fallen with that event (R20), and an ABORT there has no effect (R147), also one asserted while that event was in
progress (DESIGN CHOICE, log 29). RESET counts anew at every boundary whose inputs assert it: one that stays asserted repeats R162's whole
sequence, `RESET` event included, at each of them (DESIGN CHOICE, log 30: the spec does not say what a RESET held longer does). -/
def boundaryStep (x : Inputs) (rest : List Inputs) (s : State) : Out :=
  if x.reset then .next (resetSequence { s with inputs := keepHost x rest })
  else if s.aborting then .next (abortEvent { s with inputs := keepHost x rest })
  else if x.abort && s.busy then .next (abortBegin { s with inputs := keepHost x rest })
  else
    match x.host with
    | some a =>
      if deferred a s then blockStep { s with inputs := keepHost x rest }
      else hostAccess a { s with inputs := rest }
    | none => blockStep { s with inputs := rest }

/-- One step of the machine: one event boundary (R20), at which the outside does what the first record of the schedule says, or
nothing where the schedule is empty (log 2). -/
def advance (s : State) : Out :=
  match s.inputs with
  | [] => boundaryStep {} [] s
  | x :: rest => boundaryStep x rest s

/-- The idle, quiet block with one instruction in its port (log 13). -/
def presentFetch (e : Encoded) (s : State) : State :=
  { s with inputs := [], aborting := false, busy := false, phase := .idle, port := [e] }

end Sys2Proof.Machine
end

