-- ==== Sys2Proof/Machine/Step.lean ====
section
/-! DEFINITION. One step of the machine, and the placing of one instruction where the next step takes it. -/

namespace Sys2Proof.Machine

/-- One step: one event boundary with its inputs (R20; 60_exceptions.md R150). -/
def step (s : State) : Host.Outcome State Fault Refusal := advance s

/-- `s` with the instruction whose table bits are `w` before it, so that the next step runs exactly it: the block is idle and
quiet and the instruction stands in the model's own port (log 6, log 13). -/
def State.withFetchWord (s : State) (nbits w : Nat) : State :=
  match encodedOfTable nbits w with
  | some e => presentFetch e s
  | none => s

end Sys2Proof.Machine
end

