-- ==== Sys2Proof/Machine/Assembler.lean ====
section
/-! DEFINITION. The assembly text (30_encoding.md R77, R79) and a program as the host's writes (R80). Details the rule does
not give are log 23. -/

namespace Sys2Proof.Machine

/-- The value of a digit character in bases up to 16. -/
def digitValue (c : Char) : Option Nat :=
  if '0' ≤ c ∧ c ≤ '9' then some (c.toNat - 48)
  else if 'a' ≤ c ∧ c ≤ 'f' then some (c.toNat - 87)
  else if 'A' ≤ c ∧ c ≤ 'F' then some (c.toNat - 55)
  else none

/-- Digits in a base, most significant first, onto `acc`. -/
def digitsOnto (base : Nat) : List Char → Nat → Option Nat
  | [], acc => some acc
  | c :: rest, acc =>
    match digitValue c with
    | some d => if d < base then digitsOnto base rest (acc * base + d) else none
    | none => none

/-- A number with at least one digit. -/
def natOfDigits (base : Nat) (cs : List Char) : Option Nat :=
  match cs with
  | [] => none
  | c :: rest => digitsOnto base (c :: rest) 0

/-- "written in decimal, `0x` hex or `0b` binary" (R77). -/
def parseNat (cs : List Char) : Option Nat :=
  match cs with
  | '0' :: 'x' :: rest => natOfDigits 16 rest
  | '0' :: 'b' :: rest => natOfDigits 2 rest
  | cs => natOfDigits 10 cs

/-- A number with an optional minus sign. R77 gives no form with a sign; one is read so that R78 can refuse the negative number,
and `-0`, which is not negative, is read as 0 and is in range (DESIGN CHOICE, log 23). -/
def parseInt (cs : List Char) : Option Int :=
  match cs with
  | '-' :: rest => (parseNat rest).map (fun n => -(n : Int))
  | cs => (parseNat cs).map (fun n => (n : Int))

def isBlank (c : Char) : Bool := c == ' ' || c == '\t'

/-- Blanks at both ends taken off. -/
def trimBlanks (cs : List Char) : List Char := ((cs.dropWhile isBlank).reverse.dropWhile isBlank).reverse

/-- "`;` to end of line a comment" (R77). -/
def dropComment (cs : List Char) : List Char := cs.takeWhile (fun c => c != ';')

/-- The parts between commas. -/
def splitCommas : List Char → List (List Char)
  | [] => [[]]
  | c :: rest =>
    if c == ',' then [] :: splitCommas rest
    else
      match splitCommas rest with
      | [] => [[c]]
      | part :: parts => (c :: part) :: parts

/-- The operands after a mnemonic, none where nothing follows it. -/
def operandTexts (cs : List Char) : List (List Char) :=
  match trimBlanks cs with
  | [] => []
  | rest => (splitCommas rest).map trimBlanks

/-- The line a mnemonic and its operands make. "Mnemonics are upper case" (R77). -/
def lineOf (mnemonic : String) (operands : List (Option Int)) : Option AsmLine :=
  if mnemonic == "XFER" then (match operands with | [some b] => some (.xfer b) | _ => none)
  else if mnemonic == "WRREG" then (match operands with | [some a, some v] => some (.wrreg a v) | _ => none)
  else if mnemonic == "RDREG" then (match operands with | [some a] => some (.rdreg a) | _ => none)
  else if mnemonic == "PROBE" then (match operands with | [] => some .probe | _ => none)
  else if mnemonic == "SOFTRESET" then (match operands with | [] => some .softreset | _ => none)
  else if mnemonic == "RDVER" then (match operands with | [] => some .rdver | _ => none)
  else if mnemonic == ".word" then (match operands with | [some w] => some (.word w) | _ => none)
  else none

/-- One line of text: `some none` for a line with no command, empty or with blanks or a comment only, which makes no word (DESIGN
CHOICE, log 23: R77 says "one command per line" and nothing of a line without one); `none` for an assembly error. -/
def parseLine (text : String) : Option (Option AsmLine) :=
  match trimBlanks (dropComment text.toList) with
  | [] => some none
  | cs =>
    let mnemonic := cs.takeWhile (fun c => !isBlank c)
    let operands := (operandTexts (cs.dropWhile (fun c => !isBlank c))).map parseInt
    (lineOf (String.ofList mnemonic) operands).map some

/-- The words of a program, one command per line (R77, R80); `none` where a line is an assembly error (R78). -/
def assembleProgram (p : Params) : List String → Option (List CmdWord)
  | [] => some []
  | l :: rest =>
    match parseLine l, assembleProgram p rest with
    | some none, some ws => some ws
    | some (some a), some ws => (assemble p a).map (fun w => w :: ws)
    | none, _ => none
    | some _, none => none

/-- A program as one host agent's inputs: its words "written by the host to `CMD` in order, each write held until the
previous command has ended" (R80). -/
def programInputs (agent : Nat) (ws : List CmdWord) : List Inputs :=
  ws.map (fun w => { reset := false, abort := false, host := some ⟨agent, .write 0#2 24 w⟩ })

end Sys2Proof.Machine
end

