-- ==== Sys2Proof/Machine/Timing.lean ====
section
/-! DEFINITION. The minimum durations the spec derives from an event list (70_reset_and_hazards.md R175 to R178). They stand
beside the machine: no step depends on them (R179; log 15). -/

namespace Sys2Proof.Machine

/-- The parameter a wait lasts, in microseconds (40_line_primitives.md R86; 00_scope.md R8). -/
def waitMicros (p : Params) : WaitKind → Nat
  | .bitSettle => p.tBitSettle
  | .halfHigh => p.tHalf
  | .halfLow => p.tHalf
  | .csLead => p.tCsLead
  | .csTrail => p.tCsTrail
  | .resetRecovery => 1000 * p.tResetRecovery

/-- The least time one event takes: its parameter for a wait (R87: "lower bounds"), nothing for any other. -/
def eventMicros (p : Params) : Event → Nat
  | .wait k => waitMicros p k
  | .cs _ => 0
  | .dout _ => 0
  | .ck _ => 0
  | .di _ => 0
  | .guardAcq => 0
  | .guardRel => 0
  | .sink _ _ => 0
  | .reset => 0
  | .abort => 0

/-- The least time a list of events takes. -/
def minMicros (p : Params) : List Event → Nat
  | [] => 0
  | e :: rest => eventMicros p e + minMicros p rest

end Sys2Proof.Machine
end

