-- ==== Sys2Proof/Safety.lean ====
section
/-! DEFINITION. The terms claims use: the answers of the target oracle, the event lists as the spec writes them out, and the
invariant of a safe run. -/

namespace Sys2Proof.Machine

/-! The oracle's answers. -/

/-- The n-th coming answer of the target oracle (20_memory.md R47): given from outside, or a free draw (log 3). -/
def answerAt (s : State) (n : Nat) : Level :=
  if n < s.misoIn.length then s.misoIn.getD n false else Config.misoDraw (s.draws + (n - s.misoIn.length))

/-- "The result is `m7·128 + m6·64 + ... + m0·1`" (41_bit_transfer.md R96), with `m 0` the first answer, m7. -/
def spelledByte (m : Nat → Level) : Byte :=
  BitVec.ofNat 8 (128 * (m 0).toNat + 64 * (m 1).toNat + 32 * (m 2).toNat + 16 * (m 3).toNat + 8 * (m 4).toNat +
    4 * (m 5).toNat + 2 * (m 6).toNat + (m 7).toNat)

/-- The byte a transfer returns whose first answer is the n-th coming one: the byte spelled under `SAMPLE`, `0x00` under `NONE`
(R96, R105). -/
def inByte (s : State) (n : Nat) : Byte :=
  match s.params.capture with
  | .sample => spelledByte (fun i => answerAt s (n + i))
  | .none => 0x00#8

/-- How many answers `n` bits take: one each under `SAMPLE`, none under `NONE` (40_line_primitives.md R84). -/
def drawsFor (cap : Capture) (n : Nat) : Nat :=
  match cap with
  | .sample => n
  | .none => 0

/-- The state with its next `n` answers taken. -/
def afterDraws (n : Nat) (s : State) : State :=
  { s with misoIn := s.misoIn.drop n, draws := s.draws + (n - s.misoIn.length) }

/-! The event lists as the spec writes them out. -/

/-- The events of bit i: `DO(b[i]), WAIT(BIT_SETTLE), CK(1), WAIT(HALF_HIGH), DI(m_i), CK(0), WAIT(HALF_LOW)`, with no `DI` under
`NONE` (41_bit_transfer.md R96, R105). -/
def bitEvents (cap : Capture) (b m : Byte) (i : Nat) : List Event :=
  match cap with
  | .sample =>
    [.dout (b.getLsbD i), .wait .bitSettle, .ck true, .wait .halfHigh, .di (m.getLsbD i), .ck false, .wait .halfLow]
  | .none => [.dout (b.getLsbD i), .wait .bitSettle, .ck true, .wait .halfHigh, .ck false, .wait .halfLow]

/-- The event list of `TransferByte(b)` when the answers spell m (R96). -/
def byteEvents (cap : Capture) (b m : Byte) : List Event :=
  .guardAcq :: ([7, 6, 5, 4, 3, 2, 1, 0].flatMap (bitEvents cap b m) ++ [.guardRel])

/-- The event list of a transaction with bytes b0, b1 out and m0, m1 in (42_register_access.md R109, R110). -/
def transactionEvents (cap : Capture) (b0 m0 b1 m1 : Byte) : List Event :=
  [.cs false, .wait .csLead] ++ byteEvents cap b0 m0 ++ byteEvents cap b1 m1 ++ [.cs true, .wait .csTrail]

/-- The event list of a PROBE whose four bytes in are m0 to m3 (43_device_probe.md R137). -/
def probeEvents (p : Params) (m0 m1 m2 m3 : Byte) : List Event :=
  transactionEvents p.capture (writeAddressByte p.regCommand) m0 p.cmdSoftReset m1 ++ [.wait .resetRecovery] ++
    transactionEvents p.capture (readAddressByte p.regVersion) m2 0x00#8 m3 ++
    [.sink (identificationText m3) (verdictOf m3)]

/-- The levels of the `DO` events of a list, in order. -/
def dataOutLevels (es : List Event) : List Level :=
  es.filterMap (fun e => match e with | .dout l => some l | _ => none)

/-- The levels of the `CK` events of a list, in order. -/
def clockLevels (es : List Event) : List Level :=
  es.filterMap (fun e => match e with | .ck l => some l | _ => none)

/-- The levels of the `CS` events of a list, in order. -/
def chipSelectLevels (es : List Event) : List Level :=
  es.filterMap (fun e => match e with | .cs l => some l | _ => none)

/-- The levels of the `DI` events of a list, in order. -/
def dataInLevels (es : List Event) : List Level :=
  es.filterMap (fun e => match e with | .di l => some l | _ => none)

/-- An event without the level a `DO` or a `DI` carries: "The event list differs between two calls only in the levels carried by
`DO` and `DI` events" (41_bit_transfer.md R99). -/
def Event.shape (e : Event) : Event :=
  match e with
  | .dout _ => .dout false
  | .di _ => .di false
  | e => e

/-- The bits of a byte, most significant first (20_memory.md R49). -/
def bitsMsbFirst (b : Byte) : List Level := [7, 6, 5, 4, 3, 2, 1, 0].map b.getLsbD

/-! The invariant. Where the lines, the guard and the engine registers stand after the first k events of a list follows from
the list alone; the invariant says that they stand there. -/

/-- What a prefix of an event list leaves. -/
structure View where
  guard : Bool
  csN : Level
  sclk : Level
  /-- the level of the last `DO`, none before the first -/
  mosi : Option Level
  /-- a byte was loaded, so the engine registers hold values -/
  loaded : Bool
  /-- the byte loaded last, shifted once for each of its bits that is done (R16) -/
  out : Byte
  cnt : Nat
  /-- the version read of this command is done -/
  identified : Bool
  deriving DecidableEq, Repr

/-- Before the first event: the block idle. -/
def View.start : View := ⟨false, true, false, none, false, 0x00#8, 0, false⟩

def Prim.view (p : Prim) (v : View) : View :=
  match p with
  | .chipSelect l => { v with csN := l }
  | .driveBit => { v with mosi := some (nextOutBit v.out) }
  | .clock l => { v with sclk := l }
  | .sampleBit => v
  | .wait _ => v
  | .guardAcquire => { v with guard := true }
  | .guardRelease => { v with guard := false }
  | .reportVersion => v

def Assign.view (a : Assign) (v : View) : View :=
  match a with
  | .load b => { v with loaded := true, out := b, cnt := 0 }
  | .sampleNone => v
  | .shiftBit => { v with out := shiftLeft v.out, cnt := v.cnt + 1 }
  | .latchResult => v
  | .linkReset => { v with identified := false }
  | .identify => { v with identified := true }

def Slot.view (v : View) (x : Slot) : View := x.assigns.foldl (fun v a => a.view v) (x.prim.view v)

/-- What the first k events of a command's list leave. -/
def viewAt (p : Params) (c : Instr) (k : Nat) : View := ((slotsOf p c).take k).foldl Slot.view View.start

/-- The state stands where the view says: guard, chip-select and clock; data-out at the last `DO`; once a byte is loaded, `SR_OUT`
and `BITCNT`, while `SR_IN`, which the answers decide, holds some value. -/
structure Agrees (s : State) (v : View) : Prop where
  guard : s.guard = v.guard
  csN : s.csN = v.csN
  sclk : s.sclk = v.sclk
  mosi : ∀ l, v.mosi = some l → s.mosi = l
  srOut : v.loaded = true → s.srOut = some v.out
  srIn : v.loaded = true → s.srIn.isSome = true
  bitCnt : v.loaded = true → s.bitCnt = some v.cnt
  link : v.identified = true → s.link.version.isSome = true

/-- With `BUSY` = 0: `PHASE` is `IDLE`, chip-select is deasserted (10_state.md R42), the clock idles low (R21), the guard is not
held (R27), no abort sequence is in progress. -/
structure IdleInv (s : State) : Prop where
  phase : s.phase = .idle
  aborting : s.aborting = false
  guard : s.guard = false
  csN : s.csN = true
  sclk : s.sclk = false

/-- With `BUSY` = 1: `PHASE` is (C, k), C is the command latched in `CUR_CMD`, k is an index of C's list (R19, R29), and, unless an
abort sequence is restoring them, the state stands where the first k events leave it (`Agrees`). -/
structure RunInv (s : State) (c : Instr) (k : Nat) : Prop where
  phase : s.phase = .run c k
  command : ∃ w, s.curCmd = some w ∧ decodeCmd w = .ok c
  index : k < (slotsOf s.params c).length
  agrees : s.aborting = false → Agrees s (viewAt s.params c k)

/-- The invariant of every run. -/
structure Inv (s : State) : Prop where
  idle : s.busy = false → IdleInv s
  run : s.busy = true → ∃ c k, RunInv s c k
  /-- `BITCNT` "counts the bits of the byte transfer in progress, 0 to 8" (R18). -/
  bits : ∀ n, s.bitCnt = some n → n ≤ 8
  /-- The instance is a configuration of the block (R26). -/
  pins : s.params.wellFormed = true

/-- The two lists the block only appends to (R36, R37). -/
def Extends (s t : State) : Prop := s.trace <+: t.trace ∧ s.sinkLog <+: t.sinkLog ∧ s.illegalLog <+: t.illegalLog

/-- The block is idle and could take a command now: the state in which a command is accepted at once (R20, R40). -/
def Ready (s : State) : Prop := s.busy = false ∧ s.guard = false

/-- `n` steps, stopping at the first fault or refusal. -/
def runSteps : Nat → State → Out
  | 0, s => .next s
  | n + 1, s => andThen (step s) (runSteps n)

/-- The outside does nothing at the next `n` boundaries. -/
abbrev QuietFor (n : Nat) (s : State) : Prop := ∀ x ∈ s.inputs.take n, x = {}

end Sys2Proof.Machine
end

