-- ==== Sys2Proof/Certificates/Slice0/Obligations.lean ====
section
/-! DEFINITION. The statements about the model, for the provers. Each docstring names the rule of spec/ it formalises; "log <n>" is
the model's own choice of that log entry. -/

open Sys2Proof Sys2Proof.Machine

/-! Encodings. -/

/-- Words and frames written out from the encodings of 30_encoding.md R63 to R68, R72, R73 (and 95 V20 to V37) decode as the
spec says. -/
def Obligations.WrittenOutWordsDecode : Prop :=
  decodeCmd 0b000100000000000010110100#24 = .ok (.xfer 0xB4#8) ∧
  decodeCmd 0b001000000000000100001111#24 = .ok (.wrreg 0x01#7 0x0F#8) ∧
  decodeCmd 0b001000000111111111111111#24 = .ok (.wrreg 0x7F#7 0xFF#8) ∧
  decodeCmd 0b001100000111111100000000#24 = .ok (.rdreg 0x7F#7) ∧
  decodeCmd 0b010000000000000000000000#24 = .ok .probe ∧
  decodeCmd 0x000000#24 = .error (.reservedOp 0x0#4) ∧
  decodeCmd 0x100100#24 = .error .addrNotZero ∧
  decodeCmd 0x208000#24 = .error .reservedBits ∧
  decodeCmd 0x300001#24 = .error .dataNotZero ∧
  decodeCmd 0x400001#24 = .error .dataNotZero ∧
  decodeCmd 0xF00000#24 = .error (.reservedOp 0xF#4) ∧
  decodeFrame 0b00110111#8 0x5A#8 = .ok (.frameWrite 0x37#7 0x5A#8) ∧
  decodeFrame 0b10110111#8 0x00#8 = .ok (.frameRead 0x37#7) ∧
  decodeFrame 0b10110111#8 0x01#8 = .error .dummyNotZero

/-- Decoding an encoded instruction gives it back, for every instruction and every operand (R63 to R66, R72, R73). -/
def Obligations.DecodeOfEncode : Prop := ∀ i : Instr, decode (encode i) = .ok i

/-- Every word and frame that decodes is the encoding of what it decodes to, so no word has two meanings and no instruction two
words. -/
def Obligations.EncodeOfDecode : Prop := ∀ (e : Encoded) (i : Instr), decode e = .ok i → encode i = e

/-- 30_encoding.md R70: `Decode(w)` by rows, and exactly one row can match. -/
def Obligations.DecodeFollowsTheRows : Prop :=
  ∀ w : CmdWord,
    (w &&& 0xFFFF00#24 = 0x100000#24 → decodeCmd w = .ok (.xfer (w.extractLsb' 0 8))) ∧
    (w &&& 0xFF8000#24 = 0x200000#24 → decodeCmd w = .ok (.wrreg (w.extractLsb' 8 7) (w.extractLsb' 0 8))) ∧
    (w &&& 0xFF80FF#24 = 0x300000#24 → decodeCmd w = .ok (.rdreg (w.extractLsb' 8 7))) ∧
    (w &&& 0xFFFFFF#24 = 0x400000#24 → decodeCmd w = .ok .probe) ∧
    (legal w = false → ∃ e, decodeCmd w = .error e) ∧
    [w &&& 0xFFFF00#24 == 0x100000#24, w &&& 0xFF8000#24 == 0x200000#24, w &&& 0xFF80FF#24 == 0x300000#24,
      w &&& 0xFFFFFF#24 == 0x400000#24].count true ≤ 1

/-- 30_encoding.md R78: an operand out of range is an assembly error, whatever its value; one in range becomes its word. -/
def Obligations.AssemblerNeverMasks : Prop :=
  ∀ p : Params,
    (∀ b : Int, (b < 0 ∨ 255 < b → assemble p (.xfer b) = none) ∧
      (∀ n : Byte, b = n.toNat → assemble p (.xfer b) = some (xferWord n))) ∧
    (∀ a v : Int, (a < 0 ∨ 127 < a ∨ v < 0 ∨ 255 < v → assemble p (.wrreg a v) = none) ∧
      (∀ (n : Addr) (m : Byte), a = n.toNat → v = m.toNat → assemble p (.wrreg a v) = some (wrregWord n m))) ∧
    (∀ a : Int, (a < 0 ∨ 127 < a → assemble p (.rdreg a) = none) ∧
      (∀ n : Addr, a = n.toNat → assemble p (.rdreg a) = some (rdregWord n))) ∧
    (∀ v : Int, assemble p (.wrreg 0x81 v) = none)

/-- 30_encoding.md R79: the expansions of `SOFTRESET` and `RDVER`. -/
def Obligations.PseudoInstructionsExpand : Prop :=
  ∀ p : Params,
    assemble p .softreset = assemble p (.wrreg p.regCommand.toNat p.cmdSoftReset.toNat) ∧
    assemble p .softreset = some (wrregWord p.regCommand p.cmdSoftReset) ∧
    assemble p .rdver = assemble p (.rdreg p.regVersion.toNat) ∧
    assemble p .rdver = some (rdregWord p.regVersion)

/-! Power-on and RESET. -/

/-- 70_reset_and_hazards.md R160 with the values of 10_state.md R43: an instance with four distinct pins starts in the reset
state, `TRACE` and `SINKLOG` empty. -/
def Obligations.PowerOnIsTheResetState : Prop :=
  ∀ p : Params, p.wellFormed = true → ∃ s, instantiate p = .next s ∧ s.params = p ∧
    s.csN = true ∧ s.sclk = false ∧ s.mosi = false ∧ s.srOut = some 0x00#8 ∧ s.srIn = some 0x00#8 ∧
    s.bitCnt = some 0 ∧ s.phase = .idle ∧ s.guard = false ∧ s.busy = false ∧ s.curCmd = none ∧ s.rdata = none ∧
    s.rdataValid = false ∧ s.link = .uninit ∧ s.linkver = none ∧ s.illegal = false ∧ s.aborted = false ∧
    s.trace = [] ∧ s.sinkLog = []

/-- `State.reset` is the power-on state of an instance whose `OPEN` parameters are free and whose capture mode is the default `SAMPLE`
(00_scope.md R8; that the parameters are constants with no body is log 4). -/
def Obligations.ResetIsAPowerOn : Prop :=
  instantiate Config.params = .next State.reset ∧ State.reset.params.wellFormed = true ∧
    State.reset.params.capture = .sample ∧ State.reset.status = 0x00#8

/-- 10_state.md R26: two roles on one pin are refused at construction. -/
def Obligations.SharedPinsAreRefused : Prop :=
  ∀ p : Params,
    (p.pins.clk = p.pins.mosi ∨ p.pins.clk = p.pins.miso ∨ p.pins.clk = p.pins.cs ∨ p.pins.mosi = p.pins.miso ∨
      p.pins.mosi = p.pins.cs ∨ p.pins.miso = p.pins.cs) →
    instantiate p = .refused .pinsNotDistinct

/-- RESET, asserted in any state and with anything else asserted beside it, performs the sequence of 70_reset_and_hazards.md R162 and
leaves the reset state of R163. MODEL's choices: that the whole sequence is one step (log 11); that the recorded faults stay (R143) with
the held writes (R164) and the model's own fields (log 19); that a host access pending at the boundary stays for the next one (log 19,
log 20); that a RESET asserted at the boundary before as well performs the sequence again (log 30). -/
def Obligations.ResetInputResets : Prop :=
  ∀ (s : State) (x : Inputs) (rest : List Inputs), s.inputs = x :: rest → x.reset = true →
    ∃ t, step s = .next t ∧
      (x.host = none → t.inputs = rest) ∧ (∀ a, x.host = some a → t.inputs = { host := some a } :: rest) ∧
      t = { s with
        inputs := t.inputs, csN := true, sclk := false, mosi := false, guard := false, busy := false, phase := .idle,
        srOut := some 0x00#8, srIn := some 0x00#8, bitCnt := some 0, curCmd := none, rdata := none, link := .uninit,
        illegal := false, aborted := false, aborting := false,
        trace := s.trace ++ (if s.guard then [.guardRel] else []) ++ [.ck false, .cs true, .dout false, .reset] } ∧
      t.rdataValid = false ∧ t.linkver = none ∧ t.status = 0x00#8

/-! Primitives. -/

/-- 40_line_primitives.md R81 to R89 and R94: what each micro-operation writes and records, and nothing else; a sample takes one answer
under `SAMPLE` and none under `NONE`; a second `GuardAcquire` is the fault `GuardNested`. -/
def Obligations.PrimitivesActAndRecord : Prop :=
  ∀ s : State,
    (∀ l, setChipSelect l s = { s with csN := l, trace := s.trace ++ [.cs l] }) ∧
    (∀ l, setDataOut l s = { s with mosi := l, trace := s.trace ++ [.dout l] }) ∧
    (∀ l, setClock l s = { s with sclk := l, trace := s.trace ++ [.ck l] }) ∧
    (∀ k, busyWait k s = { s with trace := s.trace ++ [.wait k] }) ∧
    readDataIn .sample s = (answerAt s 0, { afterDraws 1 s with trace := s.trace ++ [.di (answerAt s 0)] }) ∧
    readDataIn .none s = (false, s) ∧
    (s.guard = false → guardAcquire s = .next { s with guard := true, trace := s.trace ++ [.guardAcq] }) ∧
    (s.guard = true → guardAcquire s = .fault .guardNested) ∧
    guardRelease s = { s with guard := false, trace := s.trace ++ [.guardRel] } ∧
    (∀ text verdict, sinkRecord text verdict s =
      { s with sinkLog := s.sinkLog ++ [⟨text, verdict⟩], trace := s.trace ++ [.sink text verdict] })

/-! Byte transfers and XFER. -/

/-- 41_bit_transfer.md R96: `TransferByte(b)` from any state with the guard free: its result, its event list, what it writes,
and nothing else. -/
def Obligations.TransferByteFollowsTheProcedure : Prop :=
  ∀ (b : Byte) (s : State), s.guard = false →
    runSlots (transferByte s.params.capture b []) s =
      .next { afterDraws (drawsFor s.params.capture 8) s with
        srOut := some 0x00#8, srIn := some (inByte s 0), bitCnt := some 8, mosi := b.getLsbD 0, sclk := false,
        guard := false, trace := s.trace ++ byteEvents s.params.capture b (inByte s 0) } ∧
    (byteEvents s.params.capture b (inByte s 0)).length = (if s.params.capture = .sample then 58 else 50)

/-- XFER completes from every state in which a command can be accepted, and this is all it does (41_bit_transfer.md R97; its end
state R101; that `CUR_CMD` keeps the word is log 26). -/
def Obligations.XferCompletes : Prop :=
  ∀ (b : Byte) (s : State), Ready s →
    exec (.xfer b) s =
      .next { afterDraws (drawsFor s.params.capture 8) s with
        curCmd := some (xferWord b), busy := false, phase := .idle,
        srOut := some 0x00#8, srIn := some (inByte s 0), bitCnt := some 8, mosi := b.getLsbD 0, sclk := false,
        guard := false, rdata := some (inByte s 0),
        trace := s.trace ++ byteEvents s.params.capture b (inByte s 0) }

/-- 41_bit_transfer.md R98 and R99: the events XFER records, whatever the byte and the answers: data-out carries the bits most
significant first, the first answer becomes bit 7, eight clock pairs alternate from a rising edge, no chip-select event, and
two calls differ only in the levels of `DO` and `DI`. -/
def Obligations.XferShapeIsConstant : Prop :=
  ∀ (b : Byte) (s : State), Ready s →
    ∃ t es, exec (.xfer b) s = .next t ∧ t.trace = s.trace ++ es ∧
      dataOutLevels es = bitsMsbFirst b ∧
      clockLevels es = [true, false, true, false, true, false, true, false, true, false, true, false, true, false, true,
        false] ∧
      chipSelectLevels es = [] ∧
      (s.params.capture = .sample → ∃ r, t.rdata = some r ∧ dataInLevels es = bitsMsbFirst r ∧
        dataInLevels es = (List.range 8).map (answerAt s)) ∧
      ∀ (b' : Byte) (s' t' : State) (es' : List Event), Ready s' → s'.params.capture = s.params.capture →
        exec (.xfer b') s' = .next t' → t'.trace = s'.trace ++ es' →
        es'.map Event.shape = es.map Event.shape

/-! Register transactions. -/

/-- WRREG completes, and this is all it does: two bytes out, no result, `LINK` untouched (42_register_access.md R109, R111;
that `CUR_CMD` keeps the word is log 26). -/
def Obligations.WrregCompletes : Prop :=
  ∀ (a : Addr) (v : Byte) (s : State), Ready s →
    exec (.wrreg a v) s =
      .next { afterDraws (drawsFor s.params.capture 16) s with
        curCmd := some (wrregWord a v), busy := false, phase := .idle,
        srOut := some 0x00#8, srIn := some (inByte s 8), bitCnt := some 8, mosi := v.getLsbD 0, sclk := false,
        csN := true, guard := false,
        trace := s.trace ++ transactionEvents s.params.capture (a.zeroExtend 8) (inByte s 0) v (inByte s 8) }

/-- RDREG completes, and this is all it does: the result is the byte of the second eight answers (R110, R112;
that `CUR_CMD` keeps the word is log 26). -/
def Obligations.RdregCompletes : Prop :=
  ∀ (a : Addr) (s : State), Ready s →
    exec (.rdreg a) s =
      .next { afterDraws (drawsFor s.params.capture 16) s with
        curCmd := some (rdregWord a), busy := false, phase := .idle,
        srOut := some 0x00#8, srIn := some (inByte s 8), bitCnt := some 8, mosi := false, sclk := false,
        csN := true, guard := false, rdata := some (inByte s 8),
        trace := s.trace ++
          transactionEvents s.params.capture (0x80#8 ||| a.zeroExtend 8) (inByte s 0) 0x00#8 (inByte s 8) }

/-- The wire frames alone: the same transactions, with no host register touched (30_encoding.md R72, R73; that a frame runs alone
is log 6). -/
def Obligations.FramesComplete : Prop :=
  (∀ (r : Addr) (v : Byte) (s : State), Ready s →
    exec (.frameWrite r v) s =
      .next { afterDraws (drawsFor s.params.capture 16) s with
        srOut := some 0x00#8, srIn := some (inByte s 8), bitCnt := some 8, mosi := v.getLsbD 0, sclk := false,
        csN := true, guard := false,
        trace := s.trace ++ transactionEvents s.params.capture (r.zeroExtend 8) (inByte s 0) v (inByte s 8) }) ∧
  (∀ (r : Addr) (s : State), Ready s →
    exec (.frameRead r) s =
      .next { afterDraws (drawsFor s.params.capture 16) s with
        srOut := some 0x00#8, srIn := some (inByte s 8), bitCnt := some 8, mosi := false, sclk := false,
        csN := true, guard := false,
        trace := s.trace ++
          transactionEvents s.params.capture (0x80#8 ||| r.zeroExtend 8) (inByte s 0) 0x00#8 (inByte s 8) })

/-- 42_register_access.md R113 and R118 (which the spec marks as derived): in the span between `CS(0)` and `CS(1)` lie exactly the lead wait
and two byte transfers, the last events before `CS(1)` are `WAIT(HALF_LOW)` and `GUARD_REL`, and after it comes only the trail wait, so
no clock edge lies outside the span; with the counts of a transaction. -/
def Obligations.TransactionShape : Prop :=
  ∀ (i : Instr) (s : State), Ready s → (∃ a v, i = .wrreg a v) ∨ (∃ a, i = .rdreg a) →
    ∃ t es mid b0 m0 b1 m1, exec i s = .next t ∧ t.trace = s.trace ++ es ∧
      es = [.cs false] ++ mid ++ [.cs true, .wait .csTrail] ∧
      mid = [.wait .csLead] ++ byteEvents s.params.capture b0 m0 ++ byteEvents s.params.capture b1 m1 ∧
      mid.drop (mid.length - 2) = [.wait .halfLow, .guardRel] ∧
      chipSelectLevels mid = [] ∧
      (clockLevels es).count true = 16 ∧ (clockLevels es).count false = 16 ∧ (dataOutLevels es).length = 16 ∧
      (chipSelectLevels es).count false = 1 ∧ (chipSelectLevels es).count true = 1 ∧
      (s.params.capture = .sample → (dataInLevels es).length = 16 ∧ es.length = 120) ∧
      (s.params.capture = .none → dataInLevels es = [] ∧ es.length = 104) ∧
      es.count .guardAcq = 2 ∧ es.count .guardRel = 2

/-- 42_register_access.md R114: for every address the address byte of a read is that of a write with bit 7 set; "The two differ in
bit 7 only". -/
def Obligations.ReadAndWriteDifferInDirectionBit : Prop :=
  ∀ (a : Addr) (v : Byte) (s s' : State), Ready s → Ready s' →
    ∃ t t' es es' bits, exec (.wrreg a v) s = .next t ∧ t.trace = s.trace ++ es ∧
      exec (.rdreg a) s' = .next t' ∧ t'.trace = s'.trace ++ es' ∧
      (dataOutLevels es).take 8 = false :: bits ∧ (dataOutLevels es').take 8 = true :: bits ∧
      bits = [6, 5, 4, 3, 2, 1, 0].map a.getLsbD

/-- 42_register_access.md R115: the eight `DO` events of a read's second byte all carry 0, and `MOSI` = 0 at the end. -/
def Obligations.ReadSendsZeroDummy : Prop :=
  ∀ (a : Addr) (s : State), Ready s →
    ∃ t es, exec (.rdreg a) s = .next t ∧ t.trace = s.trace ++ es ∧
      (dataOutLevels es).drop 8 = List.replicate 8 false ∧ t.mosi = false

/-! The probe. -/

/-- PROBE completes, and this is all it does (43_device_probe.md R126; that `CUR_CMD` keeps the word is log 26). -/
def Obligations.ProbeCompletes : Prop :=
  ∀ s : State, Ready s →
    exec .probe s =
      .next { afterDraws (drawsFor s.params.capture 32) s with
        curCmd := some probeWord, busy := false, phase := .idle,
        srOut := some 0x00#8, srIn := some (inByte s 24), bitCnt := some 8, mosi := false, sclk := false,
        csN := true, guard := false, rdata := some (inByte s 24), link := .identified (inByte s 24),
        sinkLog := s.sinkLog ++ [⟨identificationText (inByte s 24), verdictOf (inByte s 24)⟩],
        trace := s.trace ++ probeEvents s.params (inByte s 0) (inByte s 8) (inByte s 16) (inByte s 24) }

/-- 43_device_probe.md R137: the counts of a PROBE's event list and the bytes its `DO` levels spell. -/
def Obligations.ProbeEventCounts : Prop :=
  ∀ s : State, Ready s →
    ∃ t es, exec .probe s = .next t ∧ t.trace = s.trace ++ es ∧
      es.length = (if s.params.capture = .sample then 242 else 210) ∧
      (clockLevels es).count true = 32 ∧ (clockLevels es).count false = 32 ∧ (dataOutLevels es).length = 32 ∧
      (chipSelectLevels es).count false = 2 ∧ (chipSelectLevels es).count true = 2 ∧
      es.count .guardAcq = 4 ∧ es.count .guardRel = 4 ∧ es.count (.wait .resetRecovery) = 1 ∧
      dataOutLevels es = bitsMsbFirst (s.params.regCommand.zeroExtend 8) ++ bitsMsbFirst s.params.cmdSoftReset ++
        bitsMsbFirst (0x80#8 ||| s.params.regVersion.zeroExtend 8) ++ bitsMsbFirst 0x00#8

/-- 43_device_probe.md R131 and R132, with R129's verdict and the "exactly one record ... as its last event" of R130 for a probe that ends:
the results are the raw version byte, and the record's text and verdict are those of that byte. -/
def Obligations.ProbeReportsOneRecord : Prop :=
  ∀ s : State, Ready s →
    ∃ t v hi lo verdict, exec .probe s = .next t ∧ v = inByte s 24 ∧
      t.rdata = some v ∧ t.rdataValid = true ∧ t.linkver = some v ∧
      (verdict = .linkFault ↔ v = 0x00#8 ∨ v = 0xFF#8) ∧
      "0123456789ABCDEF".toList[v.toNat / 16]? = some hi ∧ "0123456789ABCDEF".toList[v.toNat % 16]? = some lo ∧
      t.sinkLog = s.sinkLog ++ [⟨"identification byte: 0x" ++ String.ofList [hi, lo], verdict⟩] ∧
      t.trace.getLast? = some (.sink ("identification byte: 0x" ++ String.ofList [hi, lo]) verdict) ∧
      (t.linkFault = true ↔ verdict = .linkFault)

/-- 43_device_probe.md R134: the block is deterministic in the answers: two probes, from any two states, whose version reads are
answered alike give the same version, result, verdict and record. -/
def Obligations.ProbeDependsOnVersionAnswers : Prop :=
  ∀ s s' t t' : State, Ready s → Ready s' → s.params.capture = s'.params.capture →
    (∀ n, 24 ≤ n → n < 32 → answerAt s n = answerAt s' n) →
    exec .probe s = .next t → exec .probe s' = .next t' →
    t.linkver = t'.linkver ∧ t.rdata = t'.rdata ∧ t.linkFault = t'.linkFault ∧
      t.sinkLog.drop s.sinkLog.length = t'.sinkLog.drop s'.sinkLog.length

/-- For every instruction: the events recorded depend only on the operands, the parameters and the answers, not on any state an earlier
command left (41_bit_transfer.md R96, R97 and R99 for XFER, 42_register_access.md R122 for the register transactions,
43_device_probe.md R126 and R137 for PROBE). That the two wire frames have an event list of their own is the model's choice, log 6. -/
def Obligations.EventsDependOnOperandsAndAnswers : Prop :=
  ∀ (i : Instr) (s s' t t' : State), Ready s → Ready s' → s.params = s'.params →
    (∀ n, answerAt s n = answerAt s' n) → exec i s = .next t → exec i s' = .next t' →
    t.trace.drop s.trace.length = t'.trace.drop s'.trace.length

/-- 41_bit_transfer.md R105: under `P_MISO_CAPTURE = NONE` nothing is sampled, every transfer and read gives `0x00`, and every probe
reports a link fault. -/
def Obligations.NoneModeReadsZero : Prop :=
  ∀ s : State, Ready s → s.params.capture = .none →
    (∀ b, ∃ t, exec (.xfer b) s = .next t ∧ t.rdata = some 0x00#8 ∧ t.misoIn = s.misoIn ∧ t.draws = s.draws) ∧
    (∀ a v, ∃ t, exec (.wrreg a v) s = .next t ∧ t.srIn = some 0x00#8 ∧ t.misoIn = s.misoIn ∧ t.draws = s.draws) ∧
    (∀ a, ∃ t, exec (.rdreg a) s = .next t ∧ t.rdata = some 0x00#8 ∧ t.misoIn = s.misoIn ∧ t.draws = s.draws) ∧
    (∃ t, exec .probe s = .next t ∧ t.rdata = some 0x00#8 ∧ t.linkFault = true ∧
      t.sinkLog = s.sinkLog ++ [⟨"identification byte: 0x00", .linkFault⟩] ∧
      t.misoIn = s.misoIn ∧ t.draws = s.draws)

/-! Frames of whole commands. -/

/-- What no instruction touches, whichever it is, when the block can take it: the flags `ILLEGAL` and `ABORTED`, the recorded faults, the
parameters, the held writes, the coming inputs, the port, what a host read returned; `LINK` and the sink only by PROBE (R127, R135);
`RDATA` not by WRREG (R111); chip-select not by XFER (R103). The last clause, that a wire frame leaves `RDATA`, `BUSY`, `PHASE` and
`CUR_CMD`, is the model's choice, log 6. -/
def Obligations.CommandFrame : Prop :=
  ∀ (i : Instr) (s t : State), Ready s → exec i s = .next t →
    t.illegal = s.illegal ∧ t.aborted = s.aborted ∧ t.aborting = s.aborting ∧ t.illegalLog = s.illegalLog ∧
    t.params = s.params ∧ t.held = s.held ∧ t.inputs = s.inputs ∧ t.port = s.port ∧ t.picks = s.picks ∧
    t.hostData = s.hostData ∧
    (i ≠ .probe → t.link = s.link ∧ t.sinkLog = s.sinkLog) ∧
    ((∃ a v, i = .wrreg a v) → t.rdata = s.rdata) ∧
    ((∃ b, i = .xfer b) → t.csN = s.csN) ∧
    (i.isCommand = false → t.rdata = s.rdata ∧ t.busy = s.busy ∧ t.phase = s.phase ∧ t.curCmd = s.curCmd)

/-- A command issued while `BUSY` = 1 is held, and a frame waits; nothing else changes (R40; that `exec` says so, and where a frame waits, is log 14). -/
def Obligations.BusyBlockHolds : Prop :=
  ∀ s : State, s.busy = true →
    (∀ b, exec (.xfer b) s = .next { s with held := s.held ++ [⟨0, xferWord b⟩] }) ∧
    (∀ a v, exec (.wrreg a v) s = .next { s with held := s.held ++ [⟨0, wrregWord a v⟩] }) ∧
    (∀ a, exec (.rdreg a) s = .next { s with held := s.held ++ [⟨0, rdregWord a⟩] }) ∧
    exec .probe s = .next { s with held := s.held ++ [⟨0, probeWord⟩] } ∧
    (∀ r v, exec (.frameWrite r v) s = .next { s with port := s.port ++ [.frame (writeFrameByte r) v] }) ∧
    (∀ r, exec (.frameRead r) s = .next { s with port := s.port ++ [.frame (readFrameByte r) 0x00#8] })

/-! The step and the sequencer. -/

/-- A step at which the outside does nothing runs, whole, the command that stands in the port of the idle block (log 1, log 6). -/
def Obligations.StepRunsTheDecodedCommand : Prop :=
  ∀ (s : State) (w : CmdWord) (rest : List Encoded) (i : Instr), QuietFor 1 s → s.aborting = false → s.busy = false →
    s.port = .cmd w :: rest → decodeCmd w = .ok i →
    step s = exec i { s with inputs := s.inputs.drop 1, port := rest }

/-- A step at which the outside does nothing runs the frame that stands in the port of the idle block (log 6). -/
def Obligations.StepRunsTheDecodedFrame : Prop :=
  ∀ (s : State) (b0 b1 : Byte) (rest : List Encoded) (i : Instr), QuietFor 1 s → s.aborting = false → s.busy = false →
    s.port = .frame b0 b1 :: rest → decodeFrame b0 b1 = .ok i →
    step s = exec i { s with inputs := s.inputs.drop 1, port := rest }

/-- The instruction placed by `withFetchWord` is the one the next step runs, from any state (log 13). -/
def Obligations.FetchWordRunsNext : Prop :=
  ∀ (s : State) (nbits w : Nat) (i : Instr), decodeTableWord nbits w = some i →
    step (s.withFetchWord nbits w) =
      exec i { s with inputs := [], aborting := false, busy := false, phase := .idle, port := [] }

/-- 10_state.md R20: acceptance is a step of its own, records no event and makes the assignments before the first event; `RDATA_VALID`
is cleared by XFER, RDREG and PROBE (R31). -/
def Obligations.AcceptanceIsOneStep : Prop :=
  ∀ (s : State) (a : Nat) (w : CmdWord) (i : Instr), QuietFor 1 s → s.aborting = false → s.busy = false →
    s.port = [] → s.held = [⟨a, w⟩] → decodeCmd w = .ok i →
    step s =
      .next { s with
        inputs := s.inputs.drop 1, held := [], curCmd := some w, busy := true, phase := .run i 0,
        rdata := match i with
          | .wrreg _ _ => s.rdata
          | _ => none }

/-- 10_state.md R20: a step of a running command performs exactly one event, and k advances by one and never jumps; `BUSY` falls and
`PHASE` becomes `IDLE` with the last event. -/
def Obligations.OneEventPerStep : Prop :=
  ∀ (s t : State), s.busy = true → s.aborting = false → QuietFor 1 s → step s = .next t →
    ∃ c k e, s.phase = .run c k ∧ t.trace = s.trace ++ [e] ∧
      ((k + 1 < (slotsOf s.params c).length ∧ t.phase = .run c (k + 1) ∧ t.busy = true) ∨
        (k + 1 = (slotsOf s.params c).length ∧ t.phase = .idle ∧ t.busy = false))

/-- A held command, accepted and then stepped event by event to its last (R20), ends in the very state in which `exec` leaves it, after
exactly as many steps as its list is long and one for acceptance. So `exec`, which the model's own port runs in one step (log 1), is the
sum of R20's steps. -/
def Obligations.SteppedCommandEqualsWholeCommand : Prop :=
  ∀ (s : State) (a : Nat) (w : CmdWord) (i : Instr) (n : Nat), Ready s → s.aborting = false → s.port = [] →
    s.held = [⟨a, w⟩] → decodeCmd w = .ok i → n = 1 + (slotsOf s.params i).length → QuietFor n s →
    ∃ t, runSteps n s = .next t ∧ exec i { s with held := [], inputs := s.inputs.drop n } = .next t

/-- 43_device_probe.md R126 and R127, 95 V98: `LINK`, `RDATA_VALID` and `BUSY` after each event of a PROBE, accepted in any link state:
the old link until the write's trail wait, `RESET_ISSUED` until the read's, `IDENTIFIED` with the result from there; `BUSY` falls with
the last event. `n` is the length of one transaction. -/
def Obligations.ProbeLinkTimeline : Prop :=
  ∀ (s : State) (a k n : Nat), Ready s → s.aborting = false → s.port = [] → s.held = [⟨a, probeWord⟩] →
    QuietFor (1 + k) s → n = (if s.params.capture = .sample then 120 else 104) → k ≤ 2 * n + 2 →
    ∃ t, runSteps (1 + k) s = .next t ∧
      t.link = (if k < n then s.link else if k < 2 * n + 1 then .resetIssued else .identified (inByte s 24)) ∧
      t.rdata = (if k < 2 * n + 1 then none else some (inByte s 24)) ∧
      t.busy = decide (k < 2 * n + 2) ∧
      t.sinkLog.length = s.sinkLog.length + (if k < 2 * n + 2 then 0 else 1)

/-- 60_exceptions.md R143: a held word that is not legal is rejected when it would be accepted: the flag, the recorded fault, the write
completed; nothing else (for a word written to an idle block see `HostWrites`). The second clause says the same of a word in the model's
own port (log 6). -/
def Obligations.IllegalWordIsRejected : Prop :=
  ∀ (s : State) (w : CmdWord), QuietFor 1 s → s.aborting = false → s.busy = false → legal w = false →
    (∀ a, s.port = [] → s.held = [⟨a, w⟩] →
      step s = .next { s with
        inputs := s.inputs.drop 1, held := [], illegal := true, illegalLog := s.illegalLog ++ [w] }) ∧
    (∀ rest, s.port = .cmd w :: rest →
      step s = .next { s with
        inputs := s.inputs.drop 1, port := rest, illegal := true, illegalLog := s.illegalLog ++ [w] })

/-- While `BUSY` = 1 no held write is accepted or rejected, at most one is added, and the latched command does not change (10_state.md R40;
20_memory.md R59). -/
def Obligations.NoAcceptanceWhileBusy : Prop :=
  ∀ s t : State, s.busy = true → step s = .next t →
    s.held <+: t.held ∧ t.held.length ≤ s.held.length + 1 ∧ t.illegalLog = s.illegalLog ∧
      (t.busy = true → t.curCmd = s.curCmd)

/-- 60_exceptions.md R157: when several writes are held, one of them is accepted and the others stay held; which one is the free
choice of log 8. -/
def Obligations.AcceptanceTakesOneHeldWrite : Prop :=
  ∀ s : State, QuietFor 1 s → s.aborting = false → s.busy = false → s.port = [] → s.held ≠ [] →
    ∃ n h p, s.held[n]? = some h ∧
      step s = .next (acceptWord h.word
        { s with inputs := s.inputs.drop 1, held := s.held.eraseIdx n, picks := p })

/-! The host port. -/

/-- 10_state.md R38 to R41: a host read, of an agent that can act, running or idle: `CMD` reads 0, `STATUS`, `RDATA` and `LINKVER` their
current values, and the block is not disturbed. MODEL's choices: the value lands in `hostData` (log 10), and the access takes a boundary of
its own, so that the step performs no event of a running command (log 20). -/
def Obligations.HostReadsReturnRegisters : Prop :=
  ∀ (s : State) (g : Nat) (r : BitVec 2) (later : List Inputs),
    s.inputs = { host := some ⟨g, .read r⟩ } :: later → s.aborting = false → s.guard = false →
    (∀ h ∈ s.held, h.agent ≠ g) →
    (r = 0#2 → step s = .next { s with inputs := later, hostData := 0#24 }) ∧
    (r = 1#2 → step s = .next { s with inputs := later, hostData := s.status.zeroExtend 24 }) ∧
    (∀ v, r = 2#2 → s.rdata = some v → step s = .next { s with inputs := later, hostData := v.zeroExtend 24 }) ∧
    (∀ v, r = 3#2 → s.link = .identified v → step s = .next { s with inputs := later, hostData := v.zeroExtend 24 })

/-- 10_state.md R31 and R33: a model read of `RDATA` while `RDATA_VALID` = 0, or of `LINKVER` while `LINK` is not `IDENTIFIED`, is the fault
`UnwrittenRead`. -/
def Obligations.ReadsOfNoValueFault : Prop :=
  ∀ (s : State) (g : Nat) (r : BitVec 2) (later : List Inputs),
    s.inputs = { host := some ⟨g, .read r⟩ } :: later → s.aborting = false → s.guard = false →
    (∀ h ∈ s.held, h.agent ≠ g) →
    (r = 2#2 → s.rdataValid = false → step s = .fault (.unwrittenRead .rdata)) ∧
    (r = 3#2 → (∀ v, s.link ≠ .identified v) → step s = .fault (.unwrittenRead .linkver))

/-- Host writes of an agent that can act. 24 bits to `CMD` are held while `BUSY` = 1 (10_state.md R40), accepted at once by an idle block
with nothing held (R20), or rejected at once there when the word is not legal (60_exceptions.md R143); fewer are refused (20_memory.md
R50; 93 U7); registers 1 to 3 ignore a write (R40). MODEL's choices: that a write joins those held on an idle block (log 28), that an
access takes a boundary of its own (log 20), and that more than 24 bits are refused as well (log 27). -/
def Obligations.HostWrites : Prop :=
  ∀ (s : State) (g bits : Nat) (r : BitVec 2) (w : CmdWord) (later : List Inputs),
    s.inputs = { host := some ⟨g, .write r bits w⟩ } :: later → s.aborting = false → s.guard = false →
    (∀ h ∈ s.held, h.agent ≠ g) →
    (r = 0#2 → bits = 24 → s.busy = true ∨ s.held ≠ [] →
      step s = .next { s with inputs := later, held := s.held ++ [⟨g, w⟩] }) ∧
    (∀ i, r = 0#2 → bits = 24 → s.busy = false → s.held = [] → decodeCmd w = .ok i →
      step s = .next { s with
        inputs := later, curCmd := some w, busy := true, phase := .run i 0,
        rdata := match i with
          | .wrreg _ _ => s.rdata
          | _ => none }) ∧
    (r = 0#2 → bits = 24 → s.busy = false → s.held = [] → legal w = false →
      step s = .next { s with inputs := later, illegal := true, illegalLog := s.illegalLog ++ [w] }) ∧
    (r = 0#2 → bits ≠ 24 → step s = .refused (.partialCmdWrite bits)) ∧
    (r ≠ 0#2 → step s = .next { s with inputs := later })

/-- While `GUARD` = 1 (40_line_primitives.md R91), or while the agent's own write is held (10_state.md R40; log 9), a host access does
not take place: it stays pending and is not lost. The running command goes on by one event; the idle block goes on with its own step,
which is the acceptance of one held write where the port is empty (log 6) and a write is held. -/
def Obligations.HostWaitsForGuardAndHeldWrite : Prop :=
  ∀ (s : State) (a : AgentAccess) (later : List Inputs), s.inputs = { host := some a } :: later →
    s.aborting = false → (s.guard = true ∨ ∃ h ∈ s.held, h.agent = a.agent) →
    (s.busy = true → ∀ t, step s = .next t →
      t.inputs = s.inputs ∧ t.held = s.held ∧ t.hostData = s.hostData ∧ ∃ e, t.trace = s.trace ++ [e]) ∧
    (s.busy = false → s.port = [] → s.held ≠ [] →
      ∃ n h p, s.held[n]? = some h ∧
        step s = .next (acceptWord h.word { s with held := s.held.eraseIdx n, picks := p })) ∧
    (∀ t, s.busy = false → step s = .next t → t.inputs = s.inputs ∧ t.hostData = s.hostData)

/-! Flags. -/

/-- 10_state.md R39 and R34: the fields of `STATUS`, bit by bit, and their reset values. -/
def Obligations.StatusFields : Prop :=
  (∀ p, (State.powerOn p).status = 0x00#8) ∧ ∀ s : State,
    s.status.getLsbD 0 = s.busy ∧ s.status.getLsbD 1 = s.illegal ∧ s.status.getLsbD 2 = s.aborted ∧
    s.status.getLsbD 3 = s.rdata.isSome ∧
    (s.link = .uninit → s.status.extractLsb' 4 2 = 0b00#2) ∧
    (s.link = .resetIssued → s.status.extractLsb' 4 2 = 0b01#2) ∧
    (∀ v, s.link = .identified v → s.status.extractLsb' 4 2 = 0b10#2) ∧
    s.status.extractLsb' 4 2 ≠ 0b11#2 ∧
    (s.status.getLsbD 6 = true ↔ s.link = .identified 0x00#8 ∨ s.link = .identified 0xFF#8) ∧
    s.status.getLsbD 7 = false

/-- `ILLEGAL` and `ABORTED` are sticky: no step but one with RESET clears either (10_state.md R35; 60_exceptions.md R152). -/
def Obligations.OnlyResetClearsStickyFlags : Prop :=
  ∀ s t : State, step s = .next t → (∀ x later, s.inputs = x :: later → x.reset = false) →
    (s.illegal = true → t.illegal = true) ∧ (s.aborted = true → t.aborted = true)

/-- 43_device_probe.md R127 and R135: a step changes `LINK` only by RESET, to `UNINIT`, or by an event of a running PROBE, to
`RESET_ISSUED` or `IDENTIFIED`; no acceptance of a write changes it, not even of a PROBE. The third case is a PROBE that the
model's own port runs whole: the very word taken from it (log 1, log 6). -/
def Obligations.OnlyProbeOrResetChangesLink : Prop :=
  ∀ s t : State, step s = .next t → t.link ≠ s.link →
    (∃ x later, s.inputs = x :: later ∧ x.reset = true ∧ t.link = .uninit) ∨
    (∃ k, s.busy = true ∧ s.phase = .run .probe k ∧ (t.link = .resetIssued ∨ ∃ v, t.link = .identified v)) ∨
    (s.busy = false ∧ s.port.head? = some (.cmd probeWord) ∧ ∃ v, t.link = .identified v)

/-! ABORT. -/

/-- ABORT asserted while `BUSY` = 1, inside or outside the guard, performs the events of 60_exceptions.md R145 that apply, in its order,
then `ABORT` with the effects of R146; every other field of the state is as it was. MODEL's choice: one event a step, so the sequence
takes as many steps as it has events (log 11). -/
def Obligations.AbortRestoresAndEnds : Prop :=
  ∀ (s : State) (later : List Inputs) (n : Nat), s.busy = true → s.aborting = false →
    s.inputs = { abort := true } :: later → n = s.guard.toNat + s.sclk.toNat + (!s.csN).toNat →
    (∀ x ∈ later.take n, x = {}) →
    ∃ t, runSteps (1 + n) s = .next t ∧
      t = { s with
        inputs := later.drop n, guard := false, sclk := false, csN := true, aborted := true, rdata := none, busy := false,
        phase := .idle, srOut := none, srIn := none, bitCnt := none, curCmd := none,
        trace := s.trace ++ (if s.guard then [.guardRel] else []) ++ (if s.sclk then [.ck false] else []) ++
          (if s.csN then [] else [.cs true]) ++ [.abort] } ∧
      t.rdataValid = false

/-- Nothing but RESET interleaves with an abort sequence, from the boundary at which ABORT is asserted to its end, whether or not inputs are
to come: each step performs one restoring event or the ending `ABORT`, and a second ABORT is ignored (60_exceptions.md R144, R145, R152).
MODEL's clauses: one event a step (log 11), and a host access at such a boundary stays for the next one (log 20). -/
def Obligations.AbortSequenceIsAtomic : Prop :=
  ∀ s : State, (∀ x later, s.inputs = x :: later → x.reset = false) →
    (s.aborting = true ∨ (s.busy = true ∧ ∃ x later, s.inputs = x :: later ∧ x.abort = true)) →
    ∃ t e, step s = .next t ∧ t.trace = s.trace ++ [e] ∧ e ∈ [Event.guardRel, .ck false, .cs true, .abort] ∧
      t.held = s.held ∧ t.hostData = s.hostData ∧ (t.aborting = false ↔ e = .abort) ∧
      (s.inputs = [] → t.inputs = []) ∧
      (∀ x later, s.inputs = x :: later →
        (∀ a, x.host = some a → t.inputs = { host := some a } :: later) ∧ (x.host = none → t.inputs = later))

/-- 60_exceptions.md R147: ABORT asserted while `BUSY` = 0 has no effect, whatever else happens at that boundary.
MODEL's choice: that the boundary right after a command's last event is one of these, also for an ABORT asserted while that event was in
progress (log 29). -/
def Obligations.AbortWhileIdleIsIgnored : Prop :=
  ∀ (s : State) (x : Inputs) (later : List Inputs), s.busy = false → s.aborting = false →
    step { s with inputs := { x with abort := true } :: later } =
      step { s with inputs := { x with abort := false } :: later }

/-! Whole-machine rules. -/

/-- The invariant holds after power-on, for `State.reset` and for every instance that is a configuration of the block. -/
def Obligations.PowerOnMeetsTheInvariant : Prop :=
  Inv State.reset ∧ ∀ p s, instantiate p = .next s → Inv s

/-- Every step keeps the invariant: with `BUSY` = 0 the block is idle with chip-select deasserted, the clock low and the guard free
(R42, R21, R27); with `BUSY` = 1 the sequencer stands at an index k inside the list of the latched command (R19, R29) and, unless an abort
sequence is in progress, guard, chip-select and clock are where its first k events leave them, data-out is at the last `DO` among them
(R22), `SR_OUT` is the byte loaded last shifted once for each bit done (R16), `BITCNT` counts those bits (R18), and `SR_IN` holds a value
once a byte is loaded; `BITCNT` stays 0 to 8 (R18); the pins stay distinct (R26). -/
def Obligations.EveryStepKeepsTheInvariant : Prop := ∀ s t : State, Inv s → step s = .next t → Inv t

/-- From a state that meets the invariant the block never gets stuck and never nests the guard: the only faults are host reads of
registers that hold no value (R88: "does not occur in any run of the rules"; R95, R141; 93 U16, U17, U20). -/
def Obligations.OnlyUnwrittenHostReadsFault : Prop :=
  ∀ (s : State) (f : Fault), Inv s → step s = .fault f →
    ∃ g r later, (∃ x, s.inputs = x :: later ∧ x.host = some ⟨g, .read r⟩) ∧
      ((r = 2#2 ∧ s.rdata = none ∧ f = .unwrittenRead .rdata) ∨
        (r = 3#2 ∧ s.linkver = none ∧ f = .unwrittenRead .linkver))

/-- `TRACE` and `SINKLOG` are written only by appending (10_state.md R36, R37), and a recorded fault is never cleared (R143), by any step,
RESET and ABORT included. -/
def Obligations.LogsOnlyGrow : Prop := ∀ s t : State, step s = .next t → Extends s t

/-- No step changes a parameter, `PINCFG` included (00_scope.md R8; 10_state.md R25, R43). -/
def Obligations.ParametersNeverChange : Prop := ∀ s t : State, step s = .next t → t.params = s.params

/-- 30_encoding.md R75: in a running command data-out changes only while the clock is low. -/
def Obligations.DataOutChangesOnlyWithClockLow : Prop :=
  ∀ s t : State, Inv s → s.busy = true → (∀ x later, s.inputs = x :: later → x.reset = false) →
    step s = .next t → t.mosi ≠ s.mosi → s.sclk = false ∧ t.sclk = false

/-- 10_state.md R42 and R27, 40_line_primitives.md R90, 42_register_access.md R113 and R117, 43_device_probe.md R128, after the first k events
of a running command: chip-select is asserted exactly inside each transaction's span and never by XFER, and the guard is held exactly
inside each byte transfer, free in the gap between two bytes and during every chip-select and recovery wait. `m` is the length of a
byte transfer, `2 * m + 4` that of a transaction. -/
def Obligations.ChipSelectAndGuardSpans : Prop :=
  ∀ (s : State) (c : Instr) (k m : Nat), Inv s → s.busy = true → s.aborting = false → s.phase = .run c k →
    m = (if s.params.capture = .sample then 58 else 50) →
    ((∃ b, c = .xfer b) → s.csN = true ∧ (s.guard = true ↔ 1 ≤ k ∧ k < m)) ∧
    ((∃ a v, c = .wrreg a v) ∨ (∃ a, c = .rdreg a) →
      (s.csN = false ↔ 1 ≤ k ∧ k < 2 * m + 3) ∧
      (s.guard = true ↔ (3 ≤ k ∧ k < m + 2) ∨ (m + 3 ≤ k ∧ k < 2 * m + 2))) ∧
    (c = .probe →
      (s.csN = false ↔ (1 ≤ k ∧ k < 2 * m + 3) ∨ (2 * m + 6 ≤ k ∧ k < 4 * m + 8)) ∧
      (s.guard = true ↔ (3 ≤ k ∧ k < m + 2) ∨ (m + 3 ≤ k ∧ k < 2 * m + 2) ∨ (2 * m + 8 ≤ k ∧ k < 3 * m + 7) ∨
        (3 * m + 8 ≤ k ∧ k < 4 * m + 7)))

/-- 70_reset_and_hazards.md R176 to R178: the least time of the event list each command records. -/
def Obligations.MinimumDurations : Prop :=
  ∀ (s : State), Ready s →
    (∀ b, ∃ t es, exec (.xfer b) s = .next t ∧ t.trace = s.trace ++ es ∧
      minMicros s.params es = 8 * (s.params.tBitSettle + 2 * s.params.tHalf)) ∧
    (∀ i, ((∃ a v, i = .wrreg a v) ∨ ∃ a, i = .rdreg a) → ∃ t es, exec i s = .next t ∧ t.trace = s.trace ++ es ∧
      minMicros s.params es =
        s.params.tCsLead + 2 * 8 * (s.params.tBitSettle + 2 * s.params.tHalf) + s.params.tCsTrail) ∧
    (∃ t es, exec .probe s = .next t ∧ t.trace = s.trace ++ es ∧
      minMicros s.params es =
        2 * (s.params.tCsLead + 2 * 8 * (s.params.tBitSettle + 2 * s.params.tHalf) + s.params.tCsTrail) +
          1000 * s.params.tResetRecovery)

/-- 10_state.md R20, 20_memory.md R56, for every step of a block whose port is empty, as it is from power-on and stays
(`NoStepFillsThePort`): unless RESET is asserted, whose sequence is one step (log 11), a step records one event or none, and none where a
write is accepted. No step of such a block runs a command whole. -/
def Obligations.AtMostOneEventPerStep : Prop :=
  ∀ s t : State, s.port = [] → (∀ x later, s.inputs = x :: later → x.reset = false) → step s = .next t →
    (t.trace = s.trace ∨ ∃ e, t.trace = s.trace ++ [e]) ∧
      (s.busy = false → s.aborting = false → t.trace = s.trace ∧ (t.busy = true → ∃ c, t.phase = .run c 0))

/-- The port is the model's own (log 1, log 6): at power-on it is empty, and no step, whatever the outside does at it, puts an
instruction into it. So every command of a run from power-on is one the host wrote to `CMD`. -/
def Obligations.NoStepFillsThePort : Prop :=
  (∀ p s, instantiate p = .next s → s.port = []) ∧ ∀ s t : State, step s = .next t → t.port <:+ s.port
end

