-- ==== Sys2Proof/Laws/Decode.lean ====
section
/-! SUPPORT. The fields of a command word, and decoding by fields. -/

namespace Sys2Proof

/-! A word built from fields has those fields, and one with no reserved bit set is built from its fields. -/

@[simp] theorem opField_cmdWord (op : BitVec 4) (a : Addr) (d : Byte) : opField (cmdWord op a d) = op := by
  ext i hi
  interval_cases i <;> simp [opField, cmdWord]

@[simp] theorem rsvField_cmdWord (op : BitVec 4) (a : Addr) (d : Byte) : rsvField (cmdWord op a d) = 0#5 := by
  ext i hi
  interval_cases i <;> simp [rsvField, cmdWord]

@[simp] theorem addrField_cmdWord (op : BitVec 4) (a : Addr) (d : Byte) : addrField (cmdWord op a d) = a := by
  ext i hi
  interval_cases i <;> simp [addrField, cmdWord]

@[simp] theorem dataField_cmdWord (op : BitVec 4) (a : Addr) (d : Byte) : dataField (cmdWord op a d) = d := by
  ext i hi
  interval_cases i <;> simp [dataField, cmdWord]

theorem cmdWord_fields {w : CmdWord} (h : rsvField w = 0#5) :
    cmdWord (opField w) (addrField w) (dataField w) = w := by
  have hb : ∀ i, i < 5 → w.getLsbD (15 + i) = false := by
    intro i hi
    have := congrArg (fun v => v.getLsbD i) h
    simpa [rsvField, hi] using this
  have h0 := hb 0 (by decide)
  have h1 := hb 1 (by decide)
  have h2 := hb 2 (by decide)
  have h3 := hb 3 (by decide)
  have h4 := hb 4 (by decide)
  simp only [BitVec.getLsbD_eq_getElem, Nat.reduceLT, Nat.reduceAdd] at h0 h1 h2 h3 h4
  ext i hi
  interval_cases i <;> simp [opField, addrField, dataField, cmdWord, h0, h1, h2, h3, h4]

/-- What decoding answers, by fields (30_encoding.md R63 to R66). -/
theorem decodeCmd_eq_ok {w : CmdWord} {i : Instr} :
    decodeCmd w = .ok i ↔ rsvField w = 0#5 ∧
      ((opField w = 0x1#4 ∧ addrField w = 0#7 ∧ i = .xfer (dataField w)) ∨
        (opField w = 0x2#4 ∧ i = .wrreg (addrField w) (dataField w)) ∨
        (opField w = 0x3#4 ∧ dataField w = 0#8 ∧ i = .rdreg (addrField w)) ∨
        (opField w = 0x4#4 ∧ addrField w = 0#7 ∧ dataField w = 0#8 ∧ i = .probe)) := by
  unfold decodeCmd
  repeat' split
  all_goals simp_all [eq_comm (b := i)]

end Sys2Proof
end

