-- ==== Sys2Proof/Laws/State.lean ====
section
/-! SUPPORT. One lemma per field per update of State: what each micro-operation leaves in every field. A proof that meets an
operation reads its fields here and unfolds no record update. -/

namespace Sys2Proof.Machine

/-! record -/

@[simp] theorem record_srOut (e : Event) (s : State) : (record e s).srOut = s.srOut := rfl
@[simp] theorem record_srIn (e : Event) (s : State) : (record e s).srIn = s.srIn := rfl
@[simp] theorem record_bitCnt (e : Event) (s : State) : (record e s).bitCnt = s.bitCnt := rfl
@[simp] theorem record_phase (e : Event) (s : State) : (record e s).phase = s.phase := rfl
@[simp] theorem record_busy (e : Event) (s : State) : (record e s).busy = s.busy := rfl
@[simp] theorem record_curCmd (e : Event) (s : State) : (record e s).curCmd = s.curCmd := rfl
@[simp] theorem record_aborting (e : Event) (s : State) : (record e s).aborting = s.aborting := rfl
@[simp] theorem record_sclk (e : Event) (s : State) : (record e s).sclk = s.sclk := rfl
@[simp] theorem record_mosi (e : Event) (s : State) : (record e s).mosi = s.mosi := rfl
@[simp] theorem record_csN (e : Event) (s : State) : (record e s).csN = s.csN := rfl
@[simp] theorem record_guard (e : Event) (s : State) : (record e s).guard = s.guard := rfl
@[simp] theorem record_rdata (e : Event) (s : State) : (record e s).rdata = s.rdata := rfl
@[simp] theorem record_link (e : Event) (s : State) : (record e s).link = s.link := rfl
@[simp] theorem record_illegal (e : Event) (s : State) : (record e s).illegal = s.illegal := rfl
@[simp] theorem record_aborted (e : Event) (s : State) : (record e s).aborted = s.aborted := rfl
@[simp] theorem record_trace (e : Event) (s : State) : (record e s).trace = s.trace ++ [e] := rfl
@[simp] theorem record_sinkLog (e : Event) (s : State) : (record e s).sinkLog = s.sinkLog := rfl
@[simp] theorem record_illegalLog (e : Event) (s : State) : (record e s).illegalLog = s.illegalLog := rfl
@[simp] theorem record_held (e : Event) (s : State) : (record e s).held = s.held := rfl
@[simp] theorem record_params (e : Event) (s : State) : (record e s).params = s.params := rfl
@[simp] theorem record_inputs (e : Event) (s : State) : (record e s).inputs = s.inputs := rfl
@[simp] theorem record_misoIn (e : Event) (s : State) : (record e s).misoIn = s.misoIn := rfl
@[simp] theorem record_draws (e : Event) (s : State) : (record e s).draws = s.draws := rfl
@[simp] theorem record_picks (e : Event) (s : State) : (record e s).picks = s.picks := rfl
@[simp] theorem record_hostData (e : Event) (s : State) : (record e s).hostData = s.hostData := rfl
@[simp] theorem record_port (e : Event) (s : State) : (record e s).port = s.port := rfl

/-! setChipSelect -/

@[simp] theorem setChipSelect_srOut (l : Level) (s : State) : (setChipSelect l s).srOut = s.srOut := rfl
@[simp] theorem setChipSelect_srIn (l : Level) (s : State) : (setChipSelect l s).srIn = s.srIn := rfl
@[simp] theorem setChipSelect_bitCnt (l : Level) (s : State) : (setChipSelect l s).bitCnt = s.bitCnt := rfl
@[simp] theorem setChipSelect_phase (l : Level) (s : State) : (setChipSelect l s).phase = s.phase := rfl
@[simp] theorem setChipSelect_busy (l : Level) (s : State) : (setChipSelect l s).busy = s.busy := rfl
@[simp] theorem setChipSelect_curCmd (l : Level) (s : State) : (setChipSelect l s).curCmd = s.curCmd := rfl
@[simp] theorem setChipSelect_aborting (l : Level) (s : State) : (setChipSelect l s).aborting = s.aborting := rfl
@[simp] theorem setChipSelect_sclk (l : Level) (s : State) : (setChipSelect l s).sclk = s.sclk := rfl
@[simp] theorem setChipSelect_mosi (l : Level) (s : State) : (setChipSelect l s).mosi = s.mosi := rfl
@[simp] theorem setChipSelect_csN (l : Level) (s : State) : (setChipSelect l s).csN = l := rfl
@[simp] theorem setChipSelect_guard (l : Level) (s : State) : (setChipSelect l s).guard = s.guard := rfl
@[simp] theorem setChipSelect_rdata (l : Level) (s : State) : (setChipSelect l s).rdata = s.rdata := rfl
@[simp] theorem setChipSelect_link (l : Level) (s : State) : (setChipSelect l s).link = s.link := rfl
@[simp] theorem setChipSelect_illegal (l : Level) (s : State) : (setChipSelect l s).illegal = s.illegal := rfl
@[simp] theorem setChipSelect_aborted (l : Level) (s : State) : (setChipSelect l s).aborted = s.aborted := rfl
@[simp] theorem setChipSelect_trace (l : Level) (s : State) : (setChipSelect l s).trace = s.trace ++ [.cs l] := rfl
@[simp] theorem setChipSelect_sinkLog (l : Level) (s : State) : (setChipSelect l s).sinkLog = s.sinkLog := rfl
@[simp] theorem setChipSelect_illegalLog (l : Level) (s : State) : (setChipSelect l s).illegalLog = s.illegalLog := rfl
@[simp] theorem setChipSelect_held (l : Level) (s : State) : (setChipSelect l s).held = s.held := rfl
@[simp] theorem setChipSelect_params (l : Level) (s : State) : (setChipSelect l s).params = s.params := rfl
@[simp] theorem setChipSelect_inputs (l : Level) (s : State) : (setChipSelect l s).inputs = s.inputs := rfl
@[simp] theorem setChipSelect_misoIn (l : Level) (s : State) : (setChipSelect l s).misoIn = s.misoIn := rfl
@[simp] theorem setChipSelect_draws (l : Level) (s : State) : (setChipSelect l s).draws = s.draws := rfl
@[simp] theorem setChipSelect_picks (l : Level) (s : State) : (setChipSelect l s).picks = s.picks := rfl
@[simp] theorem setChipSelect_hostData (l : Level) (s : State) : (setChipSelect l s).hostData = s.hostData := rfl
@[simp] theorem setChipSelect_port (l : Level) (s : State) : (setChipSelect l s).port = s.port := rfl

/-! setDataOut -/

@[simp] theorem setDataOut_srOut (l : Level) (s : State) : (setDataOut l s).srOut = s.srOut := rfl
@[simp] theorem setDataOut_srIn (l : Level) (s : State) : (setDataOut l s).srIn = s.srIn := rfl
@[simp] theorem setDataOut_bitCnt (l : Level) (s : State) : (setDataOut l s).bitCnt = s.bitCnt := rfl
@[simp] theorem setDataOut_phase (l : Level) (s : State) : (setDataOut l s).phase = s.phase := rfl
@[simp] theorem setDataOut_busy (l : Level) (s : State) : (setDataOut l s).busy = s.busy := rfl
@[simp] theorem setDataOut_curCmd (l : Level) (s : State) : (setDataOut l s).curCmd = s.curCmd := rfl
@[simp] theorem setDataOut_aborting (l : Level) (s : State) : (setDataOut l s).aborting = s.aborting := rfl
@[simp] theorem setDataOut_sclk (l : Level) (s : State) : (setDataOut l s).sclk = s.sclk := rfl
@[simp] theorem setDataOut_mosi (l : Level) (s : State) : (setDataOut l s).mosi = l := rfl
@[simp] theorem setDataOut_csN (l : Level) (s : State) : (setDataOut l s).csN = s.csN := rfl
@[simp] theorem setDataOut_guard (l : Level) (s : State) : (setDataOut l s).guard = s.guard := rfl
@[simp] theorem setDataOut_rdata (l : Level) (s : State) : (setDataOut l s).rdata = s.rdata := rfl
@[simp] theorem setDataOut_link (l : Level) (s : State) : (setDataOut l s).link = s.link := rfl
@[simp] theorem setDataOut_illegal (l : Level) (s : State) : (setDataOut l s).illegal = s.illegal := rfl
@[simp] theorem setDataOut_aborted (l : Level) (s : State) : (setDataOut l s).aborted = s.aborted := rfl
@[simp] theorem setDataOut_trace (l : Level) (s : State) : (setDataOut l s).trace = s.trace ++ [.dout l] := rfl
@[simp] theorem setDataOut_sinkLog (l : Level) (s : State) : (setDataOut l s).sinkLog = s.sinkLog := rfl
@[simp] theorem setDataOut_illegalLog (l : Level) (s : State) : (setDataOut l s).illegalLog = s.illegalLog := rfl
@[simp] theorem setDataOut_held (l : Level) (s : State) : (setDataOut l s).held = s.held := rfl
@[simp] theorem setDataOut_params (l : Level) (s : State) : (setDataOut l s).params = s.params := rfl
@[simp] theorem setDataOut_inputs (l : Level) (s : State) : (setDataOut l s).inputs = s.inputs := rfl
@[simp] theorem setDataOut_misoIn (l : Level) (s : State) : (setDataOut l s).misoIn = s.misoIn := rfl
@[simp] theorem setDataOut_draws (l : Level) (s : State) : (setDataOut l s).draws = s.draws := rfl
@[simp] theorem setDataOut_picks (l : Level) (s : State) : (setDataOut l s).picks = s.picks := rfl
@[simp] theorem setDataOut_hostData (l : Level) (s : State) : (setDataOut l s).hostData = s.hostData := rfl
@[simp] theorem setDataOut_port (l : Level) (s : State) : (setDataOut l s).port = s.port := rfl

/-! setClock -/

@[simp] theorem setClock_srOut (l : Level) (s : State) : (setClock l s).srOut = s.srOut := rfl
@[simp] theorem setClock_srIn (l : Level) (s : State) : (setClock l s).srIn = s.srIn := rfl
@[simp] theorem setClock_bitCnt (l : Level) (s : State) : (setClock l s).bitCnt = s.bitCnt := rfl
@[simp] theorem setClock_phase (l : Level) (s : State) : (setClock l s).phase = s.phase := rfl
@[simp] theorem setClock_busy (l : Level) (s : State) : (setClock l s).busy = s.busy := rfl
@[simp] theorem setClock_curCmd (l : Level) (s : State) : (setClock l s).curCmd = s.curCmd := rfl
@[simp] theorem setClock_aborting (l : Level) (s : State) : (setClock l s).aborting = s.aborting := rfl
@[simp] theorem setClock_sclk (l : Level) (s : State) : (setClock l s).sclk = l := rfl
@[simp] theorem setClock_mosi (l : Level) (s : State) : (setClock l s).mosi = s.mosi := rfl
@[simp] theorem setClock_csN (l : Level) (s : State) : (setClock l s).csN = s.csN := rfl
@[simp] theorem setClock_guard (l : Level) (s : State) : (setClock l s).guard = s.guard := rfl
@[simp] theorem setClock_rdata (l : Level) (s : State) : (setClock l s).rdata = s.rdata := rfl
@[simp] theorem setClock_link (l : Level) (s : State) : (setClock l s).link = s.link := rfl
@[simp] theorem setClock_illegal (l : Level) (s : State) : (setClock l s).illegal = s.illegal := rfl
@[simp] theorem setClock_aborted (l : Level) (s : State) : (setClock l s).aborted = s.aborted := rfl
@[simp] theorem setClock_trace (l : Level) (s : State) : (setClock l s).trace = s.trace ++ [.ck l] := rfl
@[simp] theorem setClock_sinkLog (l : Level) (s : State) : (setClock l s).sinkLog = s.sinkLog := rfl
@[simp] theorem setClock_illegalLog (l : Level) (s : State) : (setClock l s).illegalLog = s.illegalLog := rfl
@[simp] theorem setClock_held (l : Level) (s : State) : (setClock l s).held = s.held := rfl
@[simp] theorem setClock_params (l : Level) (s : State) : (setClock l s).params = s.params := rfl
@[simp] theorem setClock_inputs (l : Level) (s : State) : (setClock l s).inputs = s.inputs := rfl
@[simp] theorem setClock_misoIn (l : Level) (s : State) : (setClock l s).misoIn = s.misoIn := rfl
@[simp] theorem setClock_draws (l : Level) (s : State) : (setClock l s).draws = s.draws := rfl
@[simp] theorem setClock_picks (l : Level) (s : State) : (setClock l s).picks = s.picks := rfl
@[simp] theorem setClock_hostData (l : Level) (s : State) : (setClock l s).hostData = s.hostData := rfl
@[simp] theorem setClock_port (l : Level) (s : State) : (setClock l s).port = s.port := rfl

/-! busyWait -/

@[simp] theorem busyWait_srOut (k : WaitKind) (s : State) : (busyWait k s).srOut = s.srOut := rfl
@[simp] theorem busyWait_srIn (k : WaitKind) (s : State) : (busyWait k s).srIn = s.srIn := rfl
@[simp] theorem busyWait_bitCnt (k : WaitKind) (s : State) : (busyWait k s).bitCnt = s.bitCnt := rfl
@[simp] theorem busyWait_phase (k : WaitKind) (s : State) : (busyWait k s).phase = s.phase := rfl
@[simp] theorem busyWait_busy (k : WaitKind) (s : State) : (busyWait k s).busy = s.busy := rfl
@[simp] theorem busyWait_curCmd (k : WaitKind) (s : State) : (busyWait k s).curCmd = s.curCmd := rfl
@[simp] theorem busyWait_aborting (k : WaitKind) (s : State) : (busyWait k s).aborting = s.aborting := rfl
@[simp] theorem busyWait_sclk (k : WaitKind) (s : State) : (busyWait k s).sclk = s.sclk := rfl
@[simp] theorem busyWait_mosi (k : WaitKind) (s : State) : (busyWait k s).mosi = s.mosi := rfl
@[simp] theorem busyWait_csN (k : WaitKind) (s : State) : (busyWait k s).csN = s.csN := rfl
@[simp] theorem busyWait_guard (k : WaitKind) (s : State) : (busyWait k s).guard = s.guard := rfl
@[simp] theorem busyWait_rdata (k : WaitKind) (s : State) : (busyWait k s).rdata = s.rdata := rfl
@[simp] theorem busyWait_link (k : WaitKind) (s : State) : (busyWait k s).link = s.link := rfl
@[simp] theorem busyWait_illegal (k : WaitKind) (s : State) : (busyWait k s).illegal = s.illegal := rfl
@[simp] theorem busyWait_aborted (k : WaitKind) (s : State) : (busyWait k s).aborted = s.aborted := rfl
@[simp] theorem busyWait_trace (k : WaitKind) (s : State) : (busyWait k s).trace = s.trace ++ [.wait k] := rfl
@[simp] theorem busyWait_sinkLog (k : WaitKind) (s : State) : (busyWait k s).sinkLog = s.sinkLog := rfl
@[simp] theorem busyWait_illegalLog (k : WaitKind) (s : State) : (busyWait k s).illegalLog = s.illegalLog := rfl
@[simp] theorem busyWait_held (k : WaitKind) (s : State) : (busyWait k s).held = s.held := rfl
@[simp] theorem busyWait_params (k : WaitKind) (s : State) : (busyWait k s).params = s.params := rfl
@[simp] theorem busyWait_inputs (k : WaitKind) (s : State) : (busyWait k s).inputs = s.inputs := rfl
@[simp] theorem busyWait_misoIn (k : WaitKind) (s : State) : (busyWait k s).misoIn = s.misoIn := rfl
@[simp] theorem busyWait_draws (k : WaitKind) (s : State) : (busyWait k s).draws = s.draws := rfl
@[simp] theorem busyWait_picks (k : WaitKind) (s : State) : (busyWait k s).picks = s.picks := rfl
@[simp] theorem busyWait_hostData (k : WaitKind) (s : State) : (busyWait k s).hostData = s.hostData := rfl
@[simp] theorem busyWait_port (k : WaitKind) (s : State) : (busyWait k s).port = s.port := rfl

/-! guardRelease -/

@[simp] theorem guardRelease_srOut (s : State) : (guardRelease s).srOut = s.srOut := rfl
@[simp] theorem guardRelease_srIn (s : State) : (guardRelease s).srIn = s.srIn := rfl
@[simp] theorem guardRelease_bitCnt (s : State) : (guardRelease s).bitCnt = s.bitCnt := rfl
@[simp] theorem guardRelease_phase (s : State) : (guardRelease s).phase = s.phase := rfl
@[simp] theorem guardRelease_busy (s : State) : (guardRelease s).busy = s.busy := rfl
@[simp] theorem guardRelease_curCmd (s : State) : (guardRelease s).curCmd = s.curCmd := rfl
@[simp] theorem guardRelease_aborting (s : State) : (guardRelease s).aborting = s.aborting := rfl
@[simp] theorem guardRelease_sclk (s : State) : (guardRelease s).sclk = s.sclk := rfl
@[simp] theorem guardRelease_mosi (s : State) : (guardRelease s).mosi = s.mosi := rfl
@[simp] theorem guardRelease_csN (s : State) : (guardRelease s).csN = s.csN := rfl
@[simp] theorem guardRelease_guard (s : State) : (guardRelease s).guard = false := rfl
@[simp] theorem guardRelease_rdata (s : State) : (guardRelease s).rdata = s.rdata := rfl
@[simp] theorem guardRelease_link (s : State) : (guardRelease s).link = s.link := rfl
@[simp] theorem guardRelease_illegal (s : State) : (guardRelease s).illegal = s.illegal := rfl
@[simp] theorem guardRelease_aborted (s : State) : (guardRelease s).aborted = s.aborted := rfl
@[simp] theorem guardRelease_trace (s : State) : (guardRelease s).trace = s.trace ++ [.guardRel] := rfl
@[simp] theorem guardRelease_sinkLog (s : State) : (guardRelease s).sinkLog = s.sinkLog := rfl
@[simp] theorem guardRelease_illegalLog (s : State) : (guardRelease s).illegalLog = s.illegalLog := rfl
@[simp] theorem guardRelease_held (s : State) : (guardRelease s).held = s.held := rfl
@[simp] theorem guardRelease_params (s : State) : (guardRelease s).params = s.params := rfl
@[simp] theorem guardRelease_inputs (s : State) : (guardRelease s).inputs = s.inputs := rfl
@[simp] theorem guardRelease_misoIn (s : State) : (guardRelease s).misoIn = s.misoIn := rfl
@[simp] theorem guardRelease_draws (s : State) : (guardRelease s).draws = s.draws := rfl
@[simp] theorem guardRelease_picks (s : State) : (guardRelease s).picks = s.picks := rfl
@[simp] theorem guardRelease_hostData (s : State) : (guardRelease s).hostData = s.hostData := rfl
@[simp] theorem guardRelease_port (s : State) : (guardRelease s).port = s.port := rfl

/-! sinkRecord -/

@[simp] theorem sinkRecord_srOut (t : String) (v : Verdict) (s : State) : (sinkRecord t v s).srOut = s.srOut := rfl
@[simp] theorem sinkRecord_srIn (t : String) (v : Verdict) (s : State) : (sinkRecord t v s).srIn = s.srIn := rfl
@[simp] theorem sinkRecord_bitCnt (t : String) (v : Verdict) (s : State) : (sinkRecord t v s).bitCnt = s.bitCnt := rfl
@[simp] theorem sinkRecord_phase (t : String) (v : Verdict) (s : State) : (sinkRecord t v s).phase = s.phase := rfl
@[simp] theorem sinkRecord_busy (t : String) (v : Verdict) (s : State) : (sinkRecord t v s).busy = s.busy := rfl
@[simp] theorem sinkRecord_curCmd (t : String) (v : Verdict) (s : State) : (sinkRecord t v s).curCmd = s.curCmd := rfl
@[simp] theorem sinkRecord_aborting (t : String) (v : Verdict) (s : State) : (sinkRecord t v s).aborting = s.aborting := rfl
@[simp] theorem sinkRecord_sclk (t : String) (v : Verdict) (s : State) : (sinkRecord t v s).sclk = s.sclk := rfl
@[simp] theorem sinkRecord_mosi (t : String) (v : Verdict) (s : State) : (sinkRecord t v s).mosi = s.mosi := rfl
@[simp] theorem sinkRecord_csN (t : String) (v : Verdict) (s : State) : (sinkRecord t v s).csN = s.csN := rfl
@[simp] theorem sinkRecord_guard (t : String) (v : Verdict) (s : State) : (sinkRecord t v s).guard = s.guard := rfl
@[simp] theorem sinkRecord_rdata (t : String) (v : Verdict) (s : State) : (sinkRecord t v s).rdata = s.rdata := rfl
@[simp] theorem sinkRecord_link (t : String) (v : Verdict) (s : State) : (sinkRecord t v s).link = s.link := rfl
@[simp] theorem sinkRecord_illegal (t : String) (v : Verdict) (s : State) : (sinkRecord t v s).illegal = s.illegal := rfl
@[simp] theorem sinkRecord_aborted (t : String) (v : Verdict) (s : State) : (sinkRecord t v s).aborted = s.aborted := rfl
@[simp] theorem sinkRecord_trace (t : String) (v : Verdict) (s : State) : (sinkRecord t v s).trace = s.trace ++ [.sink t v] := rfl
@[simp] theorem sinkRecord_sinkLog (t : String) (v : Verdict) (s : State) : (sinkRecord t v s).sinkLog = s.sinkLog ++ [⟨t, v⟩] := rfl
@[simp] theorem sinkRecord_illegalLog (t : String) (v : Verdict) (s : State) : (sinkRecord t v s).illegalLog = s.illegalLog := rfl
@[simp] theorem sinkRecord_held (t : String) (v : Verdict) (s : State) : (sinkRecord t v s).held = s.held := rfl
@[simp] theorem sinkRecord_params (t : String) (v : Verdict) (s : State) : (sinkRecord t v s).params = s.params := rfl
@[simp] theorem sinkRecord_inputs (t : String) (v : Verdict) (s : State) : (sinkRecord t v s).inputs = s.inputs := rfl
@[simp] theorem sinkRecord_misoIn (t : String) (v : Verdict) (s : State) : (sinkRecord t v s).misoIn = s.misoIn := rfl
@[simp] theorem sinkRecord_draws (t : String) (v : Verdict) (s : State) : (sinkRecord t v s).draws = s.draws := rfl
@[simp] theorem sinkRecord_picks (t : String) (v : Verdict) (s : State) : (sinkRecord t v s).picks = s.picks := rfl
@[simp] theorem sinkRecord_hostData (t : String) (v : Verdict) (s : State) : (sinkRecord t v s).hostData = s.hostData := rfl
@[simp] theorem sinkRecord_port (t : String) (v : Verdict) (s : State) : (sinkRecord t v s).port = s.port := rfl

/-! loadByte -/

@[simp] theorem loadByte_srOut (b : Byte) (s : State) : (loadByte b s).srOut = some b := rfl
@[simp] theorem loadByte_srIn (b : Byte) (s : State) : (loadByte b s).srIn = some 0x00#8 := rfl
@[simp] theorem loadByte_bitCnt (b : Byte) (s : State) : (loadByte b s).bitCnt = some 0 := rfl
@[simp] theorem loadByte_phase (b : Byte) (s : State) : (loadByte b s).phase = s.phase := rfl
@[simp] theorem loadByte_busy (b : Byte) (s : State) : (loadByte b s).busy = s.busy := rfl
@[simp] theorem loadByte_curCmd (b : Byte) (s : State) : (loadByte b s).curCmd = s.curCmd := rfl
@[simp] theorem loadByte_aborting (b : Byte) (s : State) : (loadByte b s).aborting = s.aborting := rfl
@[simp] theorem loadByte_sclk (b : Byte) (s : State) : (loadByte b s).sclk = s.sclk := rfl
@[simp] theorem loadByte_mosi (b : Byte) (s : State) : (loadByte b s).mosi = s.mosi := rfl
@[simp] theorem loadByte_csN (b : Byte) (s : State) : (loadByte b s).csN = s.csN := rfl
@[simp] theorem loadByte_guard (b : Byte) (s : State) : (loadByte b s).guard = s.guard := rfl
@[simp] theorem loadByte_rdata (b : Byte) (s : State) : (loadByte b s).rdata = s.rdata := rfl
@[simp] theorem loadByte_link (b : Byte) (s : State) : (loadByte b s).link = s.link := rfl
@[simp] theorem loadByte_illegal (b : Byte) (s : State) : (loadByte b s).illegal = s.illegal := rfl
@[simp] theorem loadByte_aborted (b : Byte) (s : State) : (loadByte b s).aborted = s.aborted := rfl
@[simp] theorem loadByte_trace (b : Byte) (s : State) : (loadByte b s).trace = s.trace := rfl
@[simp] theorem loadByte_sinkLog (b : Byte) (s : State) : (loadByte b s).sinkLog = s.sinkLog := rfl
@[simp] theorem loadByte_illegalLog (b : Byte) (s : State) : (loadByte b s).illegalLog = s.illegalLog := rfl
@[simp] theorem loadByte_held (b : Byte) (s : State) : (loadByte b s).held = s.held := rfl
@[simp] theorem loadByte_params (b : Byte) (s : State) : (loadByte b s).params = s.params := rfl
@[simp] theorem loadByte_inputs (b : Byte) (s : State) : (loadByte b s).inputs = s.inputs := rfl
@[simp] theorem loadByte_misoIn (b : Byte) (s : State) : (loadByte b s).misoIn = s.misoIn := rfl
@[simp] theorem loadByte_draws (b : Byte) (s : State) : (loadByte b s).draws = s.draws := rfl
@[simp] theorem loadByte_picks (b : Byte) (s : State) : (loadByte b s).picks = s.picks := rfl
@[simp] theorem loadByte_hostData (b : Byte) (s : State) : (loadByte b s).hostData = s.hostData := rfl
@[simp] theorem loadByte_port (b : Byte) (s : State) : (loadByte b s).port = s.port := rfl

/-! linkReset -/

@[simp] theorem linkReset_srOut (s : State) : (linkReset s).srOut = s.srOut := rfl
@[simp] theorem linkReset_srIn (s : State) : (linkReset s).srIn = s.srIn := rfl
@[simp] theorem linkReset_bitCnt (s : State) : (linkReset s).bitCnt = s.bitCnt := rfl
@[simp] theorem linkReset_phase (s : State) : (linkReset s).phase = s.phase := rfl
@[simp] theorem linkReset_busy (s : State) : (linkReset s).busy = s.busy := rfl
@[simp] theorem linkReset_curCmd (s : State) : (linkReset s).curCmd = s.curCmd := rfl
@[simp] theorem linkReset_aborting (s : State) : (linkReset s).aborting = s.aborting := rfl
@[simp] theorem linkReset_sclk (s : State) : (linkReset s).sclk = s.sclk := rfl
@[simp] theorem linkReset_mosi (s : State) : (linkReset s).mosi = s.mosi := rfl
@[simp] theorem linkReset_csN (s : State) : (linkReset s).csN = s.csN := rfl
@[simp] theorem linkReset_guard (s : State) : (linkReset s).guard = s.guard := rfl
@[simp] theorem linkReset_rdata (s : State) : (linkReset s).rdata = s.rdata := rfl
@[simp] theorem linkReset_link (s : State) : (linkReset s).link = .resetIssued := rfl
@[simp] theorem linkReset_illegal (s : State) : (linkReset s).illegal = s.illegal := rfl
@[simp] theorem linkReset_aborted (s : State) : (linkReset s).aborted = s.aborted := rfl
@[simp] theorem linkReset_trace (s : State) : (linkReset s).trace = s.trace := rfl
@[simp] theorem linkReset_sinkLog (s : State) : (linkReset s).sinkLog = s.sinkLog := rfl
@[simp] theorem linkReset_illegalLog (s : State) : (linkReset s).illegalLog = s.illegalLog := rfl
@[simp] theorem linkReset_held (s : State) : (linkReset s).held = s.held := rfl
@[simp] theorem linkReset_params (s : State) : (linkReset s).params = s.params := rfl
@[simp] theorem linkReset_inputs (s : State) : (linkReset s).inputs = s.inputs := rfl
@[simp] theorem linkReset_misoIn (s : State) : (linkReset s).misoIn = s.misoIn := rfl
@[simp] theorem linkReset_draws (s : State) : (linkReset s).draws = s.draws := rfl
@[simp] theorem linkReset_picks (s : State) : (linkReset s).picks = s.picks := rfl
@[simp] theorem linkReset_hostData (s : State) : (linkReset s).hostData = s.hostData := rfl
@[simp] theorem linkReset_port (s : State) : (linkReset s).port = s.port := rfl

/-! accept -/

@[simp] theorem accept_srOut (i : Instr) (w : CmdWord) (s : State) : (accept i w s).srOut = s.srOut := rfl
@[simp] theorem accept_srIn (i : Instr) (w : CmdWord) (s : State) : (accept i w s).srIn = s.srIn := rfl
@[simp] theorem accept_bitCnt (i : Instr) (w : CmdWord) (s : State) : (accept i w s).bitCnt = s.bitCnt := rfl
@[simp] theorem accept_phase (i : Instr) (w : CmdWord) (s : State) : (accept i w s).phase = .run i 0 := rfl
@[simp] theorem accept_busy (i : Instr) (w : CmdWord) (s : State) : (accept i w s).busy = true := rfl
@[simp] theorem accept_curCmd (i : Instr) (w : CmdWord) (s : State) : (accept i w s).curCmd = some w := rfl
@[simp] theorem accept_aborting (i : Instr) (w : CmdWord) (s : State) : (accept i w s).aborting = s.aborting := rfl
@[simp] theorem accept_sclk (i : Instr) (w : CmdWord) (s : State) : (accept i w s).sclk = s.sclk := rfl
@[simp] theorem accept_mosi (i : Instr) (w : CmdWord) (s : State) : (accept i w s).mosi = s.mosi := rfl
@[simp] theorem accept_csN (i : Instr) (w : CmdWord) (s : State) : (accept i w s).csN = s.csN := rfl
@[simp] theorem accept_guard (i : Instr) (w : CmdWord) (s : State) : (accept i w s).guard = s.guard := rfl
@[simp] theorem accept_rdata (i : Instr) (w : CmdWord) (s : State) : (accept i w s).rdata = if clearsResult i then none else s.rdata := rfl
@[simp] theorem accept_link (i : Instr) (w : CmdWord) (s : State) : (accept i w s).link = s.link := rfl
@[simp] theorem accept_illegal (i : Instr) (w : CmdWord) (s : State) : (accept i w s).illegal = s.illegal := rfl
@[simp] theorem accept_aborted (i : Instr) (w : CmdWord) (s : State) : (accept i w s).aborted = s.aborted := rfl
@[simp] theorem accept_trace (i : Instr) (w : CmdWord) (s : State) : (accept i w s).trace = s.trace := rfl
@[simp] theorem accept_sinkLog (i : Instr) (w : CmdWord) (s : State) : (accept i w s).sinkLog = s.sinkLog := rfl
@[simp] theorem accept_illegalLog (i : Instr) (w : CmdWord) (s : State) : (accept i w s).illegalLog = s.illegalLog := rfl
@[simp] theorem accept_held (i : Instr) (w : CmdWord) (s : State) : (accept i w s).held = s.held := rfl
@[simp] theorem accept_params (i : Instr) (w : CmdWord) (s : State) : (accept i w s).params = s.params := rfl
@[simp] theorem accept_inputs (i : Instr) (w : CmdWord) (s : State) : (accept i w s).inputs = s.inputs := rfl
@[simp] theorem accept_misoIn (i : Instr) (w : CmdWord) (s : State) : (accept i w s).misoIn = s.misoIn := rfl
@[simp] theorem accept_draws (i : Instr) (w : CmdWord) (s : State) : (accept i w s).draws = s.draws := rfl
@[simp] theorem accept_picks (i : Instr) (w : CmdWord) (s : State) : (accept i w s).picks = s.picks := rfl
@[simp] theorem accept_hostData (i : Instr) (w : CmdWord) (s : State) : (accept i w s).hostData = s.hostData := rfl
@[simp] theorem accept_port (i : Instr) (w : CmdWord) (s : State) : (accept i w s).port = s.port := rfl

/-! finish -/

@[simp] theorem finish_srOut (s : State) : (finish s).srOut = s.srOut := rfl
@[simp] theorem finish_srIn (s : State) : (finish s).srIn = s.srIn := rfl
@[simp] theorem finish_bitCnt (s : State) : (finish s).bitCnt = s.bitCnt := rfl
@[simp] theorem finish_phase (s : State) : (finish s).phase = .idle := rfl
@[simp] theorem finish_busy (s : State) : (finish s).busy = false := rfl
@[simp] theorem finish_curCmd (s : State) : (finish s).curCmd = s.curCmd := rfl
@[simp] theorem finish_aborting (s : State) : (finish s).aborting = s.aborting := rfl
@[simp] theorem finish_sclk (s : State) : (finish s).sclk = s.sclk := rfl
@[simp] theorem finish_mosi (s : State) : (finish s).mosi = s.mosi := rfl
@[simp] theorem finish_csN (s : State) : (finish s).csN = s.csN := rfl
@[simp] theorem finish_guard (s : State) : (finish s).guard = s.guard := rfl
@[simp] theorem finish_rdata (s : State) : (finish s).rdata = s.rdata := rfl
@[simp] theorem finish_link (s : State) : (finish s).link = s.link := rfl
@[simp] theorem finish_illegal (s : State) : (finish s).illegal = s.illegal := rfl
@[simp] theorem finish_aborted (s : State) : (finish s).aborted = s.aborted := rfl
@[simp] theorem finish_trace (s : State) : (finish s).trace = s.trace := rfl
@[simp] theorem finish_sinkLog (s : State) : (finish s).sinkLog = s.sinkLog := rfl
@[simp] theorem finish_illegalLog (s : State) : (finish s).illegalLog = s.illegalLog := rfl
@[simp] theorem finish_held (s : State) : (finish s).held = s.held := rfl
@[simp] theorem finish_params (s : State) : (finish s).params = s.params := rfl
@[simp] theorem finish_inputs (s : State) : (finish s).inputs = s.inputs := rfl
@[simp] theorem finish_misoIn (s : State) : (finish s).misoIn = s.misoIn := rfl
@[simp] theorem finish_draws (s : State) : (finish s).draws = s.draws := rfl
@[simp] theorem finish_picks (s : State) : (finish s).picks = s.picks := rfl
@[simp] theorem finish_hostData (s : State) : (finish s).hostData = s.hostData := rfl
@[simp] theorem finish_port (s : State) : (finish s).port = s.port := rfl

/-! raiseIllegal -/

@[simp] theorem raiseIllegal_srOut (w : CmdWord) (s : State) : (raiseIllegal w s).srOut = s.srOut := rfl
@[simp] theorem raiseIllegal_srIn (w : CmdWord) (s : State) : (raiseIllegal w s).srIn = s.srIn := rfl
@[simp] theorem raiseIllegal_bitCnt (w : CmdWord) (s : State) : (raiseIllegal w s).bitCnt = s.bitCnt := rfl
@[simp] theorem raiseIllegal_phase (w : CmdWord) (s : State) : (raiseIllegal w s).phase = s.phase := rfl
@[simp] theorem raiseIllegal_busy (w : CmdWord) (s : State) : (raiseIllegal w s).busy = s.busy := rfl
@[simp] theorem raiseIllegal_curCmd (w : CmdWord) (s : State) : (raiseIllegal w s).curCmd = s.curCmd := rfl
@[simp] theorem raiseIllegal_aborting (w : CmdWord) (s : State) : (raiseIllegal w s).aborting = s.aborting := rfl
@[simp] theorem raiseIllegal_sclk (w : CmdWord) (s : State) : (raiseIllegal w s).sclk = s.sclk := rfl
@[simp] theorem raiseIllegal_mosi (w : CmdWord) (s : State) : (raiseIllegal w s).mosi = s.mosi := rfl
@[simp] theorem raiseIllegal_csN (w : CmdWord) (s : State) : (raiseIllegal w s).csN = s.csN := rfl
@[simp] theorem raiseIllegal_guard (w : CmdWord) (s : State) : (raiseIllegal w s).guard = s.guard := rfl
@[simp] theorem raiseIllegal_rdata (w : CmdWord) (s : State) : (raiseIllegal w s).rdata = s.rdata := rfl
@[simp] theorem raiseIllegal_link (w : CmdWord) (s : State) : (raiseIllegal w s).link = s.link := rfl
@[simp] theorem raiseIllegal_illegal (w : CmdWord) (s : State) : (raiseIllegal w s).illegal = true := rfl
@[simp] theorem raiseIllegal_aborted (w : CmdWord) (s : State) : (raiseIllegal w s).aborted = s.aborted := rfl
@[simp] theorem raiseIllegal_trace (w : CmdWord) (s : State) : (raiseIllegal w s).trace = s.trace := rfl
@[simp] theorem raiseIllegal_sinkLog (w : CmdWord) (s : State) : (raiseIllegal w s).sinkLog = s.sinkLog := rfl
@[simp] theorem raiseIllegal_illegalLog (w : CmdWord) (s : State) : (raiseIllegal w s).illegalLog = s.illegalLog ++ [w] := rfl
@[simp] theorem raiseIllegal_held (w : CmdWord) (s : State) : (raiseIllegal w s).held = s.held := rfl
@[simp] theorem raiseIllegal_params (w : CmdWord) (s : State) : (raiseIllegal w s).params = s.params := rfl
@[simp] theorem raiseIllegal_inputs (w : CmdWord) (s : State) : (raiseIllegal w s).inputs = s.inputs := rfl
@[simp] theorem raiseIllegal_misoIn (w : CmdWord) (s : State) : (raiseIllegal w s).misoIn = s.misoIn := rfl
@[simp] theorem raiseIllegal_draws (w : CmdWord) (s : State) : (raiseIllegal w s).draws = s.draws := rfl
@[simp] theorem raiseIllegal_picks (w : CmdWord) (s : State) : (raiseIllegal w s).picks = s.picks := rfl
@[simp] theorem raiseIllegal_hostData (w : CmdWord) (s : State) : (raiseIllegal w s).hostData = s.hostData := rfl
@[simp] theorem raiseIllegal_port (w : CmdWord) (s : State) : (raiseIllegal w s).port = s.port := rfl

/-! abortEffects -/

@[simp] theorem abortEffects_srOut (s : State) : (abortEffects s).srOut = none := rfl
@[simp] theorem abortEffects_srIn (s : State) : (abortEffects s).srIn = none := rfl
@[simp] theorem abortEffects_bitCnt (s : State) : (abortEffects s).bitCnt = none := rfl
@[simp] theorem abortEffects_phase (s : State) : (abortEffects s).phase = .idle := rfl
@[simp] theorem abortEffects_busy (s : State) : (abortEffects s).busy = false := rfl
@[simp] theorem abortEffects_curCmd (s : State) : (abortEffects s).curCmd = none := rfl
@[simp] theorem abortEffects_aborting (s : State) : (abortEffects s).aborting = false := rfl
@[simp] theorem abortEffects_sclk (s : State) : (abortEffects s).sclk = s.sclk := rfl
@[simp] theorem abortEffects_mosi (s : State) : (abortEffects s).mosi = s.mosi := rfl
@[simp] theorem abortEffects_csN (s : State) : (abortEffects s).csN = s.csN := rfl
@[simp] theorem abortEffects_guard (s : State) : (abortEffects s).guard = s.guard := rfl
@[simp] theorem abortEffects_rdata (s : State) : (abortEffects s).rdata = none := rfl
@[simp] theorem abortEffects_link (s : State) : (abortEffects s).link = s.link := rfl
@[simp] theorem abortEffects_illegal (s : State) : (abortEffects s).illegal = s.illegal := rfl
@[simp] theorem abortEffects_aborted (s : State) : (abortEffects s).aborted = true := rfl
@[simp] theorem abortEffects_trace (s : State) : (abortEffects s).trace = s.trace ++ [.abort] := rfl
@[simp] theorem abortEffects_sinkLog (s : State) : (abortEffects s).sinkLog = s.sinkLog := rfl
@[simp] theorem abortEffects_illegalLog (s : State) : (abortEffects s).illegalLog = s.illegalLog := rfl
@[simp] theorem abortEffects_held (s : State) : (abortEffects s).held = s.held := rfl
@[simp] theorem abortEffects_params (s : State) : (abortEffects s).params = s.params := rfl
@[simp] theorem abortEffects_inputs (s : State) : (abortEffects s).inputs = s.inputs := rfl
@[simp] theorem abortEffects_misoIn (s : State) : (abortEffects s).misoIn = s.misoIn := rfl
@[simp] theorem abortEffects_draws (s : State) : (abortEffects s).draws = s.draws := rfl
@[simp] theorem abortEffects_picks (s : State) : (abortEffects s).picks = s.picks := rfl
@[simp] theorem abortEffects_hostData (s : State) : (abortEffects s).hostData = s.hostData := rfl
@[simp] theorem abortEffects_port (s : State) : (abortEffects s).port = s.port := rfl

/-! resetSequence -/

@[simp] theorem resetSequence_srOut (s : State) : (resetSequence s).srOut = some 0x00#8 := by
  simp [resetSequence, resetLines]
@[simp] theorem resetSequence_srIn (s : State) : (resetSequence s).srIn = some 0x00#8 := by
  simp [resetSequence, resetLines]
@[simp] theorem resetSequence_bitCnt (s : State) : (resetSequence s).bitCnt = some 0 := by
  simp [resetSequence, resetLines]
@[simp] theorem resetSequence_phase (s : State) : (resetSequence s).phase = .idle := by
  simp [resetSequence, resetLines]
@[simp] theorem resetSequence_busy (s : State) : (resetSequence s).busy = false := by
  simp [resetSequence, resetLines]
@[simp] theorem resetSequence_curCmd (s : State) : (resetSequence s).curCmd = none := by
  simp [resetSequence, resetLines]
@[simp] theorem resetSequence_aborting (s : State) : (resetSequence s).aborting = false := by
  simp [resetSequence, resetLines]
@[simp] theorem resetSequence_sclk (s : State) : (resetSequence s).sclk = false := by
  simp [resetSequence, resetLines]
@[simp] theorem resetSequence_mosi (s : State) : (resetSequence s).mosi = false := by
  simp [resetSequence, resetLines]
@[simp] theorem resetSequence_csN (s : State) : (resetSequence s).csN = true := by
  simp [resetSequence, resetLines]
@[simp] theorem resetSequence_guard (s : State) : (resetSequence s).guard = false := by
  cases h : s.guard <;> simp [resetSequence, resetLines, h]
@[simp] theorem resetSequence_rdata (s : State) : (resetSequence s).rdata = none := by
  simp [resetSequence, resetLines]
@[simp] theorem resetSequence_link (s : State) : (resetSequence s).link = .uninit := by
  simp [resetSequence, resetLines]
@[simp] theorem resetSequence_illegal (s : State) : (resetSequence s).illegal = false := by
  simp [resetSequence, resetLines]
@[simp] theorem resetSequence_aborted (s : State) : (resetSequence s).aborted = false := by
  simp [resetSequence, resetLines]
@[simp] theorem resetSequence_trace (s : State) : (resetSequence s).trace =
    s.trace ++ (if s.guard then [.guardRel] else []) ++ [.ck false, .cs true, .dout false, .reset] := by
  cases h : s.guard <;> simp [resetSequence, resetLines, h]
@[simp] theorem resetSequence_sinkLog (s : State) : (resetSequence s).sinkLog = s.sinkLog := by
  cases h : s.guard <;> simp [resetSequence, resetLines, h]
@[simp] theorem resetSequence_illegalLog (s : State) : (resetSequence s).illegalLog = s.illegalLog := by
  cases h : s.guard <;> simp [resetSequence, resetLines, h]
@[simp] theorem resetSequence_held (s : State) : (resetSequence s).held = s.held := by
  cases h : s.guard <;> simp [resetSequence, resetLines, h]
@[simp] theorem resetSequence_params (s : State) : (resetSequence s).params = s.params := by
  cases h : s.guard <;> simp [resetSequence, resetLines, h]
@[simp] theorem resetSequence_inputs (s : State) : (resetSequence s).inputs = s.inputs := by
  cases h : s.guard <;> simp [resetSequence, resetLines, h]
@[simp] theorem resetSequence_misoIn (s : State) : (resetSequence s).misoIn = s.misoIn := by
  cases h : s.guard <;> simp [resetSequence, resetLines, h]
@[simp] theorem resetSequence_draws (s : State) : (resetSequence s).draws = s.draws := by
  cases h : s.guard <;> simp [resetSequence, resetLines, h]
@[simp] theorem resetSequence_picks (s : State) : (resetSequence s).picks = s.picks := by
  cases h : s.guard <;> simp [resetSequence, resetLines, h]
@[simp] theorem resetSequence_hostData (s : State) : (resetSequence s).hostData = s.hostData := by
  cases h : s.guard <;> simp [resetSequence, resetLines, h]
@[simp] theorem resetSequence_port (s : State) : (resetSequence s).port = s.port := by
  cases h : s.guard <;> simp [resetSequence, resetLines, h]

end Sys2Proof.Machine
end

