-- ==== Sys2Proof/Laws/Ops.lean ====
section
/-! SUPPORT. For each shared operation one lemma that says everything it can do; proofs cite these and do not unfold the
operations. -/

namespace Sys2Proof.Machine

/-! Sequencing of outcomes. -/

@[simp] theorem andThen_next (s : State) (f : State → Out) : andThen (.next s) f = f s := rfl
@[simp] theorem andThen_fault (r : Fault) (f : State → Out) : andThen (.fault r) f = .fault r := rfl
@[simp] theorem andThen_refused (r : Refusal) (f : State → Out) : andThen (.refused r) f = .refused r := rfl

theorem andThen_assoc (o : Out) (f g : State → Out) :
    andThen (andThen o f) g = andThen o (fun s => andThen (f s) g) := by
  cases o <;> rfl

/-- A sequence answers next exactly when both parts do. -/
theorem andThen_eq_next {o : Out} {f : State → Out} {t : State} :
    andThen o f = .next t ↔ ∃ s, o = .next s ∧ f s = .next t := by
  cases o <;> simp [andThen]

@[simp] theorem runSlots_nil (s : State) : runSlots [] s = .next s := rfl
@[simp] theorem runSlots_cons (x : Slot) (xs : List Slot) (s : State) :
    runSlots (x :: xs) s = andThen (performSlot x s) (runSlots xs) := rfl

theorem runSlots_append (xs ys : List Slot) (s : State) :
    runSlots (xs ++ ys) s = andThen (runSlots xs s) (runSlots ys) := by
  induction xs generalizing s with
  | nil => rfl
  | cons x xs ih =>
    simp only [List.cons_append, runSlots_cons, andThen_assoc]
    congr 1
    funext t
    exact ih t

@[simp] theorem performAssigns_nil (s : State) : performAssigns [] s = .next s := rfl
@[simp] theorem performAssigns_cons (a : Assign) (as : List Assign) (s : State) :
    performAssigns (a :: as) s = andThen (performAssign a s) (performAssigns as) := rfl

/-! Registers that may hold no value. -/

@[simp] theorem readReg_some {α : Type} (r : ValueReg) (x : α) : readReg r (some x) = .ok x := rfl
@[simp] theorem readReg_none {α : Type} (r : ValueReg) : readReg r (none : Option α) = .error (.unwrittenRead r) := rfl
@[simp] theorem withReg_some {α : Type} (r : ValueReg) (x : α) (f : α → Out) : withReg r (some x) f = f x := rfl
@[simp] theorem withReg_none {α : Type} (r : ValueReg) (f : α → Out) :
    withReg r none f = .fault (.unwrittenRead r) := rfl

theorem readReg_eq_error {α : Type} {r : ValueReg} {v : Option α} {f : Fault} :
    readReg r v = .error f ↔ v = none ∧ f = .unwrittenRead r := by
  cases v <;> simp [eq_comm]

/-- A host read faults exactly at `RDATA` and `LINKVER` without a value. -/
theorem hostRead_eq_error {r : BitVec 2} {s : State} {f : Fault} :
    hostRead r s = .error f ↔
      (r = 2#2 ∧ s.rdata = none ∧ f = .unwrittenRead .rdata) ∨
        (r = 3#2 ∧ s.linkver = none ∧ f = .unwrittenRead .linkver) := by
  obtain h | h | h | h : r = 0#2 ∨ r = 1#2 ∨ r = 2#2 ∨ r = 3#2 := by revert r; decide
  all_goals subst h
  · simp [hostRead]
  · simp [hostRead]
  · cases hr : s.rdata <;> simp [hostRead, hr, Except.map, eq_comm]
  · cases hr : s.linkver <;> simp [hostRead, hr, Except.map, eq_comm]

/-! The oracle. -/

/-- A draw touches nothing but the answers and their count. -/
theorem draw_state (s : State) :
    ∃ ms n, (draw s).2 = { s with misoIn := ms, draws := n } := by
  cases h : s.misoIn with
  | nil => exact ⟨s.misoIn, s.draws + 1, by simp [draw, h]⟩
  | cons m ms => exact ⟨ms, s.draws, by simp [draw, h]⟩

/-- A sample under `SAMPLE`: the answer, its event, and nothing else. -/
theorem readDataIn_sample (s : State) :
    ∃ ms n, readDataIn .sample s =
      ((draw s).1, { s with misoIn := ms, draws := n, trace := s.trace ++ [.di (draw s).1] }) := by
  obtain ⟨ms, n, h⟩ := draw_state s
  exact ⟨ms, n, by simp [readDataIn, h, record]⟩

@[simp] theorem readDataIn_none (s : State) : readDataIn .none s = (false, s) := rfl

/-! What each event and each assignment can do, when it answers a next state. -/

/-- `GuardAcquire` answers next exactly when the guard is free. -/
theorem guardAcquire_eq_next {s t : State} :
    guardAcquire s = .next t ↔ s.guard = false ∧ t = record .guardAcq { s with guard := true } := by
  cases h : s.guard <;> simp [guardAcquire, h, eq_comm]

theorem driveBit_eq_next {s t : State} :
    driveBit s = .next t ↔ ∃ v, s.srOut = some v ∧ t = setDataOut (nextOutBit v) s := by
  cases h : s.srOut <;> simp [driveBit, h, eq_comm]

theorem sampleBit_eq_next {cap : Capture} {s t : State} :
    sampleBit cap s = .next t ↔
      ∃ v, s.srIn = some v ∧
        t = { (readDataIn cap s).2 with srIn := some (assembleBit v (readDataIn cap s).1) } := by
  cases h : s.srIn <;> simp [sampleBit, h, eq_comm]

theorem shiftBit_eq_next {s t : State} :
    shiftBit s = .next t ↔ ∃ v n, s.srOut = some v ∧ s.bitCnt = some n ∧
      t = { s with srOut := some (shiftLeft v), bitCnt := some (n + 1) } := by
  cases h : s.srOut <;> cases h' : s.bitCnt <;> simp [shiftBit, h, h', eq_comm]

theorem latchResult_eq_next {s t : State} :
    latchResult s = .next t ↔ ∃ r, s.srIn = some r ∧ t = { s with rdata := some r } := by
  cases h : s.srIn <;> simp [latchResult, h, eq_comm]

theorem identify_eq_next {s t : State} :
    identify s = .next t ↔ ∃ v, s.srIn = some v ∧ t = { s with link := .identified v } := by
  cases h : s.srIn <;> simp [identify, h, eq_comm]

theorem reportVersion_eq_next {s t : State} :
    reportVersion s = .next t ↔
      ∃ v, s.link.version = some v ∧ t = sinkRecord (identificationText v) (verdictOf v) s := by
  cases h : s.link.version <;> simp [reportVersion, h, eq_comm]

/-! Frames of the two layers: what no event and no assignment ever touches. -/

/-- The fields that only the sequencer, the host port and the abnormal events write. -/
structure SameOutside (s t : State) : Prop where
  phase : t.phase = s.phase
  busy : t.busy = s.busy
  curCmd : t.curCmd = s.curCmd
  aborting : t.aborting = s.aborting
  illegal : t.illegal = s.illegal
  aborted : t.aborted = s.aborted
  illegalLog : t.illegalLog = s.illegalLog
  held : t.held = s.held
  params : t.params = s.params
  inputs : t.inputs = s.inputs
  picks : t.picks = s.picks
  hostData : t.hostData = s.hostData
  port : t.port = s.port

theorem SameOutside.rfl' (s : State) : SameOutside s s := by constructor <;> rfl

theorem SameOutside.trans {s t u : State} (h : SameOutside s t) (g : SameOutside t u) : SameOutside s u := by
  constructor
  all_goals first
    | exact g.phase.trans h.phase
    | exact g.busy.trans h.busy
    | exact g.curCmd.trans h.curCmd
    | exact g.aborting.trans h.aborting
    | exact g.illegal.trans h.illegal
    | exact g.aborted.trans h.aborted
    | exact g.illegalLog.trans h.illegalLog
    | exact g.held.trans h.held
    | exact g.params.trans h.params
    | exact g.inputs.trans h.inputs
    | exact g.picks.trans h.picks
    | exact g.hostData.trans h.hostData
    | exact g.port.trans h.port

/-- An event records exactly one event and touches no field outside the engine. -/
theorem performPrim_next {p : Prim} {s t : State} (h : performPrim p s = .next t) :
    (∃ e, t.trace = s.trace ++ [e]) ∧ SameOutside s t := by
  cases p with
  | chipSelect l => cases h; exact ⟨⟨_, rfl⟩, by constructor <;> rfl⟩
  | driveBit =>
    obtain ⟨v, -, rfl⟩ := driveBit_eq_next.1 h
    exact ⟨⟨_, rfl⟩, by constructor <;> rfl⟩
  | clock l => cases h; exact ⟨⟨_, rfl⟩, by constructor <;> rfl⟩
  | sampleBit =>
    obtain ⟨v, -, rfl⟩ := sampleBit_eq_next.1 h
    obtain ⟨ms, n, hr⟩ := readDataIn_sample s
    rw [hr]
    exact ⟨⟨_, rfl⟩, by constructor <;> rfl⟩
  | wait k => cases h; exact ⟨⟨_, rfl⟩, by constructor <;> rfl⟩
  | guardAcquire =>
    obtain ⟨-, rfl⟩ := guardAcquire_eq_next.1 h
    exact ⟨⟨_, rfl⟩, by constructor <;> rfl⟩
  | guardRelease => cases h; exact ⟨⟨_, rfl⟩, by constructor <;> rfl⟩
  | reportVersion =>
    obtain ⟨v, -, rfl⟩ := reportVersion_eq_next.1 h
    exact ⟨⟨_, rfl⟩, by constructor <;> rfl⟩

/-- An assignment records no event and touches neither a line, the guard, nor a field outside the engine. -/
theorem performAssign_next {a : Assign} {s t : State} (h : performAssign a s = .next t) :
    t.trace = s.trace ∧ t.sinkLog = s.sinkLog ∧ t.sclk = s.sclk ∧ t.mosi = s.mosi ∧ t.csN = s.csN ∧
      t.guard = s.guard ∧ SameOutside s t := by
  cases a with
  | load b => cases h; exact ⟨rfl, rfl, rfl, rfl, rfl, rfl, by constructor <;> rfl⟩
  | sampleNone =>
    obtain ⟨v, -, rfl⟩ := sampleBit_eq_next.1 h
    exact ⟨rfl, rfl, rfl, rfl, rfl, rfl, by constructor <;> rfl⟩
  | shiftBit =>
    obtain ⟨v, n, -, -, rfl⟩ := shiftBit_eq_next.1 h
    exact ⟨rfl, rfl, rfl, rfl, rfl, rfl, by constructor <;> rfl⟩
  | latchResult =>
    obtain ⟨r, -, rfl⟩ := latchResult_eq_next.1 h
    exact ⟨rfl, rfl, rfl, rfl, rfl, rfl, by constructor <;> rfl⟩
  | linkReset => cases h; exact ⟨rfl, rfl, rfl, rfl, rfl, rfl, by constructor <;> rfl⟩
  | identify =>
    obtain ⟨v, -, rfl⟩ := identify_eq_next.1 h
    exact ⟨rfl, rfl, rfl, rfl, rfl, rfl, by constructor <;> rfl⟩

theorem performAssigns_next {as : List Assign} {s t : State} (h : performAssigns as s = .next t) :
    t.trace = s.trace ∧ t.sinkLog = s.sinkLog ∧ t.sclk = s.sclk ∧ t.mosi = s.mosi ∧ t.csN = s.csN ∧
      t.guard = s.guard ∧ SameOutside s t := by
  induction as generalizing s with
  | nil => cases h; exact ⟨rfl, rfl, rfl, rfl, rfl, rfl, .rfl' _⟩
  | cons a as ih =>
    obtain ⟨u, hu, ht⟩ := andThen_eq_next.1 h
    obtain ⟨h1, h2, h3, h4, h5, h6, h7⟩ := performAssign_next hu
    obtain ⟨g1, g2, g3, g4, g5, g6, g7⟩ := ih ht
    exact ⟨g1.trans h1, g2.trans h2, g3.trans h3, g4.trans h4, g5.trans h5, g6.trans h6, h7.trans g7⟩

/-- One slot records exactly one event and touches no field outside the engine (R20). -/
theorem performSlot_next {x : Slot} {s t : State} (h : performSlot x s = .next t) :
    (∃ e, t.trace = s.trace ++ [e]) ∧ SameOutside s t := by
  obtain ⟨u, hu, ht⟩ := andThen_eq_next.1 h
  obtain ⟨⟨e, he⟩, hs⟩ := performPrim_next hu
  obtain ⟨h1, -, -, -, -, -, h2⟩ := performAssigns_next ht
  exact ⟨⟨e, h1.trans he⟩, hs.trans h2⟩

/-- A list appends to the trace and touches no field outside the engine. -/
theorem runSlots_next {xs : List Slot} {s t : State} (h : runSlots xs s = .next t) :
    (∃ es, es.length = xs.length ∧ t.trace = s.trace ++ es) ∧ SameOutside s t := by
  induction xs generalizing s with
  | nil => cases h; exact ⟨⟨[], rfl, by simp⟩, .rfl' _⟩
  | cons x xs ih =>
    obtain ⟨u, hu, ht⟩ := andThen_eq_next.1 h
    obtain ⟨⟨e, he⟩, hs⟩ := performSlot_next hu
    obtain ⟨⟨es, hl, hes⟩, hs'⟩ := ih ht
    exact ⟨⟨e :: es, by simp [hl], by rw [hes, he]; simp⟩, hs.trans hs'⟩

/-! Commands, frames, the sequencer. -/

theorem issueCommand_busy {i : Instr} {w : CmdWord} {xs : List Slot} {s : State} (h : s.busy = true) :
    issueCommand i w xs s = .next { s with held := s.held ++ [⟨0, w⟩] } := by
  simp [issueCommand, h]

theorem issueCommand_idle {i : Instr} {w : CmdWord} {xs : List Slot} {s : State} (h : s.busy = false) :
    issueCommand i w xs s = andThen (runSlots xs (accept i w s)) (fun t => .next (finish t)) := by
  simp [issueCommand, h]

theorem issueFrame_busy {b0 b1 : Byte} {xs : List Slot} {s : State} (h : s.busy = true) :
    issueFrame b0 b1 xs s = .next { s with port := s.port ++ [.frame b0 b1] } := by
  simp [issueFrame, h]

theorem issueFrame_idle {b0 b1 : Byte} {xs : List Slot} {s : State} (h : s.busy = false) :
    issueFrame b0 b1 xs s = runSlots xs s := by
  simp [issueFrame, h]

/-- A tick answers next exactly when the list has a slot at k that does; it then ends the command or advances k by one. -/
theorem tick_eq_next {s t : State} :
    tick s = .next t ↔ ∃ c k x u, s.phase = .run c k ∧ (slotsOf s.params c)[k]? = some x ∧
      performSlot x s = .next u ∧
      t = if k + 1 = (slotsOf s.params c).length then finish u else { u with phase := .run c (k + 1) } := by
  constructor
  · intro h
    unfold tick at h
    split at h
    · cases h
    · rename_i c k hp
      split at h
      · cases h
      · rename_i x hx
        obtain ⟨u, hu, ht⟩ := andThen_eq_next.1 h
        refine ⟨c, k, x, u, hp, hx, hu, ?_⟩
        split at ht <;> cases ht <;> simp_all
  · rintro ⟨c, k, x, u, hp, hx, hu, rfl⟩
    simp only [tick, hp, hx, hu, andThen_next]
    split <;> rfl

/-- The held write that is taken is one of those held, and the others stay. -/
theorem takeHeld_some {s t : State} {w : CmdWord} (h : takeHeld s = some (w, t)) :
    ∃ n, (∃ hw, s.held[n]? = some hw ∧ hw.word = w) ∧
      t = { s with held := s.held.eraseIdx n, picks := t.picks } := by
  unfold takeHeld at h
  split at h
  · cases h
  · rename_i x hx
    cases h
    exact ⟨0, ⟨x, by simp [hx], rfl⟩, by simp [hx]⟩
  · rename_i x y rest hx
    have hn : Config.heldChoice s.picks % (rest.length + 2) < (x :: y :: rest).length := by
      simpa using Nat.mod_lt _ (Nat.succ_pos (rest.length + 1))
    simp only [Option.some.injEq, Prod.mk.injEq] at h
    obtain ⟨h1, h2⟩ := h
    refine ⟨Config.heldChoice s.picks % (rest.length + 2), ⟨_, ?_, h1⟩, ?_⟩
    · rw [hx, List.getD_eq_getElem?_getD, List.getElem?_eq_getElem hn]; rfl
    · rw [← h2, hx]

/-- A host's write while a command runs, or while other writes are held, is held (R40; log 28). -/
theorem hostCommand_holds {g : Nat} {w : CmdWord} {s : State} (h : s.busy = true ∨ s.held ≠ []) :
    hostCommand g w s = { s with held := s.held ++ [⟨g, w⟩] } :=
  if_pos (by simpa using h)

/-- A host's write to an idle block with nothing held is accepted or rejected at once (R20, R143). -/
theorem hostCommand_takes {g : Nat} {w : CmdWord} {s : State} (hb : s.busy = false) (hh : s.held = []) :
    hostCommand g w s = acceptWord w s :=
  if_neg (by simp [hb, hh])

/-! The assignments after an event of `NONE` mode and the abort sequence. -/

/-- One step of the abort sequence, by what still applies (60_exceptions.md R145). -/
theorem abortEvent_cases (s : State) :
    (s.guard = true ∧ abortEvent s = guardRelease s) ∨
    (s.guard = false ∧ s.sclk = true ∧ abortEvent s = setClock false s) ∨
    (s.guard = false ∧ s.sclk = false ∧ s.csN = false ∧ abortEvent s = setChipSelect true s) ∨
    (s.guard = false ∧ s.sclk = false ∧ s.csN = true ∧ abortEvent s = abortEffects s) := by
  unfold abortEvent
  cases s.guard <;> cases s.sclk <;> cases s.csN <;> simp

end Sys2Proof.Machine
end

