-- ==== Sys2Proof/Laws/Engine.lean ====
section
/-! SUPPORT. The bit engine: the oracle's answers one after another, a byte as its bits, and the loop of a byte transfer. -/

namespace Sys2Proof.Machine

/-! The oracle's answers. -/

/-- A draw is the next coming answer. -/
theorem draw_eq (s : State) : draw s = (answerAt s 0, afterDraws 1 s) := by
  cases h : s.misoIn <;> simp [draw, answerAt, afterDraws, h]

theorem answerAt_afterDraws (s : State) (m n : Nat) : answerAt (afterDraws m s) n = answerAt s (m + n) := by
  simp only [answerAt, afterDraws, List.length_drop, List.getD_eq_getElem?_getD, List.getElem?_drop]
  by_cases h : m + n < s.misoIn.length
  · rw [if_pos (by omega), if_pos h]
  · rw [if_neg (by omega), if_neg h]
    congr 1
    omega

theorem afterDraws_afterDraws (s : State) (m n : Nat) : afterDraws m (afterDraws n s) = afterDraws (n + m) s := by
  simp only [afterDraws, List.drop_drop, List.length_drop]
  congr 1
  omega

/-- The answers depend on nothing but what is given and what was drawn. -/
theorem answerAt_congr {s t : State} (h : t.misoIn = s.misoIn) (h' : t.draws = s.draws) : answerAt t = answerAt s := by
  funext n
  simp [answerAt, h, h']

theorem inByte_congr {s t : State} (h : t.misoIn = s.misoIn) (h' : t.draws = s.draws) (hp : t.params = s.params)
    (n : Nat) : inByte t n = inByte s n := by
  simp [inByte, hp, answerAt_congr h h']

theorem inByte_afterDraws (s : State) (n m : Nat) :
    inByte (afterDraws (drawsFor s.params.capture n) s) m = inByte s (n + m) := by
  have hp : (afterDraws (drawsFor s.params.capture n) s).params = s.params := rfl
  unfold inByte
  rw [hp]
  cases h : s.params.capture with
  | none => rfl
  | sample => simp [drawsFor, answerAt_afterDraws, Nat.add_assoc]

theorem drawsFor_add (cap : Capture) (m n : Nat) : drawsFor cap m + drawsFor cap n = drawsFor cap (m + n) := by
  cases cap <;> rfl

/-- A list whose first part answers next goes on with the rest. -/
theorem runSlots_append_next {xs : List Slot} {s t : State} (h : runSlots xs s = .next t) (rest : List Slot) :
    runSlots (xs ++ rest) s = runSlots rest t := by
  rw [runSlots_append, h, andThen_next]

/-! A byte as its bits. -/

/-- What stands in the shift register after n shifts. -/
def shiftN : Nat → Byte → Byte
  | 0, v => v
  | n + 1, v => shiftN n (shiftLeft v)

/-- What n samples assemble onto w. -/
def assembleN : Nat → Byte → (Nat → Level) → Byte
  | 0, w, _ => w
  | n + 1, w, m => assembleN n (assembleBit w (m 0)) (fun i => m (i + 1))

/-- The level of data-out after n bits of v, first l. -/
def drivenN : Nat → Byte → Level → Level
  | 0, _, l => l
  | n + 1, v, _ => drivenN n (shiftLeft v) (nextOutBit v)

/-- The level of the clock after n bits, first l. -/
def clockN : Nat → Level → Level
  | 0, l => l
  | _ + 1, _ => false

/-- The events of n bits of v, answered by m. -/
def loopEvents (cap : Capture) : Nat → Byte → (Nat → Level) → List Event
  | 0, _, _ => []
  | n + 1, v, m =>
    (match cap with
      | .sample =>
        [.dout (nextOutBit v), .wait .bitSettle, .ck true, .wait .halfHigh, .di (m 0), .ck false, .wait .halfLow]
      | .none => [.dout (nextOutBit v), .wait .bitSettle, .ck true, .wait .halfHigh, .ck false, .wait .halfLow]) ++
    loopEvents cap n (shiftLeft v) (fun i => m (i + 1))

theorem clockN_succ (n : Nat) (l : Level) : clockN (n + 1) l = false := rfl

theorem clockN_low (n : Nat) : clockN n false = false := by cases n <;> rfl

/-- Eight shifts empty the register, and the bits come out most significant first (41_bit_transfer.md R98, R101). -/
theorem eight_shifts : ∀ b : Byte, shiftN 8 b = 0x00#8 ∧
    (List.range 8).map (fun n => nextOutBit (shiftN n b)) = bitsMsbFirst b := by decide +kernel

theorem spelledByte_bits : ∀ a b c d e f g h : Level, ∀ v : Byte,
    v = BitVec.ofNat 8 (128 * a.toNat + 64 * b.toNat + 32 * c.toNat + 16 * d.toNat + 8 * e.toNat + 4 * f.toNat +
      2 * g.toNat + h.toNat) →
    assembleBit (assembleBit (assembleBit (assembleBit (assembleBit (assembleBit (assembleBit (assembleBit 0x00#8 a) b)
      c) d) e) f) g) h = v ∧ bitsMsbFirst v = [a, b, c, d, e, f, g, h] := by
  intro a b c d e f g h v hv
  subst hv
  revert a b c d e f g h
  decide +kernel

/-- Eight samples assemble the byte they spell (R96). -/
theorem assembleN_eight (m : Nat → Level) : assembleN 8 0x00#8 m = spelledByte m :=
  (spelledByte_bits (m 0) (m 1) (m 2) (m 3) (m 4) (m 5) (m 6) (m 7) _ rfl).1

/-- The first answer is bit 7 of the byte spelled, the last bit 0 (R98). -/
theorem bitsMsbFirst_spelledByte (m : Nat → Level) : bitsMsbFirst (spelledByte m) = (List.range 8).map m :=
  (spelledByte_bits (m 0) (m 1) (m 2) (m 3) (m 4) (m 5) (m 6) (m 7) _ rfl).2

theorem assembleN_eight_none : assembleN 8 0x00#8 (fun _ => false) = 0x00#8 := by decide

theorem shiftN_eight (b : Byte) : shiftN 8 b = 0x00#8 := (eight_shifts b).1

theorem drivenN_eight (b : Byte) (l : Level) : drivenN 8 b l = b.getLsbD 0 := by
  have h := congrArg (fun xs => xs.getLastD false) (eight_shifts b).2
  exact h

/-- The events of a whole byte, as the rule writes them out (R96). -/
theorem loopEvents_sample (b : Byte) (m : Nat → Level) :
    loopEvents .sample 8 b m = [7, 6, 5, 4, 3, 2, 1, 0].flatMap (bitEvents .sample b (spelledByte m)) := by
  have hb := (eight_shifts b).2
  have hm := bitsMsbFirst_spelledByte m
  simp only [List.range, List.range.loop, List.map_cons, List.map_nil, bitsMsbFirst, List.cons.injEq, and_true, shiftN]
    at hb hm
  obtain ⟨h7, h6, h5, h4, h3, h2, h1, h0⟩ := hb
  obtain ⟨k7, k6, k5, k4, k3, k2, k1, k0⟩ := hm
  simp only [loopEvents, List.flatMap_cons, List.flatMap_nil, bitEvents, h7, h6, h5, h4, h3, h2, h1, h0, k7, k6, k5, k4,
    k3, k2, k1, k0, List.cons_append, List.nil_append]

theorem loopEvents_none (b x : Byte) (m : Nat → Level) :
    loopEvents .none 8 b m = [7, 6, 5, 4, 3, 2, 1, 0].flatMap (bitEvents .none b x) := by
  have hb := (eight_shifts b).2
  simp only [List.range, List.range.loop, List.map_cons, List.map_nil, bitsMsbFirst, List.cons.injEq, and_true, shiftN]
    at hb
  obtain ⟨h7, h6, h5, h4, h3, h2, h1, h0⟩ := hb
  simp only [loopEvents, List.flatMap_cons, List.flatMap_nil, bitEvents, h7, h6, h5, h4, h3, h2, h1, h0, List.cons_append,
    List.nil_append]

/-! The loop. -/

/-- One pass under `SAMPLE`. -/
theorem runSlots_bit_sample {s : State} {v w : Byte} {n : Nat} (h1 : s.srOut = some v) (h2 : s.srIn = some w)
    (h3 : s.bitCnt = some n) :
    runSlots (bitSlots .sample) s = .next { afterDraws 1 s with
      srOut := some (shiftLeft v), srIn := some (assembleBit w (answerAt s 0)), bitCnt := some (n + 1),
      mosi := nextOutBit v, sclk := false,
      trace := s.trace ++ [.dout (nextOutBit v), .wait .bitSettle, .ck true, .wait .halfHigh, .di (answerAt s 0),
        .ck false, .wait .halfLow] } := by
  simp [bitSlots, performSlot, performPrim, performAssign, driveBit, sampleBit, shiftBit, readDataIn, h1, h2, h3, draw_eq,
    afterDraws, answerAt, setDataOut, record, busyWait, setClock]

/-- One pass under `NONE`. -/
theorem runSlots_bit_none {s : State} {v w : Byte} {n : Nat} (h1 : s.srOut = some v) (h2 : s.srIn = some w)
    (h3 : s.bitCnt = some n) :
    runSlots (bitSlots .none) s = .next { s with
      srOut := some (shiftLeft v), srIn := some (assembleBit w false), bitCnt := some (n + 1),
      mosi := nextOutBit v, sclk := false,
      trace := s.trace ++ [.dout (nextOutBit v), .wait .bitSettle, .ck true, .wait .halfHigh, .ck false,
        .wait .halfLow] } := by
  simp [bitSlots, performSlot, performPrim, performAssign, driveBit, sampleBit, shiftBit, readDataIn, h1, h2, h3,
    setDataOut, record, busyWait, setClock]

/-- n passes under `SAMPLE`. -/
theorem runSlots_loop_sample (n : Nat) : ∀ (s : State) (v w : Byte) (c : Nat), s.srOut = some v → s.srIn = some w →
    s.bitCnt = some c →
    runSlots (bitLoop .sample n) s = .next { afterDraws n s with
      srOut := some (shiftN n v), srIn := some (assembleN n w (answerAt s)), bitCnt := some (c + n),
      mosi := drivenN n v s.mosi, sclk := clockN n s.sclk,
      trace := s.trace ++ loopEvents .sample n v (answerAt s) } := by
  induction n with
  | zero =>
    intro s v w c h1 h2 h3
    simp [bitLoop, afterDraws, shiftN, assembleN, drivenN, clockN, loopEvents, ← h1, ← h2, ← h3]
  | succ n ih =>
    intro s v w c h1 h2 h3
    rw [bitLoop, runSlots_append_next (runSlots_bit_sample h1 h2 h3), ih _ _ _ _ rfl rfl rfl]
    have ha : answerAt { afterDraws 1 s with
        srOut := some (shiftLeft v), srIn := some (assembleBit w (answerAt s 0)), bitCnt := some (c + 1),
        mosi := nextOutBit v, sclk := false,
        trace := s.trace ++ [.dout (nextOutBit v), .wait .bitSettle, .ck true, .wait .halfHigh, .di (answerAt s 0),
          .ck false, .wait .halfLow] } = fun i => answerAt s (i + 1) := by
      funext i
      rw [Nat.add_comm i 1, ← answerAt_afterDraws]
      rfl
    rw [ha]
    have hd : s.draws + (1 - s.misoIn.length) + (n - (s.misoIn.length - 1)) =
        s.draws + (n + 1 - s.misoIn.length) := by omega
    simp only [afterDraws, List.drop_drop, List.length_drop, shiftN, assembleN, drivenN, clockN_low, clockN_succ, loopEvents,
      List.append_assoc, hd, Nat.add_comm 1 n, Nat.add_assoc]

/-- n passes under `NONE`. -/
theorem runSlots_loop_none (n : Nat) : ∀ (s : State) (v w : Byte) (c : Nat), s.srOut = some v → s.srIn = some w →
    s.bitCnt = some c →
    runSlots (bitLoop .none n) s = .next { s with
      srOut := some (shiftN n v), srIn := some (assembleN n w (fun _ => false)), bitCnt := some (c + n),
      mosi := drivenN n v s.mosi, sclk := clockN n s.sclk,
      trace := s.trace ++ loopEvents .none n v (fun _ => false) } := by
  induction n with
  | zero =>
    intro s v w c h1 h2 h3
    simp [bitLoop, shiftN, assembleN, drivenN, clockN, loopEvents, ← h1, ← h2, ← h3]
  | succ n ih =>
    intro s v w c h1 h2 h3
    rw [bitLoop, runSlots_append_next (runSlots_bit_none h1 h2 h3), ih _ _ _ _ rfl rfl rfl]
    simp [shiftN, assembleN, drivenN, clockN_low, clockN_succ, loopEvents, Nat.add_assoc, Nat.add_comm 1]

end Sys2Proof.Machine
end

