-- ==== Sys2Proof/Laws/Events.lean ====
section
/-! SUPPORT. Event lists: what a whole is follows from its parts, and what one byte transfer's list holds. -/

namespace Sys2Proof.Machine

@[simp] theorem dataOutLevels_append (xs ys : List Event) :
    dataOutLevels (xs ++ ys) = dataOutLevels xs ++ dataOutLevels ys := List.filterMap_append
@[simp] theorem clockLevels_append (xs ys : List Event) :
    clockLevels (xs ++ ys) = clockLevels xs ++ clockLevels ys := List.filterMap_append
@[simp] theorem chipSelectLevels_append (xs ys : List Event) :
    chipSelectLevels (xs ++ ys) = chipSelectLevels xs ++ chipSelectLevels ys := List.filterMap_append
@[simp] theorem dataInLevels_append (xs ys : List Event) :
    dataInLevels (xs ++ ys) = dataInLevels xs ++ dataInLevels ys := List.filterMap_append

theorem minMicros_append (p : Params) (xs ys : List Event) :
    minMicros p (xs ++ ys) = minMicros p xs + minMicros p ys := by
  induction xs with
  | nil => simp [minMicros]
  | cons x xs ih => simp [minMicros, ih, Nat.add_assoc]

/-! One byte transfer (41_bit_transfer.md R96, R98, R99). -/

theorem byteEvents_dataOut (cap : Capture) (b m : Byte) : dataOutLevels (byteEvents cap b m) = bitsMsbFirst b := by
  cases cap <;> rfl

theorem byteEvents_clock (cap : Capture) (b m : Byte) :
    clockLevels (byteEvents cap b m) =
      [true, false, true, false, true, false, true, false, true, false, true, false, true, false, true, false] := by
  cases cap <;> rfl

theorem byteEvents_chipSelect (cap : Capture) (b m : Byte) : chipSelectLevels (byteEvents cap b m) = [] := by
  cases cap <;> rfl

theorem byteEvents_dataIn_sample (b m : Byte) : dataInLevels (byteEvents .sample b m) = bitsMsbFirst m := rfl

theorem byteEvents_dataIn_none (b m : Byte) : dataInLevels (byteEvents .none b m) = [] := rfl

theorem byteEvents_length (cap : Capture) (b m : Byte) :
    (byteEvents cap b m).length = match cap with | .sample => 58 | .none => 50 := by
  cases cap <;> rfl

/-- The guard is taken and released once, outside the eight bits. -/
theorem bitEvents_guard (cap : Capture) (b m : Byte) (i : Nat) :
    (bitEvents cap b m i).count .guardAcq = 0 ∧ (bitEvents cap b m i).count .guardRel = 0 ∧
      (bitEvents cap b m i).count (.wait .resetRecovery) = 0 := by
  cases cap <;> exact ⟨rfl, rfl, rfl⟩

theorem byteEvents_guard (cap : Capture) (b m : Byte) :
    (byteEvents cap b m).count .guardAcq = 1 ∧ (byteEvents cap b m).count .guardRel = 1 ∧
      (byteEvents cap b m).count (.wait .resetRecovery) = 0 := by
  simp only [byteEvents, List.count_cons, List.count_append, List.flatMap_cons, List.flatMap_nil, List.count_nil,
    bitEvents_guard]
  decide

theorem bitEvents_minMicros (p : Params) (cap : Capture) (b m : Byte) (i : Nat) :
    minMicros p (bitEvents cap b m i) = p.tBitSettle + 2 * p.tHalf := by
  cases cap <;> simp [bitEvents, minMicros, eventMicros, waitMicros] <;> omega

theorem byteEvents_minMicros (p : Params) (cap : Capture) (b m : Byte) :
    minMicros p (byteEvents cap b m) = 8 * (p.tBitSettle + 2 * p.tHalf) := by
  simp only [byteEvents, minMicros, eventMicros, minMicros_append, List.flatMap_cons, List.flatMap_nil,
    bitEvents_minMicros]
  omega

/-- All byte transfers have one shape (41_bit_transfer.md R99). -/
theorem byteEvents_shape (cap : Capture) (b m b' m' : Byte) :
    (byteEvents cap b m).map Event.shape = (byteEvents cap b' m').map Event.shape := by
  cases cap <;> rfl

end Sys2Proof.Machine
end

