-- ==== Sys2Proof/Laws/PerInstr.lean ====
section
/-! SUPPORT. Laws about every instruction as syntax. Family `TableRow`: the first word an instruction is encoded as lies in its
row of spec/opcode_table.json (match and mask). -/

namespace Sys2Proof.Laws.TableRow

/-- A row's mask and match (30_encoding.md R63 to R66; R72, R73). -/
def row : Instr → Encoded × Encoded
  | .xfer _ => (.cmd 0xFFFF00#24, .cmd 0x100000#24)
  | .wrreg _ _ => (.cmd 0xFF8000#24, .cmd 0x200000#24)
  | .rdreg _ => (.cmd 0xFF80FF#24, .cmd 0x300000#24)
  | .probe => (.cmd 0xFFFFFF#24, .cmd 0x400000#24)
  | .frameWrite _ _ => (.frame 0x80#8 0x00#8, .frame 0x00#8 0x00#8)
  | .frameRead _ => (.frame 0x80#8 0xFF#8, .frame 0x80#8 0x00#8)

/-- `(w & mask) = match`, in one form for words and frames. -/
def matchesRow : Encoded → Encoded → Encoded → Bool
  | .cmd w, .cmd mask, .cmd m => w &&& mask == m
  | .frame b0 b1, .frame k0 k1, .frame m0 m1 => b0 &&& k0 == m0 && b1 &&& k1 == m1
  | _, _, _ => false

/-- The instruction's word, under its row's mask, is its row's match. -/
def Statement (i : Instr) : Prop := matchesRow (encode i) (row i).1 (row i).2 = true

theorem xfer (b : Byte) : Statement (.xfer b) := by
  revert b; unfold Statement; decide +kernel

theorem wrreg (a : Addr) (v : Byte) : Statement (.wrreg a v) := by
  have h : wrregWord a v &&& 0xFF8000#24 = 0x200000#24 := by
    ext i hi
    simp only [wrregWord, cmdWord]
    interval_cases i <;> simp [BitVec.getLsbD_of_ge]
  simpa [Statement, encode, row, matchesRow] using h

theorem rdreg (a : Addr) : Statement (.rdreg a) := by
  revert a; unfold Statement; decide +kernel

theorem probe : Statement .probe := by
  unfold Statement; decide

theorem frameWrite (r : Addr) (v : Byte) : Statement (.frameWrite r v) := by
  have h : ∀ r : Addr, writeFrameByte r &&& 0x80#8 = 0x00#8 := by decide +kernel
  simp [Statement, encode, row, matchesRow, h]

theorem frameRead (r : Addr) : Statement (.frameRead r) := by
  revert r; unfold Statement; decide +kernel

end Sys2Proof.Laws.TableRow
end

