-- ==== Sys2Proof/Laws/Sequencer.lean ====
section
/-! SUPPORT. The sequencer step by step: what a step does at a boundary where the outside is quiet, and what a stretch of such
steps does to a running command. -/

namespace Sys2Proof.Machine

/-! Events and assignments neither read nor write `PHASE` and the coming inputs. -/

/-- `s` at another place of the sequence, with other inputs to come. -/
def atPlace (p : Phase) (i : List Inputs) (s : State) : State := { s with phase := p, inputs := i }

theorem draw_atPlace (p : Phase) (i : List Inputs) (s : State) :
    draw (atPlace p i s) = ((draw s).1, atPlace p i (draw s).2) := by
  cases h : s.misoIn <;> simp [draw, atPlace, h]

theorem sampleBit_atPlace (cap : Capture) (p : Phase) (i : List Inputs) (s : State) :
    sampleBit cap (atPlace p i s) = andThen (sampleBit cap s) (fun t => .next (atPlace p i t)) := by
  have hs : (atPlace p i s).srIn = s.srIn := rfl
  cases h : s.srIn with
  | none => simp [sampleBit, hs, h]
  | some v =>
    cases cap with
    | none => (simp [sampleBit, hs, h, readDataIn]; try rfl)
    | sample => simp [sampleBit, hs, h, readDataIn, draw_atPlace]; try rfl

theorem performPrim_atPlace (x : Prim) (p : Phase) (i : List Inputs) (s : State) :
    performPrim x (atPlace p i s) = andThen (performPrim x s) (fun t => .next (atPlace p i t)) := by
  cases x with
  | chipSelect l => rfl
  | driveBit =>
    have hs : (atPlace p i s).srOut = s.srOut := rfl
    cases h : s.srOut <;> (simp [performPrim, driveBit, hs, h]; try rfl)
  | clock l => rfl
  | sampleBit => exact sampleBit_atPlace _ _ _ _
  | wait k => rfl
  | guardAcquire =>
    have hs : (atPlace p i s).guard = s.guard := rfl
    cases h : s.guard <;> (simp [performPrim, guardAcquire, hs, h]; try rfl)
  | guardRelease => rfl
  | reportVersion =>
    have hs : (atPlace p i s).link = s.link := rfl
    cases h : s.link.version <;> (simp [performPrim, reportVersion, hs, h]; try rfl)

theorem performAssign_atPlace (a : Assign) (p : Phase) (i : List Inputs) (s : State) :
    performAssign a (atPlace p i s) = andThen (performAssign a s) (fun t => .next (atPlace p i t)) := by
  have h1 : (atPlace p i s).srOut = s.srOut := rfl
  have h2 : (atPlace p i s).srIn = s.srIn := rfl
  have h3 : (atPlace p i s).bitCnt = s.bitCnt := rfl
  cases a with
  | load b => rfl
  | sampleNone => exact sampleBit_atPlace _ _ _ _
  | shiftBit => cases h : s.srOut <;> cases h' : s.bitCnt <;> (simp [performAssign, shiftBit, h1, h3, h, h']; try rfl)
  | latchResult => cases h : s.srIn <;> (simp [performAssign, latchResult, h2, h]; try rfl)
  | linkReset => rfl
  | identify => cases h : s.srIn <;> (simp [performAssign, identify, h2, h]; try rfl)

theorem performAssigns_atPlace (as : List Assign) (p : Phase) (i : List Inputs) (s : State) :
    performAssigns as (atPlace p i s) = andThen (performAssigns as s) (fun t => .next (atPlace p i t)) := by
  induction as generalizing s with
  | nil => rfl
  | cons a as ih =>
    rw [performAssigns_cons, performAssigns_cons, performAssign_atPlace]
    cases performAssign a s with
    | next t => exact ih t
    | fault r => rfl
    | refused r => rfl

theorem performSlot_atPlace (x : Slot) (p : Phase) (i : List Inputs) (s : State) :
    performSlot x (atPlace p i s) = andThen (performSlot x s) (fun t => .next (atPlace p i t)) := by
  unfold performSlot
  rw [performPrim_atPlace]
  cases performPrim x.prim s with
  | next t => exact performAssigns_atPlace x.assigns p i t
  | fault r => rfl
  | refused r => rfl

theorem runSlots_atPlace (xs : List Slot) (p : Phase) (i : List Inputs) (s : State) :
    runSlots xs (atPlace p i s) = andThen (runSlots xs s) (fun t => .next (atPlace p i t)) := by
  induction xs generalizing s with
  | nil => rfl
  | cons x xs ih =>
    rw [runSlots_cons, runSlots_cons, performSlot_atPlace]
    cases performSlot x s with
    | next t => exact ih t
    | fault r => rfl
    | refused r => rfl

/-! Steps where the outside is quiet. -/

/-- A step at which the outside does nothing is the block's own step. -/
theorem step_quiet {s : State} (hq : QuietFor 1 s) (ha : s.aborting = false) :
    step s = blockStep { s with inputs := s.inputs.drop 1 } := by
  cases hi : s.inputs with
  | nil => simp [step, advance, hi, boundaryStep, ha]
  | cons x rest =>
    have hx : x = {} := hq x (by simp [hi])
    simp [step, advance, hi, boundaryStep, ha, hx]

/-- A running command goes on by one tick. -/
theorem step_quiet_busy {s : State} (hq : QuietFor 1 s) (ha : s.aborting = false) (hb : s.busy = true) :
    step s = tick { s with inputs := s.inputs.drop 1 } := by
  rw [step_quiet hq ha, blockStep, if_pos hb]

/-- An idle block makes its idle step. -/
theorem step_quiet_idle {s : State} (hq : QuietFor 1 s) (ha : s.aborting = false) (hb : s.busy = false) :
    step s = idleStep { s with inputs := s.inputs.drop 1 } := by
  rw [step_quiet hq ha, blockStep, if_neg (by simp [hb])]

theorem QuietFor.mono {m n : Nat} {s : State} (h : QuietFor n s) (hm : m ≤ n) : QuietFor m s :=
  fun x hx => h x (List.take_subset_take_left _ hm hx)

/-- After k boundaries of a quiet stretch the rest of it is still quiet. -/
theorem QuietFor.drop {k m : Nat} {s t : State} (h : QuietFor (k + m) s) (ht : t.inputs = s.inputs.drop k) : QuietFor m t := by
  intro x hx
  rw [ht, List.take_drop] at hx
  exact h x (List.mem_of_mem_drop hx)

@[simp] theorem runSteps_zero (s : State) : runSteps 0 s = .next s := rfl

theorem runSteps_succ (n : Nat) (s : State) : runSteps (n + 1) s = andThen (step s) (runSteps n) := rfl

theorem runSteps_add (m n : Nat) (s : State) : runSteps (m + n) s = andThen (runSteps m s) (runSteps n) := by
  induction m generalizing s with
  | zero => simp
  | succ m ih =>
    rw [Nat.add_right_comm, runSteps_succ, runSteps_succ, andThen_assoc]
    congr 1
    funext t
    exact ih t

/-- `m` quiet steps from index k of a running command, short of its end: its next m events. -/
theorem run_quiet_inside (m : Nat) : ∀ (s t : State) (c : Instr) (k : Nat),
    s.phase = .run c k → s.busy = true → s.aborting = false → QuietFor m s →
    k + m < (slotsOf s.params c).length → runSlots (((slotsOf s.params c).drop k).take m) s = .next t →
    runSteps m s = .next (atPlace (.run c (k + m)) (s.inputs.drop m) t) := by
  induction m with
  | zero =>
    intro s t c k hp hb ha hq hk hr
    have hst : s = t := by simpa using hr
    subst hst
    have hs : s = atPlace (.run c k) s.inputs s := by
      cases s
      simp_all [atPlace]
    exact congrArg Host.Outcome.next hs
  | succ m ih =>
    intro s t c k hp hb ha hq hk hr
    have hlt : k < (slotsOf s.params c).length := by omega
    rw [List.drop_eq_getElem_cons hlt, List.take_succ_cons, runSlots_cons] at hr
    obtain ⟨u, hu, hr⟩ := andThen_eq_next.1 hr
    have hsame := (performSlot_next hu).2
    have htick : tick { s with inputs := s.inputs.drop 1 } =
        .next (atPlace (.run c (k + 1)) (s.inputs.drop 1) u) := by
      rw [tick_eq_next]
      refine ⟨c, k, _, { u with inputs := s.inputs.drop 1 }, hp, List.getElem?_eq_getElem hlt, ?_, ?_⟩
      · have h := performSlot_atPlace (slotsOf s.params c)[k] s.phase (s.inputs.drop 1) s
        rw [hu] at h
        have hu' : { u with inputs := s.inputs.drop 1 } = atPlace s.phase (s.inputs.drop 1) u := by
          simp [atPlace, ← hsame.phase]
        rw [hu']
        exact h
      · rw [if_neg (by show k + 1 ≠ (slotsOf s.params c).length; omega)]
        rfl
    rw [runSteps_succ, step_quiet_busy (hq.mono (by omega)) ha hb, htick, andThen_next]
    have hnext := runSlots_atPlace (((slotsOf s.params c).drop (k + 1)).take m) (.run c (k + 1)) (s.inputs.drop 1) u
    rw [hr, andThen_next] at hnext
    have hpar : (atPlace (.run c (k + 1)) (s.inputs.drop 1) u).params = s.params := hsame.params
    rw [ih (atPlace (.run c (k + 1)) (s.inputs.drop 1) u) (atPlace (.run c (k + 1)) (s.inputs.drop 1) t) c (k + 1) rfl
      (hsame.busy.trans hb) (hsame.aborting.trans ha) (QuietFor.drop (k := 1) (by rwa [Nat.add_comm]) rfl)
      (by rw [hpar]; omega) (by rw [hpar]; exact hnext)]
    simp [atPlace, Nat.add_assoc, Nat.add_comm 1]

/-- A list is its part before an index, the element there, and the part after it. -/
theorem drop_split (xs : List Slot) (k m : Nat) (h : k + m + 1 = xs.length) :
    xs.drop k = (xs.drop k).take m ++ [xs[k + m]'(by omega)] := by
  have hlt : m < (xs.drop k).length := by simp; omega
  have h' := List.take_append_drop m (xs.drop k)
  have hnil : (xs.drop k).drop (m + 1) = [] := List.drop_eq_nil_of_le (by simp; omega)
  rw [List.drop_eq_getElem_cons hlt, List.getElem_drop, hnil] at h'
  exact h'.symm

/-- The quiet steps from index k of a running command to its end: the rest of its list, then `BUSY` 0 and `PHASE` idle. -/
theorem run_quiet_to_end {s t : State} {c : Instr} {k m : Nat} (hp : s.phase = .run c k)
    (hb : s.busy = true) (ha : s.aborting = false) (hq : QuietFor (m + 1) s)
    (hk : k + m + 1 = (slotsOf s.params c).length) (hr : runSlots ((slotsOf s.params c).drop k) s = .next t) :
    runSteps (m + 1) s = .next (finish { t with inputs := s.inputs.drop (m + 1) }) := by
  have hlt : k + m < (slotsOf s.params c).length := by omega
  rw [drop_split _ k m hk, runSlots_append] at hr
  obtain ⟨u, hu, hr⟩ := andThen_eq_next.1 hr
  rw [runSlots_cons] at hr
  obtain ⟨v, hv, hr⟩ := andThen_eq_next.1 hr
  cases hr
  have hsame := (runSlots_next hu).2
  rw [runSteps_add, run_quiet_inside m s u c k hp hb ha (hq.mono (Nat.le_succ _)) hlt hu, andThen_next, runSteps_succ]
  have hpar : (atPlace (.run c (k + m)) (s.inputs.drop m) u).params = s.params := hsame.params
  rw [step_quiet_busy (s := atPlace (.run c (k + m)) (s.inputs.drop m) u) (hq.drop rfl) (hsame.aborting.trans ha)
    (hsame.busy.trans hb)]
  have hin : (atPlace (.run c (k + m)) (s.inputs.drop m) u).inputs.drop 1 = s.inputs.drop (m + 1) := by
    simp [atPlace]
  rw [hin]
  have htick : tick { atPlace (.run c (k + m)) (s.inputs.drop m) u with inputs := s.inputs.drop (m + 1) } =
      .next (finish { t with inputs := s.inputs.drop (m + 1) }) := by
    rw [tick_eq_next]
    refine ⟨c, k + m, (slotsOf s.params c)[k + m], atPlace (.run c (k + m)) (s.inputs.drop (m + 1)) t, rfl, ?_, ?_, ?_⟩
    · show (slotsOf u.params c)[k + m]? = _
      rw [hsame.params]
      exact List.getElem?_eq_getElem hlt
    · have h := performSlot_atPlace ((slotsOf s.params c)[k + m]) (.run c (k + m)) (s.inputs.drop (m + 1)) u
      rw [hv] at h
      exact h
    · rw [if_pos (by show k + m + 1 = (slotsOf u.params c).length; rw [hsame.params]; exact hk)]
      rfl
  rw [htick, andThen_next, runSteps_zero]

/-! Whole commands. -/

/-- A word that decodes is a command, never a frame. -/
theorem isCommand_of_decodeCmd {w : CmdWord} {i : Instr} (h : decodeCmd w = .ok i) : i.isCommand = true := by
  rcases (decodeCmd_eq_ok.1 h).2 with h | h | h | h
  · rw [h.2.2]; rfl
  · rw [h.2]; rfl
  · rw [h.2.2]; rfl
  · rw [h.2.2.2]; rfl

/-- A frame that decodes is a frame, never a command. -/
theorem isCommand_of_decodeFrame {b0 b1 : Byte} {i : Instr} (h : decodeFrame b0 b1 = .ok i) : i.isCommand = false := by
  unfold decodeFrame at h
  repeat' split at h
  all_goals cases h
  all_goals rfl

/-- `exec` of a word's instruction issues that word with the instruction's own list. -/
theorem exec_of_decodeCmd {i : Instr} {w : CmdWord} (h : decodeCmd w = .ok i) (s : State) :
    exec i s = issueCommand i w (slotsOf s.params i) s := by
  obtain ⟨hr, hi⟩ := decodeCmd_eq_ok.1 h
  have hw := cmdWord_fields hr
  rcases hi with ⟨h1, h2, rfl⟩ | ⟨h1, rfl⟩ | ⟨h1, h2, rfl⟩ | ⟨h1, h2, h3, rfl⟩
  · rw [h1, h2] at hw
    exact congrArg (fun v => issueCommand (.xfer (dataField w)) v (slotsOf s.params (.xfer (dataField w))) s) hw
  · rw [h1] at hw
    exact congrArg (fun v => issueCommand (.wrreg (addrField w) (dataField w)) v
      (slotsOf s.params (.wrreg (addrField w) (dataField w))) s) hw
  · rw [h1, h2] at hw
    exact congrArg (fun v => issueCommand (.rdreg (addrField w)) v (slotsOf s.params (.rdreg (addrField w))) s) hw
  · rw [h1, h2, h3] at hw
    exact congrArg (fun v => issueCommand .probe v (slotsOf s.params .probe) s) hw

/-- No list is empty. -/
theorem slotsOf_pos (p : Params) (i : Instr) : 0 < (slotsOf p i).length := by
  cases i <;> simp [slotsOf, xferSlots, wrregSlots, rdregSlots, probeSlots, writeTransaction, readTransaction,
    transaction, transferByte]

end Sys2Proof.Machine
end

