-- ==== Sys2Proof/Laws/Step.lean ====
section
/-! SUPPORT. Everything a step that answers a next state can have done, said once; statements over all steps go through it. -/

namespace Sys2Proof.Machine

/-- The kinds of step, by what the state after it is. -/
inductive StepKind (s t : State) : Prop where
  | reset (x : Inputs) (later i : List Inputs) (input : s.inputs = x :: later) (asserted : x.reset = true)
      (result : t = resetSequence { s with inputs := i })
  | abortGoesOn (i : List Inputs) (aborting : s.aborting = true) (noReset : ∀ x later, s.inputs = x :: later → x.reset = false)
      (result : t = abortEvent { s with inputs := i })
  | abortBegins (i : List Inputs) (busy : s.busy = true) (result : t = abortBegin { s with inputs := i })
  | tick (i : List Inputs) (busy : s.busy = true) (aborting : s.aborting = false) (result : tick { s with inputs := i } = .next t)
  | issued (i : List Inputs) (e : Encoded) (rest : List Encoded) (c : Instr) (busy : s.busy = false) (port : s.port = e :: rest)
      (decoded : decode e = .ok c) (result : exec c { s with inputs := i, port := rest } = .next t)
  | issuedIllegal (i : List Inputs) (w : CmdWord) (rest : List Encoded) (busy : s.busy = false) (port : s.port = .cmd w :: rest)
      (result : t = raiseIllegal w { s with inputs := i, port := rest })
  | acceptance (i : List Inputs) (n p : Nat) (h : HeldWrite) (c : Instr) (busy : s.busy = false) (port : s.port = [])
      (held : s.held[n]? = some h) (decoded : decodeCmd h.word = .ok c)
      (result : t = accept c h.word { s with inputs := i, held := s.held.eraseIdx n, picks := p })
  | rejection (i : List Inputs) (n p : Nat) (h : HeldWrite) (busy : s.busy = false) (port : s.port = [])
      (held : s.held[n]? = some h)
      (result : t = raiseIllegal h.word { s with inputs := i, held := s.held.eraseIdx n, picks := p })
  | written (i : List Inputs) (w : CmdWord) (c : Instr) (busy : s.busy = false) (held : s.held = []) (decoded : decodeCmd w = .ok c)
      (result : t = accept c w { s with inputs := i })
  | writtenIllegal (i : List Inputs) (w : CmdWord) (busy : s.busy = false) (held : s.held = [])
      (result : t = raiseIllegal w { s with inputs := i })
  | outside (i : List Inputs) (hd : List HeldWrite) (v : CmdWord) (more : s.held <+: hd)
      (atMostOne : hd.length ≤ s.held.length + 1) (result : t = { s with inputs := i, held := hd, hostData := v })

theorem runPort_kind {s t : State} {i : List Inputs} {e : Encoded} {rest : List Encoded} (hb : s.busy = false)
    (hp : s.port = e :: rest) (h : runPort e { s with inputs := i, port := rest } = .next t) : StepKind s t := by
  unfold runPort at h
  split at h
  · exact .issued i e rest _ hb hp ‹_› h
  · split at h
    · cases h
      exact .issuedIllegal i _ rest hb hp rfl
    · cases h

theorem idleStep_kind {s t : State} {i : List Inputs} (hb : s.busy = false) (h : idleStep { s with inputs := i } = .next t) :
    StepKind s t := by
  unfold idleStep at h
  split at h
  · exact runPort_kind hb ‹_› h
  · rename_i hp
    split at h
    · rename_i w u hu
      obtain ⟨n, ⟨hw, hn, rfl⟩, hx⟩ := takeHeld_some hu
      rw [hx] at h
      cases h
      unfold acceptWord
      split
      · exact .acceptance i n _ hw _ hb hp hn ‹_› rfl
      · exact .rejection i n _ hw hb hp hn rfl
    · cases h
      exact .outside i s.held s.hostData (List.prefix_refl _) (Nat.le_succ _) rfl

theorem blockStep_kind {s t : State} {i : List Inputs} (ha : s.aborting = false)
    (h : blockStep { s with inputs := i } = .next t) : StepKind s t := by
  unfold blockStep at h
  split at h
  · exact .tick i ‹_› ha h
  · exact idleStep_kind (Bool.not_eq_true _ ▸ ‹¬_›) h

theorem hostCommand_kind {s : State} (g : Nat) (w : CmdWord) (i : List Inputs) :
    StepKind s (hostCommand g w { s with inputs := i }) := by
  unfold hostCommand
  split
  · exact .outside i _ s.hostData (List.prefix_append _ _) (by simp) rfl
  · rename_i h
    simp only [Bool.or_eq_true, Bool.not_eq_true', not_or, Bool.not_eq_true, Bool.not_eq_false, List.isEmpty_iff] at h
    unfold acceptWord
    split
    · exact .written i w _ h.1 h.2 ‹_› rfl
    · exact .writtenIllegal i w h.1 h.2 rfl

theorem hostAccess_kind {s t : State} {a : AgentAccess} {i : List Inputs} (h : hostAccess a { s with inputs := i } = .next t) :
    StepKind s t := by
  unfold hostAccess at h
  split at h
  · split at h
    · split at h
      · cases h
        exact hostCommand_kind _ _ i
      · cases h
    · cases h
      exact .outside i s.held s.hostData (List.prefix_refl _) (Nat.le_succ _) rfl
  · split at h
    · cases h
      exact .outside i s.held _ (List.prefix_refl _) (Nat.le_succ _) rfl
    · cases h

/-- A boundary that answers a next state is of one of the kinds; it asserts RESET only where the schedule does. -/
theorem boundaryStep_kind {s t : State} {x : Inputs} {rest : List Inputs}
    (hx : s.inputs = x :: rest ∨ (s.inputs = [] ∧ x = {})) (h : boundaryStep x rest s = .next t) : StepKind s t := by
  unfold boundaryStep at h
  split at h
  · cases h
    rcases hx with hx | ⟨-, rfl⟩
    · exact .reset x rest _ hx ‹_› rfl
    · contradiction
  · rename_i hr
    split at h
    · cases h
      refine .abortGoesOn _ ‹_› ?_ rfl
      rintro y later hy
      rcases hx with hx | ⟨hx, -⟩ <;> rw [hx] at hy <;> cases hy
      simpa using hr
    · rename_i ha
      have ha' : s.aborting = false := by simpa using ha
      split at h
      · rename_i hxb
        cases h
        exact .abortBegins _ (Bool.and_eq_true _ _ ▸ hxb).2 rfl
      · split at h
        · split at h
          · exact blockStep_kind ha' h
          · exact hostAccess_kind h
        · exact blockStep_kind ha' h

/-- A step that answers a next state is of one of the kinds. -/
theorem step_kind {s t : State} (h : step s = .next t) : StepKind s t := by
  unfold step advance at h
  split at h
  · exact boundaryStep_kind (.inr ⟨‹_›, rfl⟩) h
  · exact boundaryStep_kind (.inl ‹_›) h

/-- A frame on the idle block is its own list, run alone. -/
theorem exec_of_decodeFrame {b0 b1 : Byte} {i : Instr} {s : State} (h : decodeFrame b0 b1 = .ok i) (hb : s.busy = false) :
    exec i s = runSlots (slotsOf s.params i) s := by
  have hn := isCommand_of_decodeFrame h
  cases i with
  | xfer b => cases hn
  | wrreg a v => cases hn
  | rdreg a => cases hn
  | probe => cases hn
  | frameWrite r v => exact issueFrame_idle hb
  | frameRead r => exact issueFrame_idle hb

end Sys2Proof.Machine
end

