-- ==== Sys2Proof/Laws/View.lean ====
section
/-! SUPPORT. An event list seen from its views: every event of every list finds what it needs, and a performed event leaves the
state where the next view says. -/

namespace Sys2Proof.Machine

/-- The view gives the event what it needs: a loaded engine, a free guard, an identified link; and data-out is driven with the
clock low. -/
def Prim.fits (p : Prim) (v : View) : Bool :=
  match p with
  | .chipSelect _ => true
  | .driveBit => v.loaded && !v.sclk
  | .clock _ => true
  | .sampleBit => v.loaded
  | .wait _ => true
  | .guardAcquire => !v.guard
  | .guardRelease => true
  | .reportVersion => v.identified

/-- The view gives the assignment what it needs. -/
def Assign.fits (a : Assign) (v : View) : Bool :=
  match a with
  | .load _ => true
  | .sampleNone => v.loaded
  | .shiftBit => v.loaded && decide (v.cnt < 8)
  | .latchResult => v.loaded
  | .linkReset => true
  | .identify => v.loaded

def assignsFit : List Assign → View → Bool
  | [], _ => true
  | a :: as, v => a.fits v && assignsFit as (a.view v)

def Slot.fits (x : Slot) (v : View) : Bool := x.prim.fits v && assignsFit x.assigns (x.prim.view v)

/-- Every event of the list fits where it comes, and the list ends with the lines at rest. -/
def listFits : List Slot → View → Bool
  | [], v => !v.guard && v.csN && !v.sclk
  | x :: xs, v => x.fits v && listFits xs (x.view v)

set_option maxRecDepth 20000 in
/-- The lists of all instructions fit from the idle view. -/
theorem slotsOf_fits (p : Params) (c : Instr) : listFits (slotsOf p c) View.start = true := by
  cases c <;>
    simp only [slotsOf, xferSlots, wrregSlots, rdregSlots, probeSlots, writeTransaction, readTransaction] <;>
    cases p.capture <;> rfl

/-- Lines, guard and engine registers stand where the view says, and `BITCNT` is at most 8. -/
structure Stands (s : State) (v : View) : Prop where
  agrees : Agrees s v
  bits : ∀ n, s.bitCnt = some n → n ≤ 8

theorem performPrim_stands {p : Prim} {s : State} {v : View} (h : Stands s v) (hf : p.fits v = true) :
    ∃ t, performPrim p s = .next t ∧ Stands t (p.view v) := by
  obtain ⟨⟨h1, h2, h3, hm, h4, h5, h6, h7⟩, h8⟩ := h
  cases p with
  | chipSelect l => exact ⟨_, rfl, ⟨h1, rfl, h3, hm, h4, h5, h6, h7⟩, h8⟩
  | driveBit =>
    have hw := h4 (Bool.and_eq_true _ _ ▸ hf).1
    exact ⟨_, driveBit_eq_next.2 ⟨v.out, hw, rfl⟩, ⟨h1, h2, h3, fun l hl => Option.some.inj hl, h4, h5, h6, h7⟩, h8⟩
  | clock l => exact ⟨_, rfl, ⟨h1, h2, rfl, hm, h4, h5, h6, h7⟩, h8⟩
  | sampleBit =>
    obtain ⟨w, hw⟩ := Option.isSome_iff_exists.1 (h5 hf)
    refine ⟨_, sampleBit_eq_next.2 ⟨w, hw, rfl⟩, ?_⟩
    obtain ⟨ms, n, hr⟩ := readDataIn_sample s
    rw [hr]
    exact ⟨⟨h1, h2, h3, hm, h4, fun _ => rfl, h6, h7⟩, h8⟩
  | wait k => exact ⟨_, rfl, ⟨h1, h2, h3, hm, h4, h5, h6, h7⟩, h8⟩
  | guardAcquire =>
    have hg : s.guard = false := h1.trans (by simpa [Prim.fits] using hf)
    exact ⟨_, guardAcquire_eq_next.2 ⟨hg, rfl⟩, ⟨rfl, h2, h3, hm, h4, h5, h6, h7⟩, h8⟩
  | guardRelease => exact ⟨_, rfl, ⟨rfl, h2, h3, hm, h4, h5, h6, h7⟩, h8⟩
  | reportVersion =>
    obtain ⟨w, hw⟩ := Option.isSome_iff_exists.1 (h7 hf)
    exact ⟨_, reportVersion_eq_next.2 ⟨w, hw, rfl⟩, ⟨h1, h2, h3, hm, h4, h5, h6, h7⟩, h8⟩

theorem performAssign_stands {a : Assign} {s : State} {v : View} (h : Stands s v) (hf : a.fits v = true) :
    ∃ t, performAssign a s = .next t ∧ Stands t (a.view v) := by
  obtain ⟨⟨h1, h2, h3, hm, h4, h5, h6, h7⟩, h8⟩ := h
  cases a with
  | load b =>
    exact ⟨_, rfl, ⟨h1, h2, h3, hm, fun _ => rfl, fun _ => rfl, fun _ => rfl, h7⟩, fun n hn => by cases hn; omega⟩
  | sampleNone =>
    obtain ⟨w, hw⟩ := Option.isSome_iff_exists.1 (h5 hf)
    exact ⟨_, sampleBit_eq_next.2 ⟨w, hw, rfl⟩, ⟨h1, h2, h3, hm, h4, fun _ => rfl, h6, h7⟩, h8⟩
  | shiftBit =>
    simp only [Assign.fits, Bool.and_eq_true, decide_eq_true_eq] at hf
    exact ⟨_, shiftBit_eq_next.2 ⟨v.out, v.cnt, h4 hf.1, h6 hf.1, rfl⟩, ⟨h1, h2, h3, hm, fun _ => rfl, h5, fun _ => rfl, h7⟩,
      fun n hn => by cases hn; omega⟩
  | latchResult =>
    obtain ⟨w, hw⟩ := Option.isSome_iff_exists.1 (h5 hf)
    exact ⟨_, latchResult_eq_next.2 ⟨w, hw, rfl⟩, ⟨h1, h2, h3, hm, h4, h5, h6, h7⟩, h8⟩
  | linkReset => exact ⟨_, rfl, ⟨h1, h2, h3, hm, h4, h5, h6, fun h => by cases h⟩, h8⟩
  | identify =>
    obtain ⟨w, hw⟩ := Option.isSome_iff_exists.1 (h5 hf)
    exact ⟨_, identify_eq_next.2 ⟨w, hw, rfl⟩, ⟨h1, h2, h3, hm, h4, h5, h6, fun _ => rfl⟩, h8⟩

theorem performAssigns_stands {as : List Assign} {s : State} {v : View} (h : Stands s v) (hf : assignsFit as v = true) :
    ∃ t, performAssigns as s = .next t ∧ Stands t (as.foldl (fun v a => a.view v) v) := by
  induction as generalizing s v with
  | nil => exact ⟨s, rfl, h⟩
  | cons a as ih =>
    simp only [assignsFit, Bool.and_eq_true] at hf
    obtain ⟨t, ht, h'⟩ := performAssign_stands h hf.1
    obtain ⟨u, hu, h''⟩ := ih h' hf.2
    exact ⟨u, by rw [performAssigns_cons, ht, andThen_next, hu], h''⟩

/-- A slot that fits is performed and leaves the state at its view. -/
theorem performSlot_stands {x : Slot} {s : State} {v : View} (h : Stands s v) (hf : x.fits v = true) :
    ∃ t, performSlot x s = .next t ∧ Stands t (x.view v) := by
  simp only [Slot.fits, Bool.and_eq_true] at hf
  obtain ⟨t, ht, h'⟩ := performPrim_stands h hf.1
  obtain ⟨u, hu, h''⟩ := performAssigns_stands h' hf.2
  exact ⟨u, by rw [performSlot, ht, andThen_next, hu], h''⟩

/-- A list that fits runs to its end. -/
theorem runSlots_stands {xs : List Slot} {s : State} {v : View} (h : Stands s v) (hf : listFits xs v = true) :
    ∃ t, runSlots xs s = .next t ∧ Stands t (xs.foldl Slot.view v) := by
  induction xs generalizing s v with
  | nil => exact ⟨s, rfl, h⟩
  | cons x xs ih =>
    simp only [listFits, Bool.and_eq_true] at hf
    obtain ⟨t, ht, h'⟩ := performSlot_stands h hf.1
    obtain ⟨u, hu, h''⟩ := ih h' hf.2
    exact ⟨u, by rw [runSlots_cons, ht, andThen_next, hu], h''⟩

/-- In a list that fits, the slot at k fits the view before it. -/
theorem fits_at {xs : List Slot} {v : View} (hf : listFits xs v = true) {k : Nat} {x : Slot} (hx : xs[k]? = some x) :
    x.fits ((xs.take k).foldl Slot.view v) = true := by
  induction xs generalizing v k with
  | nil => simp at hx
  | cons y xs ih =>
    simp only [listFits, Bool.and_eq_true] at hf
    cases k with
    | zero =>
      cases hx
      exact hf.1
    | succ k => exact ih hf.2 hx

/-- A list that fits ends with the guard free, chip-select high and the clock low. -/
theorem fits_end {xs : List Slot} {v : View} (hf : listFits xs v = true) :
    (xs.foldl Slot.view v).guard = false ∧ (xs.foldl Slot.view v).csN = true ∧
      (xs.foldl Slot.view v).sclk = false := by
  induction xs generalizing v with
  | nil => simpa [listFits, and_assoc] using hf
  | cons y xs ih =>
    simp only [listFits, Bool.and_eq_true] at hf
    exact ih hf.2

/-- The view after one more event. -/
theorem viewAt_succ {p : Params} {c : Instr} {k : Nat} {x : Slot} (hx : (slotsOf p c)[k]? = some x) :
    viewAt p c (k + 1) = x.view (viewAt p c k) := by
  unfold viewAt
  rw [List.take_add_one, hx, List.foldl_append]
  rfl

/-! No instruction reads a register without a value. -/

/-- What an event or an assignment may read has a value: the engine registers once a byte is loaded, the version once it is read. -/
structure Holds (s : State) (v : View) : Prop where
  srOut : v.loaded = true → s.srOut.isSome = true
  srIn : v.loaded = true → s.srIn.isSome = true
  bitCnt : v.loaded = true → s.bitCnt.isSome = true
  link : v.identified = true → s.link.version.isSome = true

/-- Whatever the state, an event that fits never reads a register without a value: it is performed, or the guard is nested. -/
theorem performPrim_holds {p : Prim} {s : State} {v : View} (h : Holds s v) (hf : p.fits v = true) :
    performPrim p s = .fault .guardNested ∨ ∃ t, performPrim p s = .next t ∧ Holds t (p.view v) := by
  obtain ⟨h1, h2, h3, h4⟩ := h
  cases p with
  | chipSelect l => exact .inr ⟨_, rfl, h1, h2, h3, h4⟩
  | driveBit =>
    obtain ⟨w, hw⟩ := Option.isSome_iff_exists.1 (h1 (Bool.and_eq_true _ _ ▸ hf).1)
    exact .inr ⟨_, driveBit_eq_next.2 ⟨w, hw, rfl⟩, h1, h2, h3, h4⟩
  | clock l => exact .inr ⟨_, rfl, h1, h2, h3, h4⟩
  | sampleBit =>
    obtain ⟨w, hw⟩ := Option.isSome_iff_exists.1 (h2 hf)
    refine .inr ⟨_, sampleBit_eq_next.2 ⟨w, hw, rfl⟩, ?_⟩
    obtain ⟨ms, n, hr⟩ := readDataIn_sample s
    rw [hr]
    exact ⟨h1, fun _ => rfl, h3, h4⟩
  | wait k => exact .inr ⟨_, rfl, h1, h2, h3, h4⟩
  | guardAcquire =>
    cases hg : s.guard with
    | true => exact .inl (by simp [performPrim, guardAcquire, hg])
    | false => exact .inr ⟨_, guardAcquire_eq_next.2 ⟨hg, rfl⟩, h1, h2, h3, h4⟩
  | guardRelease => exact .inr ⟨_, rfl, h1, h2, h3, h4⟩
  | reportVersion =>
    obtain ⟨w, hw⟩ := Option.isSome_iff_exists.1 (h4 hf)
    exact .inr ⟨_, reportVersion_eq_next.2 ⟨w, hw, rfl⟩, h1, h2, h3, h4⟩

theorem performAssign_holds {a : Assign} {s : State} {v : View} (h : Holds s v) (hf : a.fits v = true) :
    ∃ t, performAssign a s = .next t ∧ Holds t (a.view v) := by
  obtain ⟨h1, h2, h3, h4⟩ := h
  cases a with
  | load b => exact ⟨_, rfl, fun _ => rfl, fun _ => rfl, fun _ => rfl, h4⟩
  | sampleNone =>
    obtain ⟨w, hw⟩ := Option.isSome_iff_exists.1 (h2 hf)
    exact ⟨_, sampleBit_eq_next.2 ⟨w, hw, rfl⟩, h1, fun _ => rfl, h3, h4⟩
  | shiftBit =>
    have hl := (Bool.and_eq_true _ _ ▸ hf).1
    obtain ⟨w, hw⟩ := Option.isSome_iff_exists.1 (h1 hl)
    obtain ⟨n, hn⟩ := Option.isSome_iff_exists.1 (h3 hl)
    exact ⟨_, shiftBit_eq_next.2 ⟨w, n, hw, hn, rfl⟩, fun _ => rfl, h2, fun _ => rfl, h4⟩
  | latchResult =>
    obtain ⟨w, hw⟩ := Option.isSome_iff_exists.1 (h2 hf)
    exact ⟨_, latchResult_eq_next.2 ⟨w, hw, rfl⟩, h1, h2, h3, h4⟩
  | linkReset => exact ⟨_, rfl, h1, h2, h3, fun h => by cases h⟩
  | identify =>
    obtain ⟨w, hw⟩ := Option.isSome_iff_exists.1 (h2 hf)
    exact ⟨_, identify_eq_next.2 ⟨w, hw, rfl⟩, h1, h2, h3, fun _ => rfl⟩

theorem performAssigns_holds {as : List Assign} {s : State} {v : View} (h : Holds s v) (hf : assignsFit as v = true) :
    ∃ t, performAssigns as s = .next t ∧ Holds t (as.foldl (fun v a => a.view v) v) := by
  induction as generalizing s v with
  | nil => exact ⟨s, rfl, h⟩
  | cons a as ih =>
    simp only [assignsFit, Bool.and_eq_true] at hf
    obtain ⟨t, ht, h'⟩ := performAssign_holds h hf.1
    obtain ⟨u, hu, h''⟩ := ih h' hf.2
    exact ⟨u, by rw [performAssigns_cons, ht, andThen_next, hu], h''⟩

theorem runSlots_holds {xs : List Slot} {s : State} {v : View} (h : Holds s v) (hf : listFits xs v = true) :
    runSlots xs s = .fault .guardNested ∨ ∃ t, runSlots xs s = .next t := by
  induction xs generalizing s v with
  | nil => exact .inr ⟨s, rfl⟩
  | cons x xs ih =>
    simp only [listFits, Slot.fits, Bool.and_eq_true] at hf
    rw [runSlots_cons, performSlot]
    obtain ht | ⟨t, ht, h'⟩ := performPrim_holds h hf.1.1
    · exact .inl (by rw [ht]; rfl)
    · obtain ⟨u, hu, h''⟩ := performAssigns_holds h' hf.1.2
      rw [ht, andThen_next, hu, andThen_next]
      exact ih h'' hf.2

theorem holds_start (s : State) : Holds s View.start where
  srOut h := nomatch h
  srIn h := nomatch h
  bitCnt h := nomatch h
  link h := nomatch h

/-- In every state an instruction completes, or nests a guard that was held: none ever reads a register without a value. -/
theorem exec_next_or_guardNested (i : Instr) (s : State) :
    exec i s = .fault .guardNested ∨ ∃ t, exec i s = .next t := by
  have run (u : State) : runSlots (slotsOf s.params i) u = .fault .guardNested ∨
      ∃ t, runSlots (slotsOf s.params i) u = .next t :=
    runSlots_holds (holds_start u) (slotsOf_fits s.params i)
  have cmd (w : CmdWord) : issueCommand i w (slotsOf s.params i) s = .fault .guardNested ∨
      ∃ t, issueCommand i w (slotsOf s.params i) s = .next t := by
    unfold issueCommand
    split
    · exact .inr ⟨_, rfl⟩
    · obtain h | ⟨t, h⟩ := run (accept i w s) <;> rw [h]
      · exact .inl rfl
      · exact .inr ⟨_, rfl⟩
  have frame (b0 b1 : Byte) : issueFrame b0 b1 (slotsOf s.params i) s = .fault .guardNested ∨
      ∃ t, issueFrame b0 b1 (slotsOf s.params i) s = .next t := by
    unfold issueFrame
    split
    · exact .inr ⟨_, rfl⟩
    · exact run s
  cases i with
  | xfer b => exact cmd _
  | wrreg a v => exact cmd _
  | rdreg a => exact cmd _
  | probe => exact cmd _
  | frameWrite r v => exact frame _ _
  | frameRead r => exact frame _ _

theorem exec_ne_unwrittenRead (i : Instr) (s : State) (r : ValueReg) : exec i s ≠ .fault (.unwrittenRead r) := by
  obtain h | ⟨t, h⟩ := exec_next_or_guardNested i s <;> rw [h] <;> simp

end Sys2Proof.Machine
end

