-- ==== Sys2Proof/Tests/Slice0.lean ====
section
/-! SUPPORT. Tests of the model against the spec's own vectors (95_test_vectors.md V1 to V108, named in each docstring), the smoke
tests of the well-formedness checks, and a witness for the hypotheses of each statement. -/

namespace Sys2Proof.Machine

/-! A bench: the test instance of 95_test_vectors.md, after power-on, with the target's answers given. -/

def testParams (cap : Capture) : Params := ⟨⟨1, 2, 3, 4⟩, 2, 5, 0, 0, 100, 0x01#7, 0x0F#8, 0x37#7, cap⟩

def bench (cap : Capture) (answers : List Level) : State := { State.powerOn (testParams cap) with misoIn := answers }

/-- "MISO spells x" in the byte after n discarded ones, whose answers are any value. -/
def spells (n : Nat) (x : Byte) : List Level := List.replicate (8 * n) true ++ bitsMsbFirst x

/-- The outcome is a next state, and the check holds of it. -/
def ends (o : Out) (check : State → Bool) : Bool :=
  match o with
  | .next t => check t
  | .fault _ => false
  | .refused _ => false

/-- WRREG 0x2A, 0x55 after its event of index 5, `CK(1)` of bit 7 (V41, V105). -/
def wrregMidBit : State :=
  { bench .sample [] with
    srOut := some 0x2A#8, srIn := some 0x00#8, bitCnt := some 0, phase := .run (.wrreg 0x2A#7 0x55#8) 6, busy := true,
    curCmd := some 0x202A55#24, sclk := true, csN := false, guard := true,
    trace := [.cs false, .wait .csLead, .guardAcq, .dout false, .wait .bitSettle, .ck true] }

/-- XFER 0xFF after its event of index 0, `GUARD_ACQ`. -/
def xferAfterAcquire : State :=
  { bench .sample [] with
    srOut := some 0xFF#8, srIn := some 0x00#8, bitCnt := some 0, phase := .run (.xfer 0xFF#8) 1, busy := true,
    curCmd := some 0x1000FF#24, guard := true, trace := [.guardAcq] }

/-- RDREG 0x10 in the chip-select lead: running outside the guard. -/
def rdregInLead : State :=
  { bench .sample [] with
    phase := .run (.rdreg 0x10#7) 1, busy := true, curCmd := some 0x301000#24, csN := false, trace := [.cs false] }

/-! Well-formedness: each check refuses an ill-formed term. -/

theorem test_byte_above_range : byteInRange 256 = false ∧ byteInRange 255 = true := by decide
theorem test_byte_negative : byteInRange (-1) = false ∧ byteInRange 0 = true := by decide
theorem test_addr_above_range : addrInRange 128 = false ∧ addrInRange 127 = true := by decide
theorem test_addr_negative : addrInRange (-1) = false ∧ addrInRange 0 = true := by decide
theorem test_word_above_range : wordInRange 0x1000000 = false ∧ wordInRange 0xFFFFFF = true := by decide
theorem test_word_negative : wordInRange (-1) = false := by decide
theorem test_line_xfer_refused : AsmLine.wellFormed (.xfer 256) = false := by decide
theorem test_line_wrreg_addr_refused : AsmLine.wellFormed (.wrreg 0x80 0) = false := by decide
theorem test_line_wrreg_value_refused : AsmLine.wellFormed (.wrreg 0 256) = false := by decide
theorem test_line_rdreg_refused : AsmLine.wellFormed (.rdreg 128) = false := by decide
theorem test_line_word_refused : AsmLine.wellFormed (.word (-1)) = false := by decide
theorem test_shared_pin_refused :
    Params.wellFormed { testParams .sample with pins := ⟨1, 2, 1, 4⟩ } = false ∧
      (testParams .sample).wellFormed = true := by decide

/-! Decoding: words written out from the spec's patterns (V20 to V37, R72, R73). -/

theorem test_decode_xfer :
    decodeCmd 0x100000#24 = .ok (.xfer 0x00#8) ∧ decodeCmd 0b000100000000000011111111#24 = .ok (.xfer 0xFF#8) := by decide
theorem test_decode_wrreg :
    decodeCmd 0x200000#24 = .ok (.wrreg 0x00#7 0x00#8) ∧
      decodeCmd 0b001000000111111111111111#24 = .ok (.wrreg 0x7F#7 0xFF#8) ∧
      decodeCmd 0x20010F#24 = .ok (.wrreg 0x01#7 0x0F#8) := by decide
theorem test_decode_rdreg :
    decodeCmd 0x300000#24 = .ok (.rdreg 0x00#7) ∧ decodeCmd 0b001100000111111100000000#24 = .ok (.rdreg 0x7F#7) := by decide
theorem test_decode_probe : decodeCmd 0b010000000000000000000000#24 = .ok .probe := by decide
theorem test_decode_frame_write : decodeFrame 0b00000001#8 0x0F#8 = .ok (.frameWrite 0x01#7 0x0F#8) := by decide
theorem test_decode_frame_read : decodeFrame 0b10000001#8 0x00#8 = .ok (.frameRead 0x01#7) := by decide
theorem test_decode_illegal :
    [0x000000#24, 0x100100#24, 0x108000#24, 0x180000#24, 0x208000#24, 0x300001#24, 0x400001#24, 0x400100#24, 0x500000#24,
      0xF00000#24, 0xFFFFFF#24].all (fun w => match decodeCmd w with | .ok _ => false | .error _ => !legal w) = true := by
  decide
theorem test_decode_table :
    decodeTableWord 24 0x207FFF = some (.wrreg 0x7F#7 0xFF#8) ∧ decodeTableWord 24 0x500000 = none ∧
      decodeTableWord 8 0x37 = some (.frameWrite 0x37#7 0x00#8) ∧ decodeTableWord 8 0xB7 = some (.frameRead 0x37#7) ∧
      decodeTableWord 16 0x0F01 = some (.frameWrite 0x01#7 0x0F#8) := by decide

/-! Assembly (30_encoding.md R77 to R80). -/

theorem test_assemble_errors :
    assembleProgram (testParams .sample) ["WRREG 0x80, 0x00"] = none ∧
      assembleProgram (testParams .sample) ["RDREG 128"] = none ∧
      assembleProgram (testParams .sample) ["XFER 256"] = none ∧
      assembleProgram (testParams .sample) ["XFER -1"] = none := by decide +kernel
/-- The words of P1 and P3, with a comment, an empty line, binary and decimal numbers. -/
theorem test_assemble_program :
    assembleProgram (testParams .sample)
      ["WRREG 0x01, 0x0F      ; 0x20010F", "", "RDREG 1", "XFER 0b10110100", ".word 0x500000", "WRREG 0x7F, 0x80", "PROBE"] =
      some [0x20010F#24, 0x300100#24, 0x1000B4#24, 0x500000#24, 0x207F80#24, 0x400000#24] := by decide +kernel
/-- V80 and P2: the pseudo-instructions with the test parameters. -/
theorem test_assemble_pseudos :
    assembleProgram (testParams .sample) ["SOFTRESET", "RDVER"] = some [0x20010F#24, 0x303700#24] := by decide +kernel

/-! Instructions. -/

/-- V50. -/
theorem test_xfer_B4 :
    ends (exec (.xfer 0xB4#8) (bench .sample (spells 0 0x5A#8))) (fun t =>
      t.rdata == some 0x5A#8 && t.mosi == false && t.trace.length == 58 && t.status == 0x08#8 &&
        dataOutLevels t.trace == [true, false, true, true, false, true, false, false]) = true := by decide +kernel
/-- V55: `XFER 0xA5` under `NONE`. -/
theorem test_xfer_A5_none :
    ends (exec (.xfer 0xA5#8) (bench .none [])) (fun t =>
      t.rdata == some 0x00#8 && t.mosi == true && t.trace.length == 50 && t.csN == true) = true := by decide +kernel
/-- V73. -/
theorem test_wrreg_01_0F :
    ends (exec (.wrreg 0x01#7 0x0F#8) (bench .sample (spells 0 0xFF#8))) (fun t =>
      t.rdata == none && t.mosi == true && t.trace.length == 120 && t.status == 0x00#8 &&
        dataOutLevels t.trace == bitsMsbFirst 0x01#8 ++ bitsMsbFirst 0x0F#8) = true := by decide +kernel
/-- V78: WRREG keeps an earlier result. -/
theorem test_wrreg_keeps_result :
    ends (exec (.wrreg 0x05#7 0x00#8) { bench .sample [] with rdata := some 0x5A#8 }) (fun t =>
      t.rdata == some 0x5A#8 && t.status == 0x08#8 && t.mosi == false) = true := by decide +kernel
/-- V74. -/
theorem test_rdreg_00 :
    ends (exec (.rdreg 0x00#7) (bench .sample (spells 1 0xA5#8))) (fun t =>
      t.rdata == some 0xA5#8 && t.mosi == false && t.status == 0x08#8 &&
        dataOutLevels t.trace == bitsMsbFirst 0x80#8 ++ bitsMsbFirst 0x00#8) = true := by decide +kernel
/-- V77: `RDREG 0x01` under `NONE`. -/
theorem test_rdreg_none :
    ends (exec (.rdreg 0x01#7) (bench .none [])) (fun t =>
      t.rdata == some 0x00#8 && t.trace.length == 104 && dataInLevels t.trace == []) = true := by decide +kernel
/-- V95. -/
theorem test_probe_0A :
    ends (exec .probe (bench .sample (spells 3 0x0A#8))) (fun t =>
      t.link == .identified 0x0A#8 && t.rdata == some 0x0A#8 && t.status == 0x28#8 && t.trace.length == 242 &&
        t.sinkLog == [⟨"identification byte: 0x0A", .plausible⟩]) = true := by decide +kernel
/-- V91. -/
theorem test_probe_FF :
    ends (exec .probe (bench .sample (spells 3 0xFF#8))) (fun t =>
      t.status == 0x68#8 && t.sinkLog == [⟨"identification byte: 0xFF", .linkFault⟩]) = true := by decide +kernel
/-- R72: the two bytes of a write frame on the wire. -/
theorem test_frame_write :
    ends (exec (.frameWrite 0x37#7 0x5A#8) (bench .sample [])) (fun t =>
      dataOutLevels t.trace == bitsMsbFirst 0x37#8 ++ bitsMsbFirst 0x5A#8 && t.rdata == none && t.csN == true) = true := by
  decide +kernel
/-- R73: the two bytes of a read frame, and the byte sampled during the second. -/
theorem test_frame_read :
    ends (exec (.frameRead 0x37#7) (bench .sample (spells 1 0xC3#8))) (fun t =>
      dataOutLevels t.trace == bitsMsbFirst 0xB7#8 ++ bitsMsbFirst 0x00#8 && t.srIn == some 0xC3#8 && t.rdata == none) = true := by
  decide +kernel

/-! The step. -/

theorem test_fetch_xfer_runs :
    ends (step (State.reset.withFetchWord 24 0x1000FF)) (fun t => t.mosi == true && t.curCmd == some 0x1000FF#24) = true := by
  decide +kernel
/-- R20: acceptance is a step of its own, also where nothing is to come. -/
theorem test_acceptance_is_a_step :
    ends (step { bench .sample [] with held := [⟨0, 0x400000#24⟩] }) (fun t =>
      t.busy && t.phase == .run .probe 0 && t.trace == [] && t.curCmd == some 0x400000#24) = true := by decide +kernel
/-- V20: the illegal word written to the block in its reset state. -/
theorem test_illegal_word :
    ends (step { bench .sample [] with inputs := [{ host := some ⟨0, .write 0#2 24 0x000000#24⟩ }] }) (fun t =>
      t.status == 0x02#8 && t.trace == [] && t.illegalLog == [0x000000#24]) = true := by decide +kernel
/-- V102: a write while `BUSY` = 1 is held. -/
theorem test_write_held :
    ends (step { rdregInLead with inputs := [{ host := some ⟨0, .write 0#2 24 0x200301#24⟩ }] }) (fun t =>
      t.held == [⟨0, 0x200301#24⟩] && t.curCmd == some 0x301000#24 && t.trace == rdregInLead.trace) = true := by decide +kernel
/-- V41: ABORT after index 5 begins with `GUARD_REL`. -/
theorem test_abort_begins :
    ends (step { wrregMidBit with inputs := [{ abort := true }] }) (fun t =>
      t.trace == wrregMidBit.trace ++ [.guardRel] && t.aborting && t.busy) = true := by decide +kernel
/-- V43: nothing left to restore, so `ABORT` with its effects. -/
theorem test_abort_ends :
    ends (step { wrregMidBit with aborting := true, guard := false, sclk := false, csN := true }) (fun t =>
      t.trace == wrregMidBit.trace ++ [.abort] && t.status == 0x04#8 && t.mosi == false && t.srOut == none) = true := by
  decide +kernel
/-- V104: ABORT while idle. -/
theorem test_abort_idle :
    ends (step { bench .sample [] with inputs := [{ abort := true }] }) (fun t => t.trace == [] && t.status == 0x00#8) = true := by
  decide +kernel
/-- V105: RESET after index 5. -/
theorem test_reset_mid_transaction :
    ends (step { wrregMidBit with illegal := true, inputs := [{ reset := true }] }) (fun t =>
      t.trace == wrregMidBit.trace ++ [.guardRel, .ck false, .cs true, .dout false, .reset] && t.status == 0x00#8) = true := by
  decide +kernel
/-- V107: RESET inside an abort sequence, after its `GUARD_REL`. -/
theorem test_reset_cuts_abort :
    ends (step { wrregMidBit with aborting := true, guard := false, inputs := [{ reset := true, abort := true }] }) (fun t =>
      t.trace == wrregMidBit.trace ++ [.ck false, .cs true, .dout false, .reset] && t.aborted == false && !t.aborting) = true := by
  decide +kernel
/-- P4: a model read of `RDATA` with no value is `UnwrittenRead(RDATA)`. -/
theorem test_read_rdata_faults :
    step { bench .sample [] with inputs := [{ host := some ⟨0, .read 2#2⟩ }] } = .fault (.unwrittenRead .rdata) := rfl
/-- R41: a read of `STATUS` while a command runs. -/
theorem test_read_status_busy :
    ends (step { rdregInLead with inputs := [{ host := some ⟨0, .read 1#2⟩ }] }) (fun t => t.hostData == 0x01#24 && t.busy) = true := by
  decide +kernel
/-- V10: `P_T_BIT_SETTLE` = 2 and `P_T_HALF` = 5 hold the guard for at least 96 microseconds. -/
theorem test_guard_hold : minMicros (testParams .sample) (byteEvents .sample 0x00#8 0x00#8) = 96 := by decide +kernel

/-! Witnesses: for each statement with hypotheses, a concrete state and operands that meet them. -/

/-- The idle bench is ready, in both capture modes. -/
theorem bench_ready (cap : Capture) (answers : List Level) : Ready (bench cap answers) := ⟨rfl, rfl⟩

theorem witness_EncodeOfDecode :
    decode (.cmd 0x207FFF#24) = .ok (.wrreg 0x7F#7 0xFF#8) ∧ decode (.frame 0xFF#8 0x00#8) = .ok (.frameRead 0x7F#7) := by decide
theorem witness_DecodeFollowsTheRows :
    0x1000FF#24 &&& 0xFFFF00#24 = 0x100000#24 ∧ 0x207FFF#24 &&& 0xFF8000#24 = 0x200000#24 ∧
      0x307F00#24 &&& 0xFF80FF#24 = 0x300000#24 ∧ 0x400000#24 &&& 0xFFFFFF#24 = 0x400000#24 ∧
      legal 0x208000#24 = false := by decide
theorem witness_AssemblerNeverMasks :
    assemble (testParams .sample) (.xfer (-1)) = none ∧ assemble (testParams .sample) (.xfer 256) = none ∧
      assemble (testParams .sample) (.xfer 255) = some 0x1000FF#24 ∧
      assemble (testParams .sample) (.wrreg 128 0) = none ∧
      assemble (testParams .sample) (.wrreg 127 255) = some 0x207FFF#24 ∧
      assemble (testParams .sample) (.rdreg 128) = none ∧
      assemble (testParams .sample) (.rdreg 127) = some 0x307F00#24 := by decide
theorem witness_PowerOnIsTheResetState : (testParams .none).wellFormed = true := by decide
theorem witness_SharedPinsAreRefused :
    instantiate { testParams .sample with pins := ⟨1, 1, 3, 4⟩ } = .refused .pinsNotDistinct ∧
      instantiate { testParams .sample with pins := ⟨1, 2, 1, 4⟩ } = .refused .pinsNotDistinct ∧
      instantiate { testParams .sample with pins := ⟨1, 2, 3, 1⟩ } = .refused .pinsNotDistinct ∧
      instantiate { testParams .sample with pins := ⟨1, 2, 2, 4⟩ } = .refused .pinsNotDistinct ∧
      instantiate { testParams .sample with pins := ⟨1, 2, 3, 2⟩ } = .refused .pinsNotDistinct ∧
      instantiate { testParams .sample with pins := ⟨1, 2, 3, 3⟩ } = .refused .pinsNotDistinct :=
  ⟨rfl, rfl, rfl, rfl, rfl, rfl⟩
theorem witness_ResetInputResets :
    { wrregMidBit with inputs := [{ reset := true, abort := true, host := some ⟨0, .read 2#2⟩ }] }.inputs =
      { reset := true, abort := true, host := some ⟨0, .read 2#2⟩ } :: ([] : List Inputs) := rfl
theorem witness_PrimitivesActAndRecord : (bench .sample []).guard = false ∧ wrregMidBit.guard = true := by decide
theorem witness_TransferByteFollowsTheProcedure : (bench .sample []).guard = false ∧ (bench .none []).guard = false := by decide
theorem witness_XferCompletes : Ready (bench .sample (spells 0 0x5A#8)) ∧ Ready (bench .none []) :=
  ⟨bench_ready _ _, bench_ready _ _⟩
theorem witness_XferShapeIsConstant :
    Ready (bench .sample (spells 0 0x5A#8)) ∧ (bench .sample (spells 0 0x5A#8)).params.capture = .sample ∧
      Ready (bench .sample (spells 0 0xFF#8)) ∧
      (∃ t, exec (.xfer 0x00#8) (bench .sample (spells 0 0xFF#8)) = .next t) :=
  ⟨bench_ready _ _, rfl, bench_ready _ _, ⟨_, rfl⟩⟩
theorem witness_WrregCompletes : Ready (bench .sample []) ∧ Ready (bench .none []) := ⟨bench_ready _ _, bench_ready _ _⟩
theorem witness_RdregCompletes : Ready (bench .sample (spells 1 0xA5#8)) ∧ Ready (bench .none []) :=
  ⟨bench_ready _ _, bench_ready _ _⟩
theorem witness_FramesComplete : Ready (bench .sample (spells 1 0xC3#8)) ∧ Ready (bench .none []) :=
  ⟨bench_ready _ _, bench_ready _ _⟩
theorem witness_TransactionShape :
    Ready (bench .sample []) ∧ (bench .sample []).params.capture = .sample ∧ Ready (bench .none []) ∧
      (bench .none []).params.capture = .none ∧ (∃ a v, Instr.wrreg 0x7F#7 0xFF#8 = .wrreg a v) ∧
      (∃ a, Instr.rdreg 0x00#7 = .rdreg a) :=
  ⟨bench_ready _ _, rfl, bench_ready _ _, rfl, ⟨_, _, rfl⟩, ⟨_, rfl⟩⟩
theorem witness_ReadAndWriteDifferInDirectionBit : Ready (bench .sample []) ∧ Ready (bench .none []) :=
  ⟨bench_ready _ _, bench_ready _ _⟩
theorem witness_ReadSendsZeroDummy : Ready (bench .sample (spells 1 0xFF#8)) := bench_ready _ _
theorem witness_ProbeCompletes : Ready (bench .sample (spells 3 0x92#8)) ∧ Ready (bench .none []) :=
  ⟨bench_ready _ _, bench_ready _ _⟩
theorem witness_ProbeEventCounts : Ready (bench .sample (spells 3 0x92#8)) ∧ Ready (bench .none []) :=
  ⟨bench_ready _ _, bench_ready _ _⟩
theorem witness_ProbeReportsOneRecord : Ready (bench .sample (spells 3 0x0A#8)) := bench_ready _ _
/-- Two benches whose discarded answers differ and whose version reads agree. -/
theorem witness_ProbeDependsOnVersionAnswers :
    let s := bench .sample (spells 3 0x92#8)
    let s' := bench .sample (List.replicate 24 false ++ bitsMsbFirst 0x92#8)
    Ready s ∧ Ready s' ∧ s.params.capture = s'.params.capture ∧
      (∀ n, 24 ≤ n → n < 32 → answerAt s n = answerAt s' n) ∧ ends (exec .probe s) (fun _ => true) = true ∧
      ends (exec .probe s') (fun _ => true) = true := by
  refine ⟨bench_ready _ _, bench_ready _ _, rfl, ?_, by decide +kernel, by decide +kernel⟩
  intro n h1 h2
  interval_cases n <;> rfl
/-- One bench fresh, one with state that earlier commands left. -/
theorem witness_EventsDependOnOperandsAndAnswers :
    let s := bench .sample (spells 1 0xA5#8)
    let s' := { s with mosi := true, rdata := some 0x5A#8, link := .identified 0x92#8, illegal := true }
    Ready s ∧ Ready s' ∧ s.params = s'.params ∧ (∀ n, answerAt s n = answerAt s' n) ∧
      ends (exec (.rdreg 0x10#7) s) (fun _ => true) = true ∧ ends (exec (.rdreg 0x10#7) s') (fun _ => true) = true :=
  ⟨bench_ready _ _, ⟨rfl, rfl⟩, rfl, fun _ => rfl, by decide +kernel, by decide +kernel⟩
theorem witness_NoneModeReadsZero : Ready (bench .none []) ∧ (bench .none []).params.capture = .none :=
  ⟨bench_ready _ _, rfl⟩
theorem witness_CommandFrame :
    Ready (bench .sample []) ∧ ends (exec .probe (bench .sample [])) (fun _ => true) = true ∧
      ends (exec (.wrreg 0x01#7 0x0F#8) (bench .sample [])) (fun _ => true) = true ∧
      ends (exec (.xfer 0xB4#8) (bench .sample [])) (fun _ => true) = true ∧
      ends (exec (.frameWrite 0x01#7 0x0F#8) (bench .sample [])) (fun _ => true) = true :=
  ⟨bench_ready _ _, by decide +kernel, by decide +kernel, by decide +kernel, by decide +kernel⟩
theorem witness_BusyBlockHolds : rdregInLead.busy = true := rfl
theorem witness_StepRunsTheDecodedCommand :
    let s := { bench .sample [] with port := [.cmd 0x1000B4#24], inputs := [{}, { abort := true }] }
    QuietFor 1 s ∧ s.aborting = false ∧ s.busy = false ∧ s.port = .cmd 0x1000B4#24 :: [] ∧
      decodeCmd 0x1000B4#24 = .ok (.xfer 0xB4#8) := by decide
theorem witness_StepRunsTheDecodedFrame :
    let s := { bench .sample [] with port := [.frame 0xB7#8 0x00#8] }
    QuietFor 1 s ∧ s.aborting = false ∧ s.busy = false ∧ s.port = .frame 0xB7#8 0x00#8 :: [] ∧
      decodeFrame 0xB7#8 0x00#8 = .ok (.frameRead 0x37#7) := by decide
theorem witness_FetchWordRunsNext :
    decodeTableWord 24 0x400000 = some .probe ∧ decodeTableWord 8 0xFF = some (.frameRead 0x7F#7) := by decide
/-- A held command, at a boundary where the outside does nothing. -/
theorem witness_AcceptanceIsOneStep :
    let s := { bench .sample [] with held := [⟨7, 0x207FFF#24⟩], inputs := [{}] }
    QuietFor 1 s ∧ s.aborting = false ∧ s.busy = false ∧ s.port = [] ∧ s.held = [⟨7, 0x207FFF#24⟩] ∧
      decodeCmd 0x207FFF#24 = .ok (.wrreg 0x7F#7 0xFF#8) := by decide
theorem witness_OneEventPerStep :
    xferAfterAcquire.busy = true ∧ xferAfterAcquire.aborting = false ∧ QuietFor 1 xferAfterAcquire ∧
      ends (step xferAfterAcquire) (fun _ => true) = true ∧
      ends (step { xferAfterAcquire with inputs := [{}] }) (fun _ => true) = true := by decide +kernel
theorem witness_SteppedCommandEqualsWholeCommand :
    let s := { bench .none [] with held := [⟨7, 0x1000FF#24⟩], inputs := [{}, {}] }
    Ready s ∧ s.aborting = false ∧ s.port = [] ∧ s.held = [⟨7, 0x1000FF#24⟩] ∧
      decodeCmd 0x1000FF#24 = .ok (.xfer 0xFF#8) ∧ 51 = 1 + (slotsOf s.params (.xfer 0xFF#8)).length ∧ QuietFor 51 s :=
  ⟨⟨rfl, rfl⟩, rfl, rfl, rfl, by decide, rfl, by decide⟩
/-- The timeline at the ends of its ranges: k = n - 1, n, 2n, 2n + 1 and 2n + 2 all meet the hypotheses. -/
theorem witness_ProbeLinkTimeline :
    ∀ k ∈ [0, 119, 120, 240, 241, 242],
      let s := { bench .sample (spells 3 0x92#8) with held := [⟨7, probeWord⟩] }
      Ready s ∧ s.aborting = false ∧ s.port = [] ∧ s.held = [⟨7, probeWord⟩] ∧ QuietFor (1 + k) s ∧
        120 = (if s.params.capture = .sample then 120 else 104) ∧ k ≤ 2 * 120 + 2 := by
  intro k hk
  refine ⟨⟨rfl, rfl⟩, rfl, rfl, rfl, fun x hx => (nomatch (List.take_subset _ _ hx)), rfl, ?_⟩
  simp only [List.mem_cons, List.not_mem_nil, or_false] at hk
  omega
theorem witness_IllegalWordIsRejected :
    let s := { bench .sample [] with held := [⟨7, 0x208000#24⟩], inputs := [{}] }
    let s' := { bench .sample [] with port := [.cmd 0x208000#24] }
    QuietFor 1 s ∧ s.aborting = false ∧ s.busy = false ∧ s.port = [] ∧ s.held = [⟨7, 0x208000#24⟩] ∧
      legal 0x208000#24 = false ∧ QuietFor 1 s' ∧ s'.aborting = false ∧ s'.busy = false ∧
      s'.port = .cmd 0x208000#24 :: [] := by decide
theorem witness_NoAcceptanceWhileBusy :
    { rdregInLead with held := [⟨7, 0x000000#24⟩] }.busy = true ∧
      ends (step { rdregInLead with held := [⟨7, 0x000000#24⟩] }) (fun t => t.busy) = true := by decide +kernel
theorem witness_AcceptanceTakesOneHeldWrite :
    let s := { bench .sample [] with held := [⟨1, 0x1000FF#24⟩, ⟨2, 0x400000#24⟩], inputs := [{}] }
    QuietFor 1 s ∧ s.aborting = false ∧ s.busy = false ∧ s.port = [] ∧ s.held ≠ [] := by decide
/-- One state per register that can be read. -/
theorem witness_HostReadsReturnRegisters :
    let s := { rdregInLead with rdata := some 0x5A#8, link := .identified 0x92#8, held := [⟨2, 0x400000#24⟩] }
    s.aborting = false ∧ s.guard = false ∧ (∀ h ∈ s.held, h.agent ≠ 1) ∧ s.rdata = some 0x5A#8 ∧
      s.link = .identified 0x92#8 ∧
      { s with inputs := [{ host := some ⟨1, .read 3#2⟩ }] }.inputs = { host := some ⟨1, .read 3#2⟩ } :: [] := by decide
theorem witness_ReadsOfNoValueFault :
    let s := { rdregInLead with link := .resetIssued }
    s.aborting = false ∧ s.guard = false ∧ (∀ h ∈ s.held, h.agent ≠ 1) ∧ s.rdataValid = false ∧
      (∀ v, s.link ≠ .identified v) ∧
      { s with inputs := [{ host := some ⟨1, .read 2#2⟩ }] }.inputs = { host := some ⟨1, .read 2#2⟩ } :: [] :=
  ⟨rfl, rfl, by decide, rfl, fun _ h => (nomatch h), rfl⟩
/-- One write of each clause while a command runs: 24 bits, one bit less, one bit more, and registers 1 and 3. -/
theorem witness_HostWrites :
    rdregInLead.aborting = false ∧ rdregInLead.guard = false ∧ (∀ h ∈ rdregInLead.held, h.agent ≠ 1) ∧
      ∀ rb ∈ [((0#2 : BitVec 2), 24), (0#2, 23), (0#2, 25), (1#2, 8), (3#2, 8)],
        { rdregInLead with inputs := [{ host := some ⟨1, .write rb.1 rb.2 0xFF#24⟩ }] }.inputs =
          { host := some ⟨1, .write rb.1 rb.2 0xFF#24⟩ } :: [] := by decide
/-- The idle block: a legal word, an illegal one, and a write of another agent held. -/
theorem witness_HostWrites_idle :
    (bench .sample []).busy = false ∧ (bench .sample []).aborting = false ∧ (bench .sample []).guard = false ∧
      (bench .sample []).held = [] ∧ decodeCmd 0x1000FF#24 = .ok (.xfer 0xFF#8) ∧ legal 0x100100#24 = false ∧
      (∀ h ∈ ({ bench .sample [] with held := [⟨2, 0x400000#24⟩] } : State).held, h.agent ≠ 1) := by decide
/-- Deferred by the guard, deferred by the agent's own held write while a command runs, and deferred by it on the idle block. -/
theorem witness_HostWaitsForGuardAndHeldWrite :
    let s := { xferAfterAcquire with inputs := [{ host := some ⟨1, .read 1#2⟩ }] }
    let s' := { rdregInLead with held := [⟨1, 0x400000#24⟩], inputs := [{ host := some ⟨1, .read 1#2⟩ }] }
    s.busy = true ∧ s.aborting = false ∧ s.guard = true ∧ ends (step s) (fun _ => true) = true ∧
      s'.busy = true ∧ s'.aborting = false ∧ s'.guard = false ∧ (∃ h ∈ s'.held, h.agent = 1) ∧
      ends (step s') (fun _ => true) = true :=
  ⟨rfl, rfl, rfl, by decide +kernel, rfl, rfl, rfl, ⟨_, List.mem_singleton.2 rfl, rfl⟩, by decide +kernel⟩
theorem witness_HostWaitsForGuardAndHeldWrite_idle :
    let s := { bench .sample [] with held := [⟨1, 0x400000#24⟩], inputs := [{ host := some ⟨1, .read 1#2⟩ }] }
    s.inputs = { host := some ⟨1, .read 1#2⟩ } :: [] ∧ s.aborting = false ∧ (∃ h ∈ s.held, h.agent = 1) ∧ s.busy = false ∧
      s.port = [] ∧ s.held ≠ [] ∧ ends (step s) (fun t => t.busy && t.phase == .run .probe 0) = true :=
  ⟨rfl, rfl, ⟨_, List.mem_singleton.2 rfl, rfl⟩, rfl, rfl, by decide, by decide +kernel⟩
theorem witness_OnlyResetClearsStickyFlags :
    let s := { rdregInLead with illegal := true, aborted := true, inputs := [{ abort := true }] }
    ends (step s) (fun _ => true) = true ∧ s.illegal = true ∧ s.aborted = true ∧
      (∀ x later, s.inputs = x :: later → x.reset = false) := by
  refine ⟨by decide +kernel, rfl, rfl, ?_⟩
  intro x later h
  cases h
  rfl
/-- A step that changes `LINK`: RESET, the trail wait of a running probe's write, and a probe of the port. -/
theorem witness_OnlyProbeOrResetChangesLink :
    ends (step { bench .sample [] with link := .resetIssued, inputs := [{ reset := true }] }) (fun t => t.link != .resetIssued) = true ∧
      ends (step { bench .none [] with phase := .run .probe 103, busy := true, curCmd := some 0x400000#24 })
        (fun t => t.link != .uninit) = true ∧
      ends (step { bench .sample [] with port := [.cmd probeWord] }) (fun t => t.link != .uninit) = true := by decide +kernel
theorem witness_AbortRestoresAndEnds :
    let s := { wrregMidBit with inputs := [{ abort := true }, {}, {}, {}, { reset := true }] }
    s.busy = true ∧ s.aborting = false ∧ s.inputs = { abort := true } :: [{}, {}, {}, { reset := true }] ∧
      3 = s.guard.toNat + s.sclk.toNat + (!s.csN).toNat ∧
      (∀ x ∈ [({} : Inputs), {}, {}, { reset := true }].take 3, x = {}) := by
  decide
/-- The sequence beginning with a host access beside it, and going on with the schedule exhausted. -/
theorem witness_AbortSequenceIsAtomic :
    let x : Inputs := { abort := true, host := some ⟨1, .read 1#2⟩ }
    let s := { wrregMidBit with inputs := [x] }
    let s' := { wrregMidBit with aborting := true, inputs := [] }
    (∀ y later, s.inputs = y :: later → y.reset = false) ∧ s.busy = true ∧ s.inputs = x :: [] ∧ x.abort = true ∧
      (∀ y later, s'.inputs = y :: later → y.reset = false) ∧ s'.aborting = true :=
  ⟨fun _ _ h => by cases h; rfl, rfl, rfl, rfl, fun _ _ h => (nomatch h), rfl⟩
theorem witness_AbortWhileIdleIsIgnored : (bench .sample []).busy = false ∧ (bench .sample []).aborting = false := by decide
/-- An event of a running command, and the acceptance of a held write. -/
theorem witness_AtMostOneEventPerStep :
    let s := { bench .sample [] with held := [⟨1, 0x1000FF#24⟩], inputs := [{}] }
    xferAfterAcquire.port = [] ∧ (∀ x later, xferAfterAcquire.inputs = x :: later → x.reset = false) ∧
      ends (step xferAfterAcquire) (fun _ => true) = true ∧ s.port = [] ∧
      (∀ x later, s.inputs = x :: later → x.reset = false) ∧ s.busy = false ∧ s.aborting = false ∧
      ends (step s) (fun t => t.busy) = true := by
  refine ⟨rfl, fun _ _ h => (nomatch h), by decide +kernel, rfl, ?_, rfl, rfl, by decide +kernel⟩
  intro x later h
  cases h
  rfl
theorem witness_NoStepFillsThePort :
    ends (instantiate (testParams .none)) (fun _ => true) = true ∧
      ends (step { bench .none [] with port := [.cmd 0x1000FF#24, .cmd 0x400000#24] })
        (fun t => t.port == [.cmd 0x400000#24]) = true := by decide +kernel
theorem witness_LogsOnlyGrow : ends (step { wrregMidBit with inputs := [{ reset := true }] }) (fun _ => true) = true := by decide +kernel
theorem witness_ParametersNeverChange : ends (step xferAfterAcquire) (fun _ => true) = true := by decide +kernel
theorem witness_PowerOnMeetsTheInvariant : ends (instantiate (testParams .none)) (fun _ => true) = true := by decide
theorem witness_MinimumDurations : Ready (bench .sample []) ∧ Ready (bench .none []) := ⟨bench_ready _ _, bench_ready _ _⟩

/-- The invariant holds of an idle bench with a read to come, and of a command under way inside the guard. -/
theorem bench_inv (i : List Inputs) : Inv { bench .sample [] with inputs := i } where
  idle _ := ⟨rfl, rfl, rfl, rfl, rfl⟩
  run h := nomatch h
  bits n h := by
    cases h
    decide
  pins := rfl

theorem xferAfterAcquire_inv : Inv xferAfterAcquire where
  idle h := nomatch h
  run _ := ⟨.xfer 0xFF#8, 1, rfl, ⟨_, rfl, by decide⟩, by decide,
    fun _ => ⟨rfl, rfl, rfl, fun _ h => (nomatch h), fun _ => rfl, fun _ => rfl, fun _ => rfl, fun h => nomatch h⟩⟩
  bits n h := by
    cases h
    decide
  pins := by decide

theorem wrregMidBit_inv : Inv wrregMidBit where
  idle h := nomatch h
  run _ := ⟨.wrreg 0x2A#7 0x55#8, 6, rfl, ⟨_, rfl, by decide⟩, by decide,
    fun _ => ⟨rfl, rfl, rfl, fun _ h => Option.some.inj h, fun _ => rfl, fun _ => rfl, fun _ => rfl, fun h => nomatch h⟩⟩
  bits n h := by
    cases h
    decide
  pins := by decide

/-- PROBE after its first event, `CS(0)`. -/
def probeInLead : State :=
  { bench .none [] with
    phase := .run .probe 1, busy := true, curCmd := some 0x400000#24, csN := false, trace := [.cs false] }

theorem probeInLead_inv : Inv probeInLead where
  idle h := nomatch h
  run _ := ⟨.probe, 1, rfl, ⟨_, rfl, by decide⟩, by decide +kernel,
    fun _ => ⟨rfl, rfl, rfl, fun _ h => (nomatch h), fun h => (nomatch h), fun h => (nomatch h), fun h => (nomatch h), fun h => (nomatch h)⟩⟩
  bits n h := by
    cases h
    decide
  pins := by decide

theorem witness_EveryStepKeepsTheInvariant :
    Inv xferAfterAcquire ∧ ends (step xferAfterAcquire) (fun _ => true) = true ∧
      Inv wrregMidBit ∧ ends (step wrregMidBit) (fun _ => true) = true :=
  ⟨xferAfterAcquire_inv, by decide +kernel, wrregMidBit_inv, by decide +kernel⟩
theorem witness_OnlyUnwrittenHostReadsFault :
    Inv { bench .sample [] with inputs := [{ host := some ⟨0, .read 2#2⟩ }] } ∧
      step { bench .sample [] with inputs := [{ host := some ⟨0, .read 2#2⟩ }] } = .fault (.unwrittenRead .rdata) ∧
      step { bench .sample [] with inputs := [{ host := some ⟨0, .read 3#2⟩ }] } = .fault (.unwrittenRead .linkver) :=
  ⟨bench_inv _, rfl, rfl⟩
/-- One running command of each clause, at the first index inside its span or its guard. -/
theorem witness_ChipSelectAndGuardSpans :
    (Inv xferAfterAcquire ∧ xferAfterAcquire.busy = true ∧ xferAfterAcquire.aborting = false ∧
      xferAfterAcquire.phase = .run (.xfer 0xFF#8) 1 ∧ xferAfterAcquire.params.capture = .sample) ∧
    (Inv wrregMidBit ∧ wrregMidBit.busy = true ∧ wrregMidBit.aborting = false ∧
      wrregMidBit.phase = .run (.wrreg 0x2A#7 0x55#8) 6 ∧ wrregMidBit.params.capture = .sample) ∧
    (Inv probeInLead ∧ probeInLead.busy = true ∧ probeInLead.aborting = false ∧ probeInLead.phase = .run .probe 1 ∧
      probeInLead.params.capture = .none) :=
  ⟨⟨xferAfterAcquire_inv, rfl, rfl, rfl, rfl⟩, ⟨wrregMidBit_inv, rfl, rfl, rfl, rfl⟩, ⟨probeInLead_inv, rfl, rfl, rfl, rfl⟩⟩
/-- The first bit of `XFER 0xFF` raises data-out. -/
theorem witness_DataOutChangesOnlyWithClockLow :
    Inv xferAfterAcquire ∧ xferAfterAcquire.busy = true ∧
      (∀ x later, xferAfterAcquire.inputs = x :: later → x.reset = false) ∧
      ends (step xferAfterAcquire) (fun t => t.mosi != xferAfterAcquire.mosi) = true :=
  ⟨xferAfterAcquire_inv, rfl, fun _ _ h => (nomatch h), by decide +kernel⟩

end Sys2Proof.Machine
end

section
/-! Construction of an instance (10_state.md R26) and the fields of `STATUS` (10_state.md R39, R34): what each definition
says, one lemma per case or per field, and the obligations O9 and O43 from them. -/

namespace Sys2Proof.Machine

/-! Construction. -/

theorem distinct_eq_false_iff (p : PinCfg) :
    p.distinct = false ↔ p.clk = p.mosi ∨ p.clk = p.miso ∨ p.clk = p.cs ∨ p.mosi = p.miso ∨ p.mosi = p.cs ∨
      p.miso = p.cs := by
  simp only [PinCfg.distinct, Bool.and_eq_false_iff, bne_eq_false_iff_eq, or_assoc]

theorem instantiate_of_not_distinct {p : Params} (h : p.pins.distinct = false) :
    instantiate p = .refused .pinsNotDistinct := by
  simp [instantiate, h]

/-- Settles O9: two equal pins make the check of R26 fail, and construction refuses what fails it. -/
theorem sharedPinsAreRefused : Obligations.SharedPinsAreRefused := by
  intro p hShared
  exact instantiate_of_not_distinct ((distinct_eq_false_iff p.pins).2 hShared)

/-! The fields of `STATUS`. -/

/-- The layout of `STATUS` from bit 0 up (R39); every bit past the list reads 0. -/
theorem status_getLsbD (s : State) (i : Nat) :
    s.status.getLsbD i =
      [s.busy, s.illegal, s.aborted, s.rdataValid, s.link.code.getLsbD 0, s.link.code.getLsbD 1, s.linkFault].getD i
        false := by
  have hLayout : s.status.getLsbD i =
      (0#1 ++ BitVec.ofBool s.linkFault ++ s.link.code ++ BitVec.ofBool s.rdataValid ++ BitVec.ofBool s.aborted ++
        BitVec.ofBool s.illegal ++ BitVec.ofBool s.busy).getLsbD i := rfl
  simp only [hLayout, BitVec.getLsbD_append]
  match i with
  | 0 | 1 | 2 | 3 | 4 | 5 | 6 => simp
  | n + 7 => simp

theorem status_extract_link (s : State) : s.status.extractLsb' 4 2 = s.link.code := by
  refine BitVec.eq_of_getLsbD_eq fun i hi => ?_
  rw [BitVec.getLsbD_extractLsb', status_getLsbD]
  match i with
  | 0 | 1 => rfl

theorem status_powerOn (p : Params) : (State.powerOn p).status = 0x00#8 :=
  calc (State.powerOn p).status
    _ = 0#1 ++ BitVec.ofBool false ++ Link.uninit.code ++ BitVec.ofBool false ++ BitVec.ofBool false ++
          BitVec.ofBool false ++ BitVec.ofBool false := rfl
    _ = 0x00#8 := by decide

/-- "`11` is never produced" (R39). -/
theorem link_code_ne_three (l : Link) : l.code ≠ 0b11#2 := by
  cases l <;> simp [Link.code]

theorem linkFault_iff (s : State) :
    s.linkFault = true ↔ s.link = .identified 0x00#8 ∨ s.link = .identified 0xFF#8 := by
  unfold State.linkFault
  cases s.link with
  | uninit => simp [Link.version]
  | resetIssued => simp [Link.version]
  | identified v => simp [Link.version]

/-- Settles O43: every field is a copy of one piece of state; what is left is the code of each link state and when
`LINK_FAULT` is set. -/
theorem statusFields : Obligations.StatusFields := by
  refine ⟨status_powerOn, fun s => ⟨status_getLsbD s 0, status_getLsbD s 1, status_getLsbD s 2, status_getLsbD s 3,
    ?uninit, ?resetIssued, ?identified, ?never, ?fault, status_getLsbD s 7⟩⟩
  case uninit => intro h; rw [status_extract_link, h]; rfl
  case resetIssued => intro h; rw [status_extract_link, h]; rfl
  case identified => intro v h; rw [status_extract_link, h]; rfl
  case never => rw [status_extract_link]; exact link_code_ne_three s.link
  case fault => rw [status_getLsbD]; exact linkFault_iff s

end Sys2Proof.Machine
end

section
/-! The assembler (30_encoding.md R77, R78): its range checks on numbers and on the values of operands, the two ways a
line is answered, and the obligation O5 from them. -/

namespace Sys2Proof

/-! The range checks. -/

theorem byteInRange_eq_false_iff (b : Int) : byteInRange b = false ↔ b < 0 ∨ 255 < b := by
  simp only [byteInRange, Bool.and_eq_false_iff, decide_eq_false_iff_not]
  omega

theorem addrInRange_eq_false_iff (a : Int) : addrInRange a = false ↔ a < 0 ∨ 127 < a := by
  simp only [addrInRange, Bool.and_eq_false_iff, decide_eq_false_iff_not]
  omega

theorem wrreg_wellFormed_eq_false_iff (a v : Int) :
    (AsmLine.wrreg a v).wellFormed = false ↔ a < 0 ∨ 127 < a ∨ v < 0 ∨ 255 < v := by
  simp only [AsmLine.wellFormed, Bool.and_eq_false_iff, addrInRange_eq_false_iff, byteInRange_eq_false_iff, or_assoc]

@[simp] theorem byteInRange_toNat (n : Byte) : byteInRange n.toNat = true := by
  have hn : n.toNat < 256 := n.isLt
  simp only [byteInRange, Bool.and_eq_true, decide_eq_true_eq]
  omega

@[simp] theorem addrInRange_toNat (n : Addr) : addrInRange n.toNat = true := by
  have hn : n.toNat < 128 := n.isLt
  simp only [addrInRange, Bool.and_eq_true, decide_eq_true_eq]
  omega

/-! A line with an operand out of range has no word; a line that stands for a command has the command's. -/

/-- R78 for every line at once, a raw `.word` among them. -/
theorem assemble_of_not_wellFormed (p : Params) {l : AsmLine} (h : l.wellFormed = false) : assemble p l = none := by
  cases l with
  | word w =>
    have hw : wordInRange w = false := h
    simp [assemble, hw]
  | _ => simp [assemble, AsmLine.instr, h]

/-- R77 for every line at once: the assembler adds nothing to the encoder. -/
theorem assemble_of_instr {p : Params} {l : AsmLine} {i : Instr} {w : CmdWord} (hInstr : l.instr p = some i)
    (hWord : encode i = .cmd w) : assemble p l = some w := by
  cases l with
  | word v => simp [AsmLine.instr] at hInstr
  | _ => simp [assemble, hInstr, hWord]

@[simp] theorem assemble_xfer_toNat (p : Params) (n : Byte) : assemble p (.xfer n.toNat) = some (xferWord n) :=
  assemble_of_instr (i := .xfer n) (by simp [AsmLine.instr, AsmLine.wellFormed]) rfl

@[simp] theorem assemble_wrreg_toNat (p : Params) (n : Addr) (m : Byte) :
    assemble p (.wrreg n.toNat m.toNat) = some (wrregWord n m) :=
  assemble_of_instr (i := .wrreg n m) (by simp [AsmLine.instr, AsmLine.wellFormed]) rfl

@[simp] theorem assemble_rdreg_toNat (p : Params) (n : Addr) : assemble p (.rdreg n.toNat) = some (rdregWord n) :=
  assemble_of_instr (i := .rdreg n) (by simp [AsmLine.instr, AsmLine.wellFormed]) rfl

end Sys2Proof

namespace Sys2Proof.Machine

/-- Settles O5: an operand out of range fails its line's check, and an operand in range is read back exactly. -/
theorem assemblerNeverMasks : Obligations.AssemblerNeverMasks := by
  intro p
  have hWrreg : ∀ a v : Int, a < 0 ∨ 127 < a ∨ v < 0 ∨ 255 < v → assemble p (.wrreg a v) = none :=
    fun a v h => assemble_of_not_wellFormed p ((wrreg_wellFormed_eq_false_iff a v).2 h)
  refine ⟨fun b => ⟨fun h => ?xferOut, ?xferIn⟩, fun a v => ⟨hWrreg a v, ?wrregIn⟩,
    fun a => ⟨fun h => ?rdregOut, ?rdregIn⟩, fun v => hWrreg 0x81 v (.inr (.inl (by decide)))⟩
  case xferOut => exact assemble_of_not_wellFormed p ((byteInRange_eq_false_iff b).2 h)
  case xferIn => rintro n rfl; exact assemble_xfer_toNat p n
  case wrregIn => rintro n m rfl rfl; exact assemble_wrreg_toNat p n m
  case rdregOut => exact assemble_of_not_wellFormed p ((addrInRange_eq_false_iff a).2 h)
  case rdregIn => rintro n rfl; exact assemble_rdreg_toNat p n

end Sys2Proof.Machine
end

section
/-! The byte transfer and the register transaction (41_bit_transfer.md R96, 42_register_access.md R109, R110): the
state each of them leaves, that running its list answers that state, and the obligation O12. -/

namespace Sys2Proof.Machine

/-! Ends of a list. -/

theorem runSlots_singleton (x : Slot) (s : State) : runSlots [x] s = performSlot x s := by
  rw [runSlots_cons]
  cases performSlot x s <;> rfl

@[simp] theorem performAssigns_singleton (a : Assign) (s : State) : performAssigns [a] s = performAssign a s := by
  rw [performAssigns_cons]
  cases performAssign a s <;> rfl

theorem afterDraws_zero (s : State) : afterDraws 0 s = s := by simp [afterDraws]

theorem inByte_none {s : State} (h : s.params.capture = .none) (n : Nat) : inByte s n = 0x00#8 := by simp [inByte, h]

/-! `TransferByte`. -/

/-- What `TransferByte(b)` leaves of `s` (R96). -/
def afterByte (b : Byte) (s : State) : State :=
  { afterDraws (drawsFor s.params.capture 8) s with
    srOut := some 0x00#8, srIn := some (inByte s 0), bitCnt := some 8, mosi := b.getLsbD 0, sclk := false,
    guard := false, trace := s.trace ++ byteEvents s.params.capture b (inByte s 0) }

@[simp] theorem afterByte_srIn (b : Byte) (s : State) : (afterByte b s).srIn = some (inByte s 0) := rfl

@[simp] theorem inByte_afterByte (b : Byte) (s : State) (n : Nat) : inByte (afterByte b s) n = inByte s (8 + n) :=
  inByte_afterDraws s 8 n

/-- Under `NONE` no answer is taken (R105). -/
theorem afterByte_answers_none {s : State} (h : s.params.capture = .none) (b : Byte) :
    (afterByte b s).misoIn = s.misoIn ∧ (afterByte b s).draws = s.draws := by
  simp [afterByte, h, drawsFor, afterDraws_zero]

/-- The eight passes of the loop, from the registers as the load leaves them (R96). -/
theorem runSlots_bitLoop_eight {cap : Capture} {b : Byte} {s : State} (hCap : s.params.capture = cap)
    (hOut : s.srOut = some b) (hIn : s.srIn = some 0x00#8) (hCnt : s.bitCnt = some 0) :
    runSlots (bitLoop cap 8) s = .next { afterDraws (drawsFor cap 8) s with
      srOut := some 0x00#8, srIn := some (inByte s 0), bitCnt := some 8, mosi := b.getLsbD 0, sclk := false,
      trace := s.trace ++ [7, 6, 5, 4, 3, 2, 1, 0].flatMap (bitEvents cap b (inByte s 0)) } := by
  cases cap with
  | sample =>
    have hByte : inByte s 0 = spelledByte (answerAt s) := by simp [inByte, hCap]
    rw [runSlots_loop_sample 8 s b 0x00#8 0 hOut hIn hCnt, shiftN_eight, assembleN_eight, drivenN_eight, clockN_succ,
      loopEvents_sample, hByte]
    rfl
  | none =>
    rw [runSlots_loop_none 8 s b 0x00#8 0 hOut hIn hCnt, shiftN_eight, assembleN_eight_none, drivenN_eight, clockN_succ,
      loopEvents_none b 0x00#8, inByte_none hCap]
    simp only [drawsFor, afterDraws_zero]

/-- `TransferByte(b)` and the assignments its caller makes with the last event. -/
theorem runSlots_transferByte {cap : Capture} {s : State} (hCap : s.params.capture = cap) (hGuard : s.guard = false)
    (b : Byte) (after : List Assign) :
    runSlots (transferByte cap b after) s = performAssigns after (afterByte b s) := by
  have hLoad : performSlot ⟨.guardAcquire, [.load b]⟩ s =
      .next (loadByte b (record .guardAcq { s with guard := true })) := by
    simp [performSlot, performPrim, performAssign, guardAcquire, hGuard]
  have hLoop := runSlots_bitLoop_eight (s := loadByte b (record .guardAcq { s with guard := true })) hCap rfl rfl rfl
  rw [transferByte, runSlots_cons, hLoad, andThen_next, runSlots_append_next hLoop, runSlots_singleton, performSlot,
    performPrim, andThen_next]
  congr 1
  subst hCap
  simp [guardRelease, record, loadByte, afterByte, afterDraws, byteEvents, inByte, answerAt]

/-- Settles O12: the guard is free, so the list runs to its end and leaves `afterByte`. -/
theorem transferByteFollowsTheProcedure : Obligations.TransferByteFollowsTheProcedure := by
  intro b s hGuard
  refine ⟨runSlots_transferByte rfl hGuard b [], ?length⟩
  rw [byteEvents_length]
  cases s.params.capture <;> rfl

/-! The transaction. -/

/-- What a transaction with bytes b0, b1 out leaves of `s` (R109, R110). -/
def afterTransaction (b0 b1 : Byte) (s : State) : State :=
  busyWait .csTrail (setChipSelect true (afterByte b1 (afterByte b0 (busyWait .csLead (setChipSelect false s)))))

/-- The bracket of a transaction takes no answer. -/
theorem inByte_lead (s : State) (n : Nat) : inByte (busyWait .csLead (setChipSelect false s)) n = inByte s n :=
  inByte_congr rfl rfl rfl n

/-- The result of a transaction is its second byte (R110). -/
@[simp] theorem afterTransaction_srIn (b0 b1 : Byte) (s : State) :
    (afterTransaction b0 b1 s).srIn = some (inByte s 8) := by
  simp [afterTransaction, inByte_lead]

@[simp] theorem inByte_afterTransaction (b0 b1 : Byte) (s : State) (n : Nat) :
    inByte (afterTransaction b0 b1 s) n = inByte s (16 + n) := by
  have hTrail : inByte (afterTransaction b0 b1 s) n =
      inByte (afterByte b1 (afterByte b0 (busyWait .csLead (setChipSelect false s)))) n := inByte_congr rfl rfl rfl n
  rw [hTrail, inByte_afterByte, inByte_afterByte, inByte_lead, ← Nat.add_assoc]

theorem afterTransaction_answers_none {s : State} (h : s.params.capture = .none) (b0 b1 : Byte) :
    (afterTransaction b0 b1 s).misoIn = s.misoIn ∧ (afterTransaction b0 b1 s).draws = s.draws := by
  obtain ⟨hMiso0, hDraws0⟩ := afterByte_answers_none (s := busyWait .csLead (setChipSelect false s)) h b0
  obtain ⟨hMiso1, hDraws1⟩ :=
    afterByte_answers_none (s := afterByte b0 (busyWait .csLead (setChipSelect false s))) h b1
  exact ⟨hMiso1.trans hMiso0, hDraws1.trans hDraws0⟩

/-- A transaction and the assignments its caller makes with the last event. -/
theorem runSlots_transaction {cap : Capture} {s : State} (hCap : s.params.capture = cap) (hGuard : s.guard = false)
    (b0 b1 : Byte) (after : List Assign) :
    runSlots (transaction cap b0 b1 after) s = performAssigns after (afterTransaction b0 b1 s) := by
  have hByte0 := runSlots_transferByte (s := busyWait .csLead (setChipSelect false s)) hCap hGuard b0 []
  have hByte1 :=
    runSlots_transferByte (s := afterByte b0 (busyWait .csLead (setChipSelect false s))) hCap rfl b1 []
  calc runSlots (transaction cap b0 b1 after) s
    _ = runSlots (transferByte cap b0 [] ++ (transferByte cap b1 [] ++
          [⟨.chipSelect true, []⟩, ⟨.wait .csTrail, after⟩])) (busyWait .csLead (setChipSelect false s)) := by
      rw [← List.append_assoc]
      rfl
    _ = runSlots [⟨.chipSelect true, []⟩, ⟨.wait .csTrail, after⟩]
          (afterByte b1 (afterByte b0 (busyWait .csLead (setChipSelect false s)))) := by
      rw [runSlots_append_next hByte0, runSlots_append_next hByte1]
    _ = runSlots [⟨.wait .csTrail, after⟩]
          (setChipSelect true (afterByte b1 (afterByte b0 (busyWait .csLead (setChipSelect false s))))) := rfl
    _ = performAssigns after (afterTransaction b0 b1 s) := runSlots_singleton _ _

end Sys2Proof.Machine
end

section
/-! The four commands from a ready state (41_bit_transfer.md R97, 42_register_access.md R111, R112, 43_device_probe.md
R126): each ends, in the state that the byte transfers and transactions of its rule leave; and the obligation O26, that none
of them reads anything but `0x00` under `NONE` (R105). -/

namespace Sys2Proof.Machine

/-- A command whose list answers `t` from its acceptance ends in `t`, finished. -/
theorem issueCommand_of_runSlots {i : Instr} {w : CmdWord} {xs : List Slot} {s t : State} (hBusy : s.busy = false)
    (hRun : runSlots xs (accept i w s) = .next t) : issueCommand i w xs s = .next (finish t) := by
  rw [issueCommand_idle hBusy, hRun, andThen_next]

theorem latchResult_of_srIn {s : State} {r : Byte} (h : s.srIn = some r) :
    latchResult s = .next { s with rdata := some r } :=
  latchResult_eq_next.2 ⟨r, h, rfl⟩

theorem identify_of_srIn {s : State} {v : Byte} (h : s.srIn = some v) :
    identify s = .next { s with link := .identified v } :=
  identify_eq_next.2 ⟨v, h, rfl⟩

@[simp] theorem inByte_accept (i : Instr) (w : CmdWord) (s : State) (n : Nat) : inByte (accept i w s) n = inByte s n :=
  inByte_congr rfl rfl rfl n

theorem exec_xfer_ready {s : State} (h : Ready s) (b : Byte) :
    exec (.xfer b) s =
      .next (finish { afterByte b (accept (.xfer b) (xferWord b) s) with rdata := some (inByte s 0) }) := by
  obtain ⟨hBusy, hGuard⟩ := h
  refine issueCommand_of_runSlots hBusy ?_
  rw [xferSlots, runSlots_transferByte (cap := s.params.capture) (s := accept _ _ s) rfl hGuard,
    performAssigns_singleton]
  exact latchResult_of_srIn (by simp)

theorem exec_wrreg_ready {s : State} (h : Ready s) (a : Addr) (v : Byte) :
    exec (.wrreg a v) s =
      .next (finish (afterTransaction (writeAddressByte a) v (accept (.wrreg a v) (wrregWord a v) s))) := by
  obtain ⟨hBusy, hGuard⟩ := h
  refine issueCommand_of_runSlots hBusy ?_
  rw [wrregSlots, writeTransaction,
    runSlots_transaction (cap := s.params.capture) (s := accept _ _ s) rfl hGuard, performAssigns_nil]

theorem exec_rdreg_ready {s : State} (h : Ready s) (a : Addr) :
    exec (.rdreg a) s =
      .next (finish { afterTransaction (readAddressByte a) dummyByte (accept (.rdreg a) (rdregWord a) s) with
        rdata := some (inByte s 8) }) := by
  obtain ⟨hBusy, hGuard⟩ := h
  refine issueCommand_of_runSlots hBusy ?_
  rw [rdregSlots, readTransaction,
    runSlots_transaction (cap := s.params.capture) (s := accept _ _ s) rfl hGuard, performAssigns_singleton]
  exact latchResult_of_srIn (by simp)

/-- The state of a probe before its version read: the reset write is done, and waited for (R126). -/
def probeResetIssued (s : State) : State :=
  busyWait .resetRecovery (linkReset
    (afterTransaction (writeAddressByte s.params.regCommand) s.params.cmdSoftReset (accept .probe probeWord s)))

@[simp] theorem inByte_probeResetIssued (s : State) (n : Nat) : inByte (probeResetIssued s) n = inByte s (16 + n) := by
  have hBefore : inByte (probeResetIssued s) n = inByte (afterTransaction (writeAddressByte s.params.regCommand)
      s.params.cmdSoftReset (accept .probe probeWord s)) n := inByte_congr rfl rfl rfl n
  rw [hBefore, inByte_afterTransaction, inByte_accept]

/-- The state of a probe that read version byte `v`, before its record (R126). -/
def probeIdentified (v : Byte) (s : State) : State :=
  { afterTransaction (readAddressByte s.params.regVersion) dummyByte (probeResetIssued s) with
    link := .identified v, rdata := some v }

@[simp] theorem probeIdentified_link (v : Byte) (s : State) : (probeIdentified v s).link = .identified v := rfl

/-- The version byte is the fourth byte a probe reads (R126). -/
theorem exec_probe_ready {s : State} (h : Ready s) :
    exec .probe s = .next (finish (sinkRecord (identificationText (inByte s 24)) (verdictOf (inByte s 24))
      (probeIdentified (inByte s 24) s))) := by
  obtain ⟨hBusy, hGuard⟩ := h
  have hWrite : runSlots (writeTransaction s.params.capture s.params.regCommand s.params.cmdSoftReset [.linkReset])
      (accept .probe probeWord s) = .next (linkReset (afterTransaction (writeAddressByte s.params.regCommand)
        s.params.cmdSoftReset (accept .probe probeWord s))) :=
    runSlots_transaction (s := accept .probe probeWord s) rfl hGuard _ _ _
  have hRead : runSlots (readTransaction s.params.capture s.params.regVersion [.identify, .latchResult])
      (probeResetIssued s) = .next (probeIdentified (inByte s 24) s) := by
    rw [readTransaction, runSlots_transaction (cap := s.params.capture) (s := probeResetIssued s) rfl rfl,
      performAssigns_cons, performAssign, identify_of_srIn (afterTransaction_srIn _ _ _), andThen_next,
      performAssigns_singleton, inByte_probeResetIssued]
    exact latchResult_of_srIn (by simp)
  refine issueCommand_of_runSlots hBusy ?_
  calc runSlots (probeSlots s.params) (accept .probe probeWord s)
    _ = runSlots (readTransaction s.params.capture s.params.regVersion [.identify, .latchResult] ++
          [⟨.reportVersion, []⟩]) (probeResetIssued s) := by
      rw [probeSlots, runSlots_append_next hWrite]
      rfl
    _ = runSlots [⟨.reportVersion, []⟩] (probeIdentified (inByte s 24) s) := runSlots_append_next hRead _

/-! Under `NONE`. -/

theorem identificationText_zero : identificationText 0x00#8 = "identification byte: 0x00" := by decide

theorem probeIdentified_answers_none {s : State} (h : s.params.capture = .none) (v : Byte) :
    (probeIdentified v s).misoIn = s.misoIn ∧ (probeIdentified v s).draws = s.draws := by
  obtain ⟨hMisoW, hDrawsW⟩ := afterTransaction_answers_none (s := accept .probe probeWord s) h
    (writeAddressByte s.params.regCommand) s.params.cmdSoftReset
  obtain ⟨hMisoR, hDrawsR⟩ := afterTransaction_answers_none (s := probeResetIssued s) h
    (readAddressByte s.params.regVersion) dummyByte
  exact ⟨hMisoR.trans hMisoW, hDrawsR.trans hDrawsW⟩

/-- Settles O26: what each command reads is an `inByte`, which is `0x00` under `NONE`, and its transfers take no answer. -/
theorem noneModeReadsZero : Obligations.NoneModeReadsZero := by
  intro s hReady hNone
  have hZero : ∀ n, inByte s n = 0x00#8 := inByte_none hNone
  refine ⟨fun b => ⟨_, exec_xfer_ready hReady b, congrArg some (hZero 0), ?xfer⟩,
    fun a v => ⟨_, exec_wrreg_ready hReady a v, ?wrregIn, ?wrreg⟩,
    fun a => ⟨_, exec_rdreg_ready hReady a, congrArg some (hZero 8), ?rdreg⟩,
    ⟨_, exec_probe_ready hReady, congrArg some (hZero 24), ?probeFault, ?probeRecord, ?probe⟩⟩
  case xfer => simp [afterByte_answers_none, hNone]
  case wrregIn => rw [finish_srIn, afterTransaction_srIn, inByte_accept, hZero]
  case wrreg => simp [afterTransaction_answers_none, hNone]
  case rdreg => simp [afterTransaction_answers_none, hNone]
  case probeFault =>
    rw [linkFault_iff, finish_link, sinkRecord_link, probeIdentified_link, hZero]
    exact .inl rfl
  case probeRecord => rw [hZero, ← identificationText_zero]; rfl
  case probe => simp [probeIdentified_answers_none, hNone]

end Sys2Proof.Machine
end

section
/-! The record of a probe (43_device_probe.md R129 to R132): the digits of its text, its verdict, and the obligation O23
from them. -/

namespace Sys2Proof.Machine

/-- The digits of `HEX2` are the upper-case ones (R132). -/
theorem hexDigits_getElem? : ∀ n < 16, "0123456789ABCDEF".toList[n]? = some (hexDigit n) := by decide

theorem verdictOf_eq_linkFault_iff (v : Byte) : verdictOf v = .linkFault ↔ v = 0x00#8 ∨ v = 0xFF#8 := by
  simp [verdictOf, or_iff_not_imp_left]

/-- The verdict of a version byte and the flag `LINK_FAULT` are one test (R34, R129). -/
theorem linkFault_iff_verdictOf {s : State} {v : Byte} (h : s.link = .identified v) :
    s.linkFault = true ↔ verdictOf v = .linkFault := by
  rw [linkFault_iff, verdictOf_eq_linkFault_iff, h, Link.identified.injEq, Link.identified.injEq]

/-- Settles O23: the record is the last slot of the list and is made of the version byte, whose two digits are below 16. -/
theorem probeReportsOneRecord : Obligations.ProbeReportsOneRecord := by
  intro s hReady
  have hByte : (inByte s 24).toNat < 256 := (inByte s 24).isLt
  refine ⟨_, inByte s 24, hexDigit ((inByte s 24).toNat / 16), hexDigit ((inByte s 24).toNat % 16),
    verdictOf (inByte s 24), exec_probe_ready hReady, rfl, rfl, rfl, rfl, verdictOf_eq_linkFault_iff _,
    hexDigits_getElem? _ (by omega), hexDigits_getElem? _ (by omega), rfl, ?lastEvent, ?flag⟩
  case lastEvent =>
    rw [finish_trace, sinkRecord_trace, List.getLast?_concat]
    rfl
  case flag => exact linkFault_iff_verdictOf rfl

end Sys2Proof.Machine
end

section
/-! The abort sequence (60_exceptions.md R144 to R146): its restoring events as one list, what one of its events does, the
step at each of its boundaries, and the obligations O46 and O47 from these. -/

namespace Sys2Proof.Machine

/-! One event of the sequence. -/

/-- The restoring events still to come, in the order of R145. -/
def restoringEvents (s : State) : List Event :=
  (if s.guard then [.guardRel] else []) ++ (if s.sclk then [.ck false] else []) ++ (if s.csN then [] else [.cs true])

/-- `s` after its restoring events: guard free, clock low, chip-select high (R145). -/
def restored (s : State) : State :=
  { s with guard := false, sclk := false, csN := true, trace := s.trace ++ restoringEvents s }

theorem restoringEvents_length (s : State) :
    (restoringEvents s).length = s.guard.toNat + s.sclk.toNat + (!s.csN).toNat := by
  unfold restoringEvents
  cases s.guard <;> cases s.sclk <;> cases s.csN <;> rfl

theorem trace_append_restoringEvents (s : State) :
    s.trace ++ restoringEvents s = s.trace ++ (if s.guard then [.guardRel] else []) ++
      (if s.sclk then [.ck false] else []) ++ (if s.csN then [] else [.cs true]) := by
  simp [restoringEvents]

/-- What an event of the sequence leaves unchanged, the ending `ABORT` included. -/
theorem abortEvent_frame (s : State) :
    (abortEvent s).held = s.held ∧ (abortEvent s).hostData = s.hostData ∧ (abortEvent s).inputs = s.inputs := by
  obtain ⟨-, h⟩ | ⟨-, -, h⟩ | ⟨-, -, -, h⟩ | ⟨-, -, -, h⟩ := abortEvent_cases s
  all_goals
    rw [h]
    exact ⟨rfl, rfl, rfl⟩

/-- One event of the sequence is recorded, and it is `ABORT` exactly when it ends the sequence (R145). -/
theorem abortEvent_records_one {s : State} (hAborting : s.aborting = true) :
    ∃ e ∈ [Event.guardRel, .ck false, .cs true, .abort],
      (abortEvent s).trace = s.trace ++ [e] ∧ ((abortEvent s).aborting = false ↔ e = .abort) := by
  obtain ⟨-, h⟩ | ⟨-, -, h⟩ | ⟨-, -, -, h⟩ | ⟨-, -, -, h⟩ := abortEvent_cases s
  · exact ⟨.guardRel, by simp, by simp [h, hAborting]⟩
  · exact ⟨.ck false, by simp, by simp [h, hAborting]⟩
  · exact ⟨.cs true, by simp, by simp [h, hAborting]⟩
  · exact ⟨.abort, by simp, by simp [h]⟩

/-- With nothing to restore the event is `ABORT`. -/
theorem abortEvent_of_restored {s : State} (h : restoringEvents s = []) : abortEvent s = abortEffects (restored s) := by
  obtain ⟨hg, -⟩ | ⟨-, hc, -⟩ | ⟨-, -, hs, -⟩ | ⟨hg, hc, hs, hEvent⟩ := abortEvent_cases s
  · simp [restoringEvents, hg] at h
  · simp [restoringEvents, hc] at h
  · simp [restoringEvents, hs] at h
  · have hSame : restored s = s := by
      cases s
      simp_all [restored]
    rw [hEvent, hSame]

/-- A restoring event is the first of those to come; it leaves the others, the same restored state, and the sequence in
progress. -/
theorem abortEvent_of_restoring {s : State} {e : Event} {es : List Event} (h : restoringEvents s = e :: es) :
    restoringEvents (abortEvent s) = es ∧ restored (abortEvent s) = restored s ∧
      (abortEvent s).aborting = s.aborting := by
  obtain ⟨hg, hEvent⟩ | ⟨hg, hc, hEvent⟩ | ⟨hg, hc, hs, hEvent⟩ | ⟨hg, hc, hs, -⟩ := abortEvent_cases s
  · simp_all [restoringEvents, restored, guardRelease, record]
  · simp_all [restoringEvents, restored, setClock, record]
  · simp_all [restoringEvents, restored, setChipSelect, record]
  · simp [restoringEvents, hg, hc, hs] at h

/-! The step at a boundary of the sequence. -/

/-- `s` with schedule `i`. -/
def withInputs (i : List Inputs) (s : State) : State := { s with inputs := i }

@[simp] theorem withInputs_aborting (i : List Inputs) (s : State) : (withInputs i s).aborting = s.aborting := rfl
@[simp] theorem withInputs_inputs (i : List Inputs) (s : State) : (withInputs i s).inputs = i := rfl
@[simp] theorem restoringEvents_withInputs (i : List Inputs) (s : State) :
    restoringEvents (withInputs i s) = restoringEvents s := rfl
@[simp] theorem restored_withInputs (i : List Inputs) (s : State) :
    restored (withInputs i s) = withInputs i (restored s) := rfl

/-- What stays of the schedule after a boundary of the sequence: a host access that did not take place (log 20). -/
def keptInputs : List Inputs → List Inputs
  | [] => []
  | x :: later => keepHost x later

/-- The step at every boundary of the sequence, the first included, unless RESET is asserted (R144, R150). -/
theorem step_abort {s : State} (hReset : ∀ x later, s.inputs = x :: later → x.reset = false)
    (hAbort : s.aborting = true ∨ (s.busy = true ∧ ∃ x later, s.inputs = x :: later ∧ x.abort = true)) :
    step s = .next (abortEvent (withInputs (keptInputs s.inputs) { s with aborting := true })) := by
  cases hInputs : s.inputs with
  | nil =>
    have hAborting : s.aborting = true := hAbort.resolve_right (by simp [hInputs])
    simp [withInputs, step, advance, boundaryStep, keptInputs, keepHost, hInputs, hAborting]
  | cons x later =>
    have hNoReset : x.reset = false := hReset x later hInputs
    by_cases hAborting : s.aborting = true
    · simp [withInputs, step, advance, boundaryStep, keptInputs, hInputs, hNoReset, hAborting]
    · have hBegins : s.busy = true ∧ x.abort = true := by simpa [hInputs, hAborting] using hAbort
      simp [withInputs, step, advance, boundaryStep, abortBegin, keptInputs, hInputs, hNoReset, hAborting, hBegins]

/-- The sequence goes on by one event where the outside is quiet. -/
theorem step_aborting_quiet {s : State} (hAborting : s.aborting = true) (hQuiet : QuietFor 1 s) :
    step s = .next (abortEvent (withInputs (s.inputs.drop 1) s)) := by
  have hFirst : ∀ x later, s.inputs = x :: later → x = {} := fun x later h => hQuiet x (by simp [h])
  have hKept : keptInputs s.inputs = s.inputs.drop 1 := by
    cases hInputs : s.inputs with
    | nil => rfl
    | cons x later => rw [hFirst x later hInputs]; rfl
  rw [step_abort (fun x later h => by rw [hFirst x later h]) (.inl hAborting), hKept, ← hAborting]

/-- The rest of the sequence after one of its events, while the outside is quiet. -/
theorem runSteps_abortEvent (n : Nat) : ∀ s : State, s.aborting = true → (restoringEvents s).length = n → QuietFor n s →
    runSteps n (abortEvent s) = .next (abortEffects (restored (withInputs (s.inputs.drop n) s))) := by
  induction n with
  | zero =>
    intro s _ hLength _
    exact congrArg Host.Outcome.next (abortEvent_of_restored (List.length_eq_zero_iff.1 hLength))
  | succ n ih =>
    intro s hAborting hLength hQuiet
    obtain ⟨e, es, hEvents⟩ := List.exists_cons_of_length_eq_add_one hLength
    obtain ⟨hRest, hRestored, hGoesOn⟩ := abortEvent_of_restoring hEvents
    obtain ⟨-, -, hInputs⟩ := abortEvent_frame s
    have hQuietNow : QuietFor 1 (abortEvent s) := by
      rw [QuietFor, hInputs]
      exact hQuiet.mono (by omega)
    have hQuietRest : QuietFor n (withInputs (s.inputs.drop 1) (abortEvent s)) :=
      QuietFor.drop (k := 1) (by rwa [Nat.add_comm]) rfl
    calc runSteps (n + 1) (abortEvent s)
      _ = runSteps n (abortEvent (withInputs (s.inputs.drop 1) (abortEvent s))) := by
        rw [runSteps_succ, step_aborting_quiet (hGoesOn.trans hAborting) hQuietNow, andThen_next, hInputs]
      _ = .next (abortEffects (restored (withInputs ((s.inputs.drop 1).drop n) (abortEvent s)))) :=
        ih _ (hGoesOn.trans hAborting) (by simpa [hRest, hEvents] using hLength) hQuietRest
      _ = .next (abortEffects (restored (withInputs (s.inputs.drop (n + 1)) s))) := by
        rw [restored_withInputs, hRestored, List.drop_drop, Nat.add_comm, restored_withInputs]

/-! The obligations. -/

/-- Settles O46: the first boundary performs the first event and the quiet ones after it the rest. -/
theorem abortRestoresAndEnds : Obligations.AbortRestoresAndEnds := by
  intro s later n hBusy hNotAborting hInputs hn hQuiet
  have hFirst : step s = .next (abortEvent (withInputs later { s with aborting := true })) := by
    rw [step_abort (by simp [hInputs]) (.inr ⟨hBusy, _, _, hInputs, rfl⟩), hInputs]
    rfl
  have hRest := runSteps_abortEvent n (withInputs later { s with aborting := true }) rfl
    ((restoringEvents_length _).trans hn.symm) hQuiet
  refine ⟨abortEffects (restored (withInputs (later.drop n) { s with aborting := true })), ?run, ?state, rfl⟩
  case run => rwa [Nat.add_comm, runSteps_succ, hFirst, andThen_next]
  case state =>
    rw [← trace_append_restoringEvents, hNotAborting]
    rfl

/-- Settles O47: each boundary of the sequence is one `abortEvent`, whose frame and record are the claim. -/
theorem abortSequenceIsAtomic : Obligations.AbortSequenceIsAtomic := by
  intro s hReset hAbort
  obtain ⟨e, hMem, hTrace, hEnds⟩ :=
    abortEvent_records_one (s := withInputs (keptInputs s.inputs) { s with aborting := true }) rfl
  obtain ⟨hHeld, hData, hKept⟩ := abortEvent_frame (withInputs (keptInputs s.inputs) { s with aborting := true })
  refine ⟨_, e, step_abort hReset hAbort, hTrace, hMem, hHeld, hData, hEnds, ?exhausted, ?toCome⟩
  case exhausted =>
    intro h
    rw [hKept, withInputs_inputs, h]
    rfl
  case toCome =>
    intro x later h
    rw [hKept, withInputs_inputs, h]
    exact ⟨fun a hHost => by simp [keptInputs, keepHost, hHost], fun hNone => by simp [keptInputs, keepHost, hNone]⟩

end Sys2Proof.Machine
end

section
/-! Power-on and the RESET input (70_reset_and_hazards.md R160 to R164): construction of a well-formed instance, the reset
sequence as one exact next state, the step at a boundary that asserts RESET, and the obligations O7 and O10 from them. -/

namespace Sys2Proof.Machine

/-! Power-on. -/

theorem instantiate_of_wellFormed {p : Params} (h : p.wellFormed = true) : instantiate p = .next (State.powerOn p) :=
  if_pos h

/-- Settles O7: construction answers `State.powerOn p`, whose fields are the reset table of R43. -/
theorem powerOnIsTheResetState : Obligations.PowerOnIsTheResetState := by
  intro p hWellFormed
  exact ⟨State.powerOn p, instantiate_of_wellFormed hWellFormed, rfl, rfl, rfl, rfl, rfl, rfl, rfl, rfl, rfl, rfl, rfl,
    rfl, rfl, rfl, rfl, rfl, rfl, rfl, rfl⟩

/-! The reset sequence. -/

/-- The lines and the guard after R162's restoring events, with the events in order; nothing else is touched. -/
theorem resetLines_eq (s : State) :
    resetLines s = { s with
      csN := true, sclk := false, mosi := false, guard := false,
      trace := s.trace ++ (if s.guard then [.guardRel] else []) ++ [.ck false, .cs true, .dout false] } := by
  cases hGuard : s.guard with
  | true => simp [resetLines, hGuard, guardRelease, setClock, setChipSelect, setDataOut, record]
  | false =>
    have hFree : s = { s with guard := false } := by rw [← hGuard]
    rw [hFree]
    simp [resetLines, setClock, setChipSelect, setDataOut, record]

/-- The whole effect of R162: the values of R43 with the events appended, and nothing else. -/
theorem resetSequence_eq (s : State) :
    resetSequence s = { s with
      csN := true, sclk := false, mosi := false, guard := false, busy := false, phase := .idle,
      srOut := some 0x00#8, srIn := some 0x00#8, bitCnt := some 0, curCmd := none, rdata := none, link := .uninit,
      illegal := false, aborted := false, aborting := false,
      trace := s.trace ++ (if s.guard then [.guardRel] else []) ++ [.ck false, .cs true, .dout false, .reset] } := by
  rw [resetSequence, resetLines_eq]
  simp [record]

@[simp] theorem resetSequence_rdataValid (s : State) : (resetSequence s).rdataValid = false := by
  simp [State.rdataValid]

@[simp] theorem resetSequence_linkver (s : State) : (resetSequence s).linkver = none := by
  simp [State.linkver, Link.version]

/-- Every field of `STATUS` is at its power-on value. -/
@[simp] theorem resetSequence_status (s : State) : (resetSequence s).status = 0x00#8 := by
  rw [resetSequence_eq]
  exact status_powerOn s.params

/-! The boundary at which RESET is asserted. -/

/-- RESET before everything else at its boundary (R150). -/
theorem step_reset {s : State} {x : Inputs} {rest : List Inputs} (hInputs : s.inputs = x :: rest)
    (hReset : x.reset = true) : step s = .next (resetSequence (withInputs (keepHost x rest) s)) := by
  simp [step, advance, boundaryStep, withInputs, hInputs, hReset]

theorem keepHost_of_none {x : Inputs} (h : x.host = none) (rest : List Inputs) : keepHost x rest = rest := by
  simp [keepHost, h]

theorem keepHost_of_some {x : Inputs} {a : AgentAccess} (h : x.host = some a) (rest : List Inputs) :
    keepHost x rest = { host := some a } :: rest := by
  simp [keepHost, h]

/-- Settles O10: the step at such a boundary is the reset sequence, run with the schedule that `keepHost` leaves. -/
theorem resetInputResets : Obligations.ResetInputResets := by
  intro s x rest hInputs hReset
  have hSchedule : (resetSequence (withInputs (keepHost x rest) s)).inputs = keepHost x rest := resetSequence_inputs _
  refine ⟨_, step_reset hInputs hReset, ?noAccess, ?pending, ?state, resetSequence_rdataValid _,
    resetSequence_linkver _, resetSequence_status _⟩
  case noAccess => exact fun hNone => hSchedule.trans (keepHost_of_none hNone rest)
  case pending => exact fun a hHost => hSchedule.trans (keepHost_of_some hHost rest)
  case state =>
    rw [hSchedule]
    exact resetSequence_eq _

end Sys2Proof.Machine
end

section
/-! Encoding and decoding (30_encoding.md R61 to R73, R79): the two directions of each encoded form, the rows of the
table as conditions on the fields of a word, and the obligations O1 to O4 and O6 from them. -/

namespace Sys2Proof.Machine

/-! Frames. -/

theorem decodeFrame_writeFrameByte (r : Addr) (v : Byte) :
    decodeFrame (writeFrameByte r) v = .ok (.frameWrite r v) := by
  have hDir : (writeFrameByte r).getLsbD 7 = false := by simp [writeFrameByte]
  have hReg : (writeFrameByte r).extractLsb' 0 7 = r := by
    ext i hi
    simp only [writeFrameByte, BitVec.getElem_extractLsb', Nat.zero_add, BitVec.getLsbD_setWidth,
      decide_eq_true (show i < 8 by omega), Bool.true_and, BitVec.getLsbD_eq_getElem hi]
  rw [decodeFrame, hDir, hReg]
  rfl

theorem decodeFrame_readFrameByte (r : Addr) : decodeFrame (readFrameByte r) 0x00#8 = .ok (.frameRead r) := by
  revert r
  decide +kernel

theorem readFrameByte_of_read : ∀ b : Byte, b.getLsbD 7 = true → readFrameByte (b.extractLsb' 0 7) = b := by
  decide +kernel

theorem writeFrameByte_of_write : ∀ b : Byte, b.getLsbD 7 = false → writeFrameByte (b.extractLsb' 0 7) = b := by
  decide +kernel

theorem encode_of_decodeFrame {b0 b1 : Byte} {i : Instr} (h : decodeFrame b0 b1 = .ok i) :
    encode i = .frame b0 b1 := by
  unfold decodeFrame at h
  split at h
  case isTrue hDir =>
    split at h
    case isTrue hDummy =>
      cases h
      rw [encode, readFrameByte_of_read b0 hDir, hDummy]
    case isFalse => cases h
  case isFalse hDir =>
    cases h
    rw [encode, writeFrameByte_of_write b0 (Bool.eq_false_iff.2 hDir)]

/-! Command words. -/

/-- A word that decodes has its `RSV` bits 0, so it is built from its fields, which are those of the instruction. -/
theorem encode_of_decodeCmd {w : CmdWord} {i : Instr} (h : decodeCmd w = .ok i) : encode i = .cmd w := by
  obtain ⟨hRsv, hRow⟩ := decodeCmd_eq_ok.1 h
  have hFields := cmdWord_fields hRsv
  obtain ⟨hOp, hAddr, rfl⟩ | ⟨hOp, rfl⟩ | ⟨hOp, hData, rfl⟩ | ⟨hOp, hAddr, hData, rfl⟩ := hRow
  · rw [hOp, hAddr] at hFields
    exact congrArg Encoded.cmd hFields
  · rw [hOp] at hFields
    exact congrArg Encoded.cmd hFields
  · rw [hOp, hData] at hFields
    exact congrArg Encoded.cmd hFields
  · rw [hOp, hAddr, hData] at hFields
    exact congrArg Encoded.cmd hFields

/-- Settles O2: a command word carries the fields it was built from; a frame carries its direction and its register. -/
theorem decodeOfEncode : Obligations.DecodeOfEncode := by
  intro i
  cases i with
  | xfer b => exact decodeCmd_eq_ok.2 (by simp [xferWord])
  | wrreg a v => exact decodeCmd_eq_ok.2 (by simp [wrregWord])
  | rdreg a => exact decodeCmd_eq_ok.2 (by simp [rdregWord])
  | probe => exact decodeCmd_eq_ok.2 (by simp [probeWord])
  | frameWrite r v => exact decodeFrame_writeFrameByte r v
  | frameRead r => exact decodeFrame_readFrameByte r

/-- Settles O3, by the form of what decodes. -/
theorem encodeOfDecode : Obligations.EncodeOfDecode := by
  intro e i h
  cases e with
  | cmd w => exact encode_of_decodeCmd h
  | frame b0 b1 => exact encode_of_decodeFrame h

/-! The rows of the table. A mask of whole fields is a condition on each of them. -/

theorem opField_and (w m : CmdWord) : opField (w &&& m) = opField w &&& opField m := BitVec.extractLsb'_and ..
theorem rsvField_and (w m : CmdWord) : rsvField (w &&& m) = rsvField w &&& rsvField m := BitVec.extractLsb'_and ..
theorem addrField_and (w m : CmdWord) : addrField (w &&& m) = addrField w &&& addrField m := BitVec.extractLsb'_and ..
theorem dataField_and (w m : CmdWord) : dataField (w &&& m) = dataField w &&& dataField m := BitVec.extractLsb'_and ..

theorem opField_of_match {w mask m : CmdWord} (h : w &&& mask = m) (hMask : opField mask = BitVec.allOnes 4) :
    opField w = opField m := by
  rw [← h, opField_and, hMask, BitVec.and_allOnes]

theorem rsvField_of_match {w mask m : CmdWord} (h : w &&& mask = m) (hMask : rsvField mask = BitVec.allOnes 5) :
    rsvField w = rsvField m := by
  rw [← h, rsvField_and, hMask, BitVec.and_allOnes]

theorem addrField_of_match {w mask m : CmdWord} (h : w &&& mask = m) (hMask : addrField mask = BitVec.allOnes 7) :
    addrField w = addrField m := by
  rw [← h, addrField_and, hMask, BitVec.and_allOnes]

theorem dataField_of_match {w mask m : CmdWord} (h : w &&& mask = m) (hMask : dataField mask = BitVec.allOnes 8) :
    dataField w = dataField m := by
  rw [← h, dataField_and, hMask, BitVec.and_allOnes]

theorem decodeCmd_of_xfer_row {w : CmdWord} (h : w &&& 0xFFFF00#24 = 0x100000#24) :
    decodeCmd w = .ok (.xfer (dataField w)) :=
  decodeCmd_eq_ok.2 ⟨rsvField_of_match h (by decide),
    .inl ⟨opField_of_match h (by decide), addrField_of_match h (by decide), rfl⟩⟩

theorem decodeCmd_of_wrreg_row {w : CmdWord} (h : w &&& 0xFF8000#24 = 0x200000#24) :
    decodeCmd w = .ok (.wrreg (addrField w) (dataField w)) :=
  decodeCmd_eq_ok.2 ⟨rsvField_of_match h (by decide), .inr (.inl ⟨opField_of_match h (by decide), rfl⟩)⟩

theorem decodeCmd_of_rdreg_row {w : CmdWord} (h : w &&& 0xFF80FF#24 = 0x300000#24) :
    decodeCmd w = .ok (.rdreg (addrField w)) :=
  decodeCmd_eq_ok.2 ⟨rsvField_of_match h (by decide),
    .inr (.inr (.inl ⟨opField_of_match h (by decide), dataField_of_match h (by decide), rfl⟩))⟩

theorem decodeCmd_of_probe_row {w : CmdWord} (h : w &&& 0xFFFFFF#24 = 0x400000#24) : decodeCmd w = .ok .probe :=
  decodeCmd_eq_ok.2 ⟨rsvField_of_match h (by decide), .inr (.inr (.inr
    ⟨opField_of_match h (by decide), addrField_of_match h (by decide), dataField_of_match h (by decide), rfl⟩))⟩

/-- The word of a command lies in one of the four rows. -/
theorem legal_of_encode {w : CmdWord} {i : Instr} (h : encode i = .cmd w) : legal w = true := by
  cases i with
  | xfer b =>
    have hRow : (xferWord b &&& 0xFFFF00#24 == 0x100000#24) = true := Laws.TableRow.xfer b
    cases h
    simp only [legal, hRow, Bool.true_or]
  | wrreg a v =>
    have hRow : (wrregWord a v &&& 0xFF8000#24 == 0x200000#24) = true := Laws.TableRow.wrreg a v
    cases h
    simp only [legal, hRow, Bool.true_or, Bool.or_true]
  | rdreg a =>
    have hRow : (rdregWord a &&& 0xFF80FF#24 == 0x300000#24) = true := Laws.TableRow.rdreg a
    cases h
    simp only [legal, hRow, Bool.true_or, Bool.or_true]
  | probe =>
    have hRow : (probeWord &&& 0xFFFFFF#24 == 0x400000#24) = true := Laws.TableRow.probe
    cases h
    simp only [legal, hRow, Bool.or_true]
  | frameWrite r v => cases h
  | frameRead r => cases h

/-- A word outside the rows is an error (R68). -/
theorem decodeCmd_of_not_legal {w : CmdWord} (h : legal w = false) : ∃ e, decodeCmd w = .error e := by
  cases hDecode : decodeCmd w with
  | error e => exact ⟨e, rfl⟩
  | ok i =>
    have hLegal := legal_of_encode (encode_of_decodeCmd hDecode)
    rw [h] at hLegal
    cases hLegal

/-- `OP` selects the row: under any other `OP` the match fails. -/
theorem row_le_opField {w mask m : CmdWord} (hMask : opField mask = BitVec.allOnes 4) :
    (w &&& mask == m).toNat ≤ if opField w = opField m then 1 else 0 := by
  cases hRow : w &&& mask == m with
  | false => exact Nat.zero_le _
  | true => rw [if_pos (opField_of_match (eq_of_beq hRow) hMask)]; rfl

theorem count_true_four (a b c d : Bool) : [a, b, c, d].count true = a.toNat + b.toNat + c.toNat + d.toNat := by
  revert a b c d
  decide

/-- Settles O4: each row fixes the fields its mask covers, a word that decodes lies in a row, and `OP` tells the rows
apart. -/
theorem decodeFollowsTheRows : Obligations.DecodeFollowsTheRows := by
  intro w
  refine ⟨decodeCmd_of_xfer_row, decodeCmd_of_wrreg_row, decodeCmd_of_rdreg_row, decodeCmd_of_probe_row,
    decodeCmd_of_not_legal, ?oneRow⟩
  have hXfer := row_le_opField (w := w) (mask := 0xFFFF00#24) (m := 0x100000#24) (by decide)
  have hWrreg := row_le_opField (w := w) (mask := 0xFF8000#24) (m := 0x200000#24) (by decide)
  have hRdreg := row_le_opField (w := w) (mask := 0xFF80FF#24) (m := 0x300000#24) (by decide)
  have hProbe := row_le_opField (w := w) (mask := 0xFFFFFF#24) (m := 0x400000#24) (by decide)
  have hOps : ∀ op : BitVec 4, (if op = opField 0x100000#24 then 1 else 0) + (if op = opField 0x200000#24 then 1 else 0) +
      (if op = opField 0x300000#24 then 1 else 0) + (if op = opField 0x400000#24 then 1 else 0) ≤ 1 := by decide
  have hOp := hOps (opField w)
  rw [count_true_four]
  omega

/-! Fixed words and the pseudo-instructions. -/

/-- Settles O1. -/
theorem writtenOutWordsDecode : Obligations.WrittenOutWordsDecode := by
  unfold Obligations.WrittenOutWordsDecode
  decide

theorem assemble_softreset (p : Params) :
    assemble p .softreset = some (wrregWord p.regCommand p.cmdSoftReset) :=
  assemble_of_instr (i := .wrreg p.regCommand p.cmdSoftReset) rfl rfl

theorem assemble_rdver (p : Params) : assemble p .rdver = some (rdregWord p.regVersion) :=
  assemble_of_instr (i := .rdreg p.regVersion) rfl rfl

/-- Settles O6: both sides assemble to the one word. -/
theorem pseudoInstructionsExpand : Obligations.PseudoInstructionsExpand := by
  intro p
  exact ⟨(assemble_softreset p).trans (assemble_wrreg_toNat p _ _).symm, assemble_softreset p,
    (assemble_rdver p).trans (assemble_rdreg_toNat p _).symm, assemble_rdver p⟩

end Sys2Proof.Machine
end

section
/-! What each instruction does from a ready state, as one exact next state (41_bit_transfer.md R97, 42_register_access.md
R109 to R112, 43_device_probe.md R126, 30_encoding.md R72 and R73): the obligations O13, O15, O16, O17 and O21, and O27,
what none of them touches. -/

namespace Sys2Proof.Machine

/-- The exact state a transaction leaves: its second byte's registers, chip-select high, the answers of sixteen bits
taken. -/
theorem afterTransaction_eq (b0 b1 : Byte) (s : State) :
    afterTransaction b0 b1 s = { afterDraws (drawsFor s.params.capture 16) s with
      srOut := some 0x00#8, srIn := some (inByte s 8), bitCnt := some 8, mosi := b1.getLsbD 0, sclk := false,
      csN := true, guard := false,
      trace := s.trace ++ transactionEvents s.params.capture b0 (inByte s 0) b1 (inByte s 8) } := by
  have hDraws : afterDraws (drawsFor s.params.capture 8) (afterDraws (drawsFor s.params.capture 8) s) =
      afterDraws (drawsFor s.params.capture 16) s := by rw [afterDraws_afterDraws, drawsFor_add]
  have hFirst : inByte (busyWait .csLead (setChipSelect false s)) 0 = inByte s 0 := inByte_lead s 0
  have hSecond : inByte (afterByte b0 (busyWait .csLead (setChipSelect false s))) 0 = inByte s 8 := by
    rw [inByte_afterByte, inByte_lead]
  have hTrace : (afterTransaction b0 b1 s).trace =
      s.trace ++ transactionEvents s.params.capture b0 (inByte s 0) b1 (inByte s 8) :=
    calc (afterTransaction b0 b1 s).trace
      _ = s.trace ++ [.cs false] ++ [.wait .csLead] ++ byteEvents s.params.capture b0 (inByte s 0) ++
            byteEvents s.params.capture b1 (inByte s 8) ++ [.cs true] ++ [.wait .csTrail] := by
        rw [← hFirst, ← hSecond]
        rfl
      _ = s.trace ++ transactionEvents s.params.capture b0 (inByte s 0) b1 (inByte s 8) := by
        simp [transactionEvents]
  rw [← hTrace, ← hDraws, ← hSecond]
  rfl

/-- Settles O13. -/
theorem xferCompletes : Obligations.XferCompletes := by
  intro b s hReady
  rw [exec_xfer_ready hReady]
  rfl

/-- Settles O15. -/
theorem wrregCompletes : Obligations.WrregCompletes := by
  intro a v s hReady
  rw [exec_wrreg_ready hReady, afterTransaction_eq]
  rfl

/-- Settles O16. -/
theorem rdregCompletes : Obligations.RdregCompletes := by
  intro a s hReady
  rw [exec_rdreg_ready hReady, afterTransaction_eq]
  rfl

/-- Settles O17: a frame on the idle block is its transaction and nothing else. -/
theorem framesComplete : Obligations.FramesComplete := by
  refine ⟨fun r v s hReady => ?write, fun r s hReady => ?read⟩
  case write =>
    obtain ⟨hBusy, hGuard⟩ := hReady
    rw [exec, execFrameWrite, issueFrame_idle hBusy, writeTransaction, runSlots_transaction rfl hGuard,
      performAssigns_nil, afterTransaction_eq]
    rfl
  case read =>
    obtain ⟨hBusy, hGuard⟩ := hReady
    rw [exec, execFrameRead, issueFrame_idle hBusy, readTransaction, runSlots_transaction rfl hGuard,
      performAssigns_nil, afterTransaction_eq]
    rfl

/-- The events of a probe onto a trace, transaction by transaction. -/
theorem append_probeEvents (p : Params) (m0 m1 m2 m3 : Byte) (es : List Event) :
    es ++ probeEvents p m0 m1 m2 m3 =
      es ++ transactionEvents p.capture (writeAddressByte p.regCommand) m0 p.cmdSoftReset m1 ++ [.wait .resetRecovery] ++
        transactionEvents p.capture (readAddressByte p.regVersion) m2 dummyByte m3 ++
        [.sink (identificationText m3) (verdictOf m3)] := by
  simp [probeEvents, dummyByte]

/-- Settles O21: two transactions one after the other, then the record. -/
theorem probeCompletes : Obligations.ProbeCompletes := by
  intro s hReady
  have hDraws : afterDraws (drawsFor s.params.capture 16) (afterDraws (drawsFor s.params.capture 16) s) =
      afterDraws (drawsFor s.params.capture 32) s := by rw [afterDraws_afterDraws, drawsFor_add]
  rw [exec_probe_ready hReady, probeIdentified, afterTransaction_eq _ _ (probeResetIssued s), inByte_probeResetIssued,
    inByte_probeResetIssued, probeResetIssued, afterTransaction_eq, inByte_accept, inByte_accept, append_probeEvents,
    ← hDraws]
  rfl

/-- Settles O27: read off the six exact next states. -/
theorem commandFrame : Obligations.CommandFrame := by
  intro i s t hReady hExec
  cases i with
  | xfer b =>
    cases hExec.symm.trans (xferCompletes b s hReady)
    simp [afterDraws, Instr.isCommand]
  | wrreg a v =>
    cases hExec.symm.trans (wrregCompletes a v s hReady)
    simp [afterDraws, Instr.isCommand]
  | rdreg a =>
    cases hExec.symm.trans (rdregCompletes a s hReady)
    simp [afterDraws, Instr.isCommand]
  | probe =>
    cases hExec.symm.trans (probeCompletes s hReady)
    simp [afterDraws, Instr.isCommand]
  | frameWrite r v =>
    cases hExec.symm.trans (framesComplete.1 r v s hReady)
    simp [afterDraws]
  | frameRead r =>
    cases hExec.symm.trans (framesComplete.2 r s hReady)
    simp [afterDraws]

end Sys2Proof.Machine
end

section
/-! The events each instruction records, as one function of its operands, the parameters and the bytes read; what such a
list holds; and the obligations O14, O18 to O20, O22, O24, O25 and O56. -/

namespace Sys2Proof.Machine

/-- The event list of an instruction whose byte of the answers from the n-th on is `m n` (41_bit_transfer.md R96,
42_register_access.md R109 and R110, 43_device_probe.md R137). -/
def instrEvents (p : Params) (m : Nat → Byte) : Instr → List Event
  | .xfer b => byteEvents p.capture b (m 0)
  | .wrreg a v => transactionEvents p.capture (a.zeroExtend 8) (m 0) v (m 8)
  | .rdreg a => transactionEvents p.capture (0x80#8 ||| a.zeroExtend 8) (m 0) 0x00#8 (m 8)
  | .probe => probeEvents p (m 0) (m 8) (m 16) (m 24)
  | .frameWrite r v => transactionEvents p.capture (r.zeroExtend 8) (m 0) v (m 8)
  | .frameRead r => transactionEvents p.capture (0x80#8 ||| r.zeroExtend 8) (m 0) 0x00#8 (m 8)

/-- From a ready state every instruction completes and records its events. -/
theorem exec_ready (i : Instr) {s : State} (h : Ready s) :
    ∃ t, exec i s = .next t ∧ t.trace = s.trace ++ instrEvents s.params (inByte s) i := by
  cases i with
  | xfer b => exact ⟨_, xferCompletes b s h, rfl⟩
  | wrreg a v => exact ⟨_, wrregCompletes a v s h, rfl⟩
  | rdreg a => exact ⟨_, rdregCompletes a s h, rfl⟩
  | probe => exact ⟨_, probeCompletes s h, rfl⟩
  | frameWrite r v => exact ⟨_, framesComplete.1 r v s h, rfl⟩
  | frameRead r => exact ⟨_, framesComplete.2 r s h, rfl⟩

theorem exec_ready_trace {i : Instr} {s t : State} (h : Ready s) (hExec : exec i s = .next t) :
    t.trace = s.trace ++ instrEvents s.params (inByte s) i := by
  obtain ⟨u, hu, hTrace⟩ := exec_ready i h
  rw [hExec] at hu
  cases hu
  exact hTrace

/-! The bytes read depend on the answers alone. -/

theorem spelledByte_congr {m m' : Nat → Level} (h : ∀ n < 8, m n = m' n) : spelledByte m = spelledByte m' := by
  simp only [spelledByte, h 0 (by omega), h 1 (by omega), h 2 (by omega), h 3 (by omega), h 4 (by omega),
    h 5 (by omega), h 6 (by omega), h 7 (by omega)]

theorem inByte_eq_of_answers {s s' : State} {n : Nat} (hCap : s.params.capture = s'.params.capture)
    (h : ∀ k, n ≤ k → k < n + 8 → answerAt s k = answerAt s' k) : inByte s n = inByte s' n := by
  unfold inByte
  rw [hCap]
  cases s'.params.capture with
  | none => rfl
  | sample => exact spelledByte_congr fun k hk => h (n + k) (by omega) (by omega)

/-- Settles O24: everything a probe reports is made of the byte of answers 24 to 31. -/
theorem probeDependsOnVersionAnswers : Obligations.ProbeDependsOnVersionAnswers := by
  intro s s' t t' hReady hReady' hCap hAnswers hExec hExec'
  rw [probeCompletes s hReady] at hExec
  rw [probeCompletes s' hReady'] at hExec'
  cases hExec
  cases hExec'
  simp [State.linkver, State.linkFault, inByte_eq_of_answers hCap hAnswers]

/-- Settles O25: the list recorded is `instrEvents` of the parameters and the bytes read. -/
theorem eventsDependOnOperandsAndAnswers : Obligations.EventsDependOnOperandsAndAnswers := by
  intro i s s' t t' hReady hReady' hParams hAnswers hExec hExec'
  have hBytes : inByte s = inByte s' :=
    funext fun n => inByte_eq_of_answers (by rw [hParams]) fun k _ _ => hAnswers k
  rw [exec_ready_trace hReady hExec, exec_ready_trace hReady' hExec', List.drop_left, List.drop_left, hParams, hBytes]

/-! XFER. -/

theorem bitsMsbFirst_inByte {s : State} (h : s.params.capture = .sample) :
    bitsMsbFirst (inByte s 0) = (List.range 8).map (answerAt s) := by
  have hByte : inByte s 0 = spelledByte (answerAt s) := by simp [inByte, h]
  rw [hByte, bitsMsbFirst_spelledByte]

/-- Settles O14: the events are one `byteEvents`, and all of those have one shape. -/
theorem xferShapeIsConstant : Obligations.XferShapeIsConstant := by
  intro b s hReady
  refine ⟨_, byteEvents s.params.capture b (inByte s 0), xferCompletes b s hReady, rfl, byteEvents_dataOut _ _ _,
    byteEvents_clock _ _ _, byteEvents_chipSelect _ _ _, ?result, ?shape⟩
  case result =>
    intro hSample
    have hLevels : dataInLevels (byteEvents s.params.capture b (inByte s 0)) = bitsMsbFirst (inByte s 0) := by
      rw [hSample, byteEvents_dataIn_sample]
    exact ⟨inByte s 0, rfl, hLevels, hLevels.trans (bitsMsbFirst_inByte hSample)⟩
  case shape =>
    intro b' s' t' es' hReady' hCap hExec' hTrace'
    have hEvents : es' = byteEvents s'.params.capture b' (inByte s' 0) :=
      List.append_cancel_left (hTrace'.symm.trans (exec_ready_trace hReady' hExec'))
    rw [hEvents, hCap]
    exact byteEvents_shape ..

/-! Transactions. -/

theorem transactionEvents_dataOut (cap : Capture) (b0 m0 b1 m1 : Byte) :
    dataOutLevels (transactionEvents cap b0 m0 b1 m1) = bitsMsbFirst b0 ++ bitsMsbFirst b1 := by
  simp only [transactionEvents, dataOutLevels_append, byteEvents_dataOut]
  rfl

theorem transactionEvents_clock (cap : Capture) (b0 m0 b1 m1 : Byte) :
    (clockLevels (transactionEvents cap b0 m0 b1 m1)).count true = 16 ∧
      (clockLevels (transactionEvents cap b0 m0 b1 m1)).count false = 16 := by
  simp only [transactionEvents, clockLevels_append, byteEvents_clock]
  exact ⟨rfl, rfl⟩

theorem transactionEvents_chipSelect (cap : Capture) (b0 m0 b1 m1 : Byte) :
    chipSelectLevels (transactionEvents cap b0 m0 b1 m1) = [false, true] := by
  simp only [transactionEvents, chipSelectLevels_append, byteEvents_chipSelect]
  rfl

theorem transactionEvents_length (cap : Capture) (b0 m0 b1 m1 : Byte) :
    (transactionEvents cap b0 m0 b1 m1).length = match cap with | .sample => 120 | .none => 104 := by
  simp only [transactionEvents, List.length_append, byteEvents_length]
  cases cap <;> rfl

theorem transactionEvents_dataIn_sample (b0 m0 b1 m1 : Byte) :
    dataInLevels (transactionEvents .sample b0 m0 b1 m1) = bitsMsbFirst m0 ++ bitsMsbFirst m1 := by
  simp only [transactionEvents, dataInLevels_append, byteEvents_dataIn_sample]
  rfl

theorem transactionEvents_dataIn_none (b0 m0 b1 m1 : Byte) :
    dataInLevels (transactionEvents .none b0 m0 b1 m1) = [] := by
  simp only [transactionEvents, dataInLevels_append, byteEvents_dataIn_none]
  rfl

theorem transactionEvents_guard (cap : Capture) (b0 m0 b1 m1 : Byte) :
    (transactionEvents cap b0 m0 b1 m1).count .guardAcq = 2 ∧
      (transactionEvents cap b0 m0 b1 m1).count .guardRel = 2 ∧
      (transactionEvents cap b0 m0 b1 m1).count (.wait .resetRecovery) = 0 := by
  simp only [transactionEvents, List.count_append, byteEvents_guard]
  exact ⟨rfl, rfl, rfl⟩

theorem transactionEvents_minMicros (p : Params) (cap : Capture) (b0 m0 b1 m1 : Byte) :
    minMicros p (transactionEvents cap b0 m0 b1 m1) =
      p.tCsLead + 2 * 8 * (p.tBitSettle + 2 * p.tHalf) + p.tCsTrail := by
  simp only [transactionEvents, minMicros_append, byteEvents_minMicros, minMicros, eventMicros, waitMicros]
  omega

/-- A byte transfer's list ends with the wait after the last falling edge and the release of the guard (R113). -/
theorem byteEvents_end (cap : Capture) (b m : Byte) :
    (byteEvents cap b m).drop ((byteEvents cap b m).length - 2) = [.wait .halfLow, .guardRel] := by
  cases cap <;> rfl

theorem append_byteEvents_end (cap : Capture) (b m : Byte) (es : List Event) :
    (es ++ byteEvents cap b m).drop ((es ++ byteEvents cap b m).length - 2) = [.wait .halfLow, .guardRel] := by
  have hTwo : 2 ≤ (byteEvents cap b m).length := by
    rw [byteEvents_length]
    cases cap <;> decide
  rw [List.length_append, Nat.add_sub_assoc hTwo, List.drop_length_add_append, byteEvents_end]

/-- The two register commands record one transaction. -/
theorem instrEvents_of_register {i : Instr} (h : (∃ a v, i = .wrreg a v) ∨ ∃ a, i = .rdreg a) (p : Params)
    (m : Nat → Byte) : ∃ b0 b1, instrEvents p m i = transactionEvents p.capture b0 (m 0) b1 (m 8) := by
  obtain ⟨a, v, rfl⟩ | ⟨a, rfl⟩ := h
  · exact ⟨_, _, rfl⟩
  · exact ⟨_, _, rfl⟩

/-- Settles O18: the list recorded is one `transactionEvents`, with its counts. -/
theorem transactionShape : Obligations.TransactionShape := by
  intro i s hReady hRegister
  obtain ⟨b0, b1, hEvents⟩ := instrEvents_of_register hRegister s.params (inByte s)
  obtain ⟨t, hExec, hTrace⟩ := exec_ready i hReady
  rw [hEvents] at hTrace
  obtain ⟨hRising, hFalling⟩ := transactionEvents_clock s.params.capture b0 (inByte s 0) b1 (inByte s 8)
  obtain ⟨hAcquired, hReleased, -⟩ := transactionEvents_guard s.params.capture b0 (inByte s 0) b1 (inByte s 8)
  have hSelect := transactionEvents_chipSelect s.params.capture b0 (inByte s 0) b1 (inByte s 8)
  have hLength := transactionEvents_length s.params.capture b0 (inByte s 0) b1 (inByte s 8)
  refine ⟨t, _, [.wait .csLead] ++ byteEvents s.params.capture b0 (inByte s 0) ++
    byteEvents s.params.capture b1 (inByte s 8), b0, inByte s 0, b1, inByte s 8, hExec, hTrace, ?span, rfl,
    append_byteEvents_end _ _ _ _, ?noSelect, hRising, hFalling, ?dataOut, ?selected, ?deselected, ?sample, ?none,
    hAcquired, hReleased⟩
  case span => simp [transactionEvents]
  case noSelect =>
    simp only [chipSelectLevels_append, byteEvents_chipSelect]
    rfl
  case dataOut => rw [transactionEvents_dataOut]; rfl
  case selected => rw [hSelect]; rfl
  case deselected => rw [hSelect]; rfl
  case sample =>
    intro hSample
    rw [hSample] at hLength ⊢
    exact ⟨by rw [transactionEvents_dataIn_sample]; rfl, hLength⟩
  case none =>
    intro hNone
    rw [hNone] at hLength ⊢
    exact ⟨transactionEvents_dataIn_none _ _ _ _, hLength⟩

theorem bitsMsbFirst_length (b : Byte) : (bitsMsbFirst b).length = 8 := rfl

theorem bitsMsbFirst_writeAddress (a : Addr) :
    bitsMsbFirst (a.zeroExtend 8) = false :: [6, 5, 4, 3, 2, 1, 0].map a.getLsbD := by
  revert a
  decide +kernel

theorem bitsMsbFirst_readAddress (a : Addr) :
    bitsMsbFirst (0x80#8 ||| a.zeroExtend 8) = true :: [6, 5, 4, 3, 2, 1, 0].map a.getLsbD := by
  revert a
  decide +kernel

/-- Settles O19: the two address bytes carry the same seven bits after the direction bit. -/
theorem readAndWriteDifferInDirectionBit : Obligations.ReadAndWriteDifferInDirectionBit := by
  intro a v s s' hReady hReady'
  refine ⟨_, _, _, _, _, wrregCompletes a v s hReady, rfl, rdregCompletes a s' hReady', rfl, ?write, ?read, rfl⟩
  case write => rw [transactionEvents_dataOut, List.take_left' (bitsMsbFirst_length _), bitsMsbFirst_writeAddress]
  case read => rw [transactionEvents_dataOut, List.take_left' (bitsMsbFirst_length _), bitsMsbFirst_readAddress]

/-- Settles O20: the second byte out is the dummy `0x00`. -/
theorem readSendsZeroDummy : Obligations.ReadSendsZeroDummy := by
  intro a s hReady
  refine ⟨_, _, rdregCompletes a s hReady, rfl, ?dummy, rfl⟩
  rw [transactionEvents_dataOut, List.drop_left' (bitsMsbFirst_length _)]
  rfl

/-! PROBE. -/

theorem probeEvents_dataOut (p : Params) (m0 m1 m2 m3 : Byte) :
    dataOutLevels (probeEvents p m0 m1 m2 m3) = bitsMsbFirst (p.regCommand.zeroExtend 8) ++ bitsMsbFirst p.cmdSoftReset ++
      bitsMsbFirst (0x80#8 ||| p.regVersion.zeroExtend 8) ++ bitsMsbFirst 0x00#8 := by
  simp only [probeEvents, dataOutLevels_append, transactionEvents_dataOut]
  rfl

theorem probeEvents_chipSelect (p : Params) (m0 m1 m2 m3 : Byte) :
    chipSelectLevels (probeEvents p m0 m1 m2 m3) = [false, true, false, true] := by
  simp only [probeEvents, chipSelectLevels_append, transactionEvents_chipSelect]
  rfl

theorem probeEvents_clock (p : Params) (m0 m1 m2 m3 : Byte) :
    (clockLevels (probeEvents p m0 m1 m2 m3)).count true = 32 ∧
      (clockLevels (probeEvents p m0 m1 m2 m3)).count false = 32 := by
  simp only [probeEvents, clockLevels_append, List.count_append, transactionEvents_clock]
  exact ⟨rfl, rfl⟩

theorem probeEvents_guard (p : Params) (m0 m1 m2 m3 : Byte) :
    (probeEvents p m0 m1 m2 m3).count .guardAcq = 4 ∧ (probeEvents p m0 m1 m2 m3).count .guardRel = 4 ∧
      (probeEvents p m0 m1 m2 m3).count (.wait .resetRecovery) = 1 := by
  simp [probeEvents, List.count_append, transactionEvents_guard]

theorem probeEvents_length (p : Params) (m0 m1 m2 m3 : Byte) :
    (probeEvents p m0 m1 m2 m3).length = if p.capture = .sample then 242 else 210 := by
  simp only [probeEvents, List.length_append, transactionEvents_length]
  cases p.capture <;> rfl

theorem probeEvents_minMicros (p : Params) (m0 m1 m2 m3 : Byte) :
    minMicros p (probeEvents p m0 m1 m2 m3) =
      2 * (p.tCsLead + 2 * 8 * (p.tBitSettle + 2 * p.tHalf) + p.tCsTrail) + 1000 * p.tResetRecovery := by
  simp only [probeEvents, minMicros_append, transactionEvents_minMicros, minMicros, eventMicros, waitMicros]
  omega

/-- Settles O22. -/
theorem probeEventCounts : Obligations.ProbeEventCounts := by
  intro s hReady
  obtain ⟨t, hExec, hTrace⟩ := exec_ready .probe hReady
  obtain ⟨hRising, hFalling⟩ := probeEvents_clock s.params (inByte s 0) (inByte s 8) (inByte s 16) (inByte s 24)
  obtain ⟨hAcquired, hReleased, hRecovery⟩ :=
    probeEvents_guard s.params (inByte s 0) (inByte s 8) (inByte s 16) (inByte s 24)
  have hSelect := probeEvents_chipSelect s.params (inByte s 0) (inByte s 8) (inByte s 16) (inByte s 24)
  have hData := probeEvents_dataOut s.params (inByte s 0) (inByte s 8) (inByte s 16) (inByte s 24)
  exact ⟨t, _, hExec, hTrace, probeEvents_length _ _ _ _ _, hRising, hFalling, congrArg List.length hData,
    congrArg (List.count false) hSelect, congrArg (List.count true) hSelect, hAcquired, hReleased, hRecovery, hData⟩

/-- Settles O56: the waits of each list, summed transaction by transaction and byte by byte. -/
theorem minimumDurations : Obligations.MinimumDurations := by
  intro s hReady
  refine ⟨fun b => ?xfer, fun i hRegister => ?register, ?probe⟩
  case xfer =>
    obtain ⟨t, hExec, hTrace⟩ := exec_ready (.xfer b) hReady
    exact ⟨t, _, hExec, hTrace, byteEvents_minMicros _ _ _ _⟩
  case register =>
    obtain ⟨b0, b1, hEvents⟩ := instrEvents_of_register hRegister s.params (inByte s)
    obtain ⟨t, hExec, hTrace⟩ := exec_ready i hReady
    exact ⟨t, _, hExec, hTrace, by rw [hEvents, transactionEvents_minMicros]⟩
  case probe =>
    obtain ⟨t, hExec, hTrace⟩ := exec_ready .probe hReady
    exact ⟨t, _, hExec, hTrace, probeEvents_minMicros _ _ _ _ _⟩

end Sys2Proof.Machine
end

section
/-! One boundary of the block: the idle step and the host access, one rule per case (10_state.md R20, R38 to R41, R44;
60_exceptions.md R143, R147, R157), and the obligations O28 to O32, O36, O38 to O42 and O48 from them. -/

namespace Sys2Proof.Machine

/-- Settles O28: with `BUSY` = 1 the issue of a command or a frame only adds it to those that wait. -/
theorem busyBlockHolds : Obligations.BusyBlockHolds := by
  intro s hBusy
  exact ⟨fun b => issueCommand_busy hBusy, fun a v => issueCommand_busy hBusy, fun a => issueCommand_busy hBusy,
    issueCommand_busy hBusy, fun r v => issueFrame_busy hBusy, fun r => issueFrame_busy hBusy⟩

/-! Acceptance and rejection. -/

theorem acceptWord_of_decodeCmd {w : CmdWord} {i : Instr} (h : decodeCmd w = .ok i) (s : State) :
    acceptWord w s = accept i w s := by
  simp [acceptWord, h]

theorem acceptWord_of_not_legal {w : CmdWord} (h : legal w = false) (s : State) : acceptWord w s = raiseIllegal w s := by
  obtain ⟨e, hError⟩ := decodeCmd_of_not_legal h
  simp [acceptWord, hError]

/-- Acceptance of a word of the host, field by field: every command but WRREG clears the result (R31). -/
theorem accept_of_decodeCmd {w : CmdWord} {i : Instr} (h : decodeCmd w = .ok i) (s : State) :
    accept i w s = { s with
      curCmd := some w, busy := true, phase := .run i 0,
      rdata := match (generalizing := false) i with
        | .wrreg _ _ => s.rdata
        | _ => none } := by
  have hCommand := isCommand_of_decodeCmd h
  cases i with
  | xfer b => rfl
  | wrreg a v => rfl
  | rdreg a => rfl
  | probe => rfl
  | frameWrite r v => cases hCommand
  | frameRead r => cases hCommand

/-! The idle step. -/

theorem runPort_of_decode {e : Encoded} {i : Instr} (h : decode e = .ok i) (s : State) : runPort e s = exec i s := by
  simp [runPort, h]

theorem runPort_of_not_legal {w : CmdWord} (h : legal w = false) (s : State) :
    runPort (.cmd w) s = .next (raiseIllegal w s) := by
  obtain ⟨e, hError⟩ := decodeCmd_of_not_legal h
  simp [runPort, decode, hError]

theorem idleStep_of_port {s : State} {e : Encoded} {rest : List Encoded} (h : s.port = e :: rest) :
    idleStep s = runPort e { s with port := rest } := by
  simp [idleStep, h]

theorem idleStep_of_takeHeld {s t : State} {w : CmdWord} (hPort : s.port = []) (hTake : takeHeld s = some (w, t)) :
    idleStep s = .next (acceptWord w t) := by
  simp [idleStep, hPort, hTake]

theorem idleStep_of_nothing {s : State} (hPort : s.port = []) (hHeld : s.held = []) : idleStep s = .next s := by
  simp [idleStep, takeHeld, hPort, hHeld]

theorem takeHeld_isSome {s : State} (h : s.held ≠ []) : ∃ w t, takeHeld s = some (w, t) := by
  unfold takeHeld
  split
  · contradiction
  · exact ⟨_, _, rfl⟩
  · exact ⟨_, _, rfl⟩

theorem idleStep_of_one_held {s : State} {h : HeldWrite} (hPort : s.port = []) (hHeld : s.held = [h]) :
    idleStep s = .next (acceptWord h.word { s with held := [] }) :=
  idleStep_of_takeHeld hPort (by simp [takeHeld, hHeld])

/-- With writes held and an empty port the idle step takes one of them; the others stay (R157). -/
theorem idleStep_of_held {s : State} (hPort : s.port = []) (hHeld : s.held ≠ []) :
    ∃ n h p, s.held[n]? = some h ∧
      idleStep s = .next (acceptWord h.word { s with held := s.held.eraseIdx n, picks := p }) := by
  obtain ⟨w, t, hTake⟩ := takeHeld_isSome hHeld
  obtain ⟨n, ⟨h, hAt, rfl⟩, hState⟩ := takeHeld_some hTake
  exact ⟨n, h, t.picks, hAt, by rw [idleStep_of_takeHeld hPort hTake, ← hState]⟩

/-- Settles O38. -/
theorem acceptanceTakesOneHeldWrite : Obligations.AcceptanceTakesOneHeldWrite := by
  intro s hQuiet hNotAborting hIdle hPort hHeld
  rw [step_quiet_idle hQuiet hNotAborting hIdle]
  exact idleStep_of_held (s := { s with inputs := s.inputs.drop 1 }) hPort hHeld

/-- Settles O32. -/
theorem acceptanceIsOneStep : Obligations.AcceptanceIsOneStep := by
  intro s a w i hQuiet hNotAborting hIdle hPort hHeld hDecode
  rw [step_quiet_idle hQuiet hNotAborting hIdle,
    idleStep_of_one_held (s := { s with inputs := s.inputs.drop 1 }) hPort hHeld, acceptWord_of_decodeCmd hDecode]
  exact congrArg Host.Outcome.next (accept_of_decodeCmd hDecode _)

/-- Settles O36: the word decodes to no instruction, so it is rejected wherever its turn comes. -/
theorem illegalWordIsRejected : Obligations.IllegalWordIsRejected := by
  intro s w hQuiet hNotAborting hIdle hIllegal
  rw [step_quiet_idle hQuiet hNotAborting hIdle]
  refine ⟨fun a hPort hHeld => ?held, fun rest hPort => ?port⟩
  case held =>
    rw [idleStep_of_one_held (s := { s with inputs := s.inputs.drop 1 }) hPort hHeld, acceptWord_of_not_legal hIllegal]
    rfl
  case port =>
    rw [idleStep_of_port (s := { s with inputs := s.inputs.drop 1 }) hPort, runPort_of_not_legal hIllegal]
    rfl

/-- An instruction in the port of the idle block is run by the next quiet step (log 1, log 6). -/
theorem step_quiet_port {s : State} {e : Encoded} {rest : List Encoded} {i : Instr} (hQuiet : QuietFor 1 s)
    (hNotAborting : s.aborting = false) (hIdle : s.busy = false) (hPort : s.port = e :: rest) (hDecode : decode e = .ok i) :
    step s = exec i { s with inputs := s.inputs.drop 1, port := rest } := by
  rw [step_quiet_idle hQuiet hNotAborting hIdle, idleStep_of_port (s := { s with inputs := s.inputs.drop 1 }) hPort,
    runPort_of_decode hDecode]

/-- Settles O29. -/
theorem stepRunsTheDecodedCommand : Obligations.StepRunsTheDecodedCommand :=
  fun _ _ _ _ hQuiet hNotAborting hIdle hPort hDecode => step_quiet_port hQuiet hNotAborting hIdle hPort hDecode

/-- Settles O30. -/
theorem stepRunsTheDecodedFrame : Obligations.StepRunsTheDecodedFrame :=
  fun _ _ _ _ _ hQuiet hNotAborting hIdle hPort hDecode => step_quiet_port hQuiet hNotAborting hIdle hPort hDecode

theorem decodeTableWord_eq_some {nbits w : Nat} {i : Instr} (h : decodeTableWord nbits w = some i) :
    ∃ e, encodedOfTable nbits w = some e ∧ decode e = .ok i := by
  unfold decodeTableWord at h
  split at h
  next e hEncoded =>
    split at h
    next j hDecode =>
      cases h
      exact ⟨e, hEncoded, hDecode⟩
    next => cases h
  next => cases h

/-- Settles O31: `presentFetch` makes the block idle and quiet with the instruction in its port. -/
theorem fetchWordRunsNext : Obligations.FetchWordRunsNext := by
  intro s nbits w i hTable
  obtain ⟨e, hEncoded, hDecode⟩ := decodeTableWord_eq_some hTable
  have hFetch : s.withFetchWord nbits w = presentFetch e s := by simp [State.withFetchWord, hEncoded]
  rw [hFetch, step_quiet_port (s := presentFetch e s) (fun x hx => nomatch hx) rfl rfl rfl hDecode]
  rfl

/-! ABORT while idle. -/

/-- ABORT counts only beside `BUSY`, and a pending access is kept without it (R147, R150). -/
theorem boundaryStep_abort_idle {s : State} (hIdle : s.busy = false) (x : Inputs) (rest : List Inputs) :
    boundaryStep { x with abort := true } rest s = boundaryStep { x with abort := false } rest s := by
  simp only [boundaryStep, keepHost, hIdle, Bool.and_false]

theorem step_inputs_cons (s : State) (x : Inputs) (rest : List Inputs) :
    step { s with inputs := x :: rest } = boundaryStep x rest s := rfl

/-- Settles O48. -/
theorem abortWhileIdleIsIgnored : Obligations.AbortWhileIdleIsIgnored := by
  intro s x later hIdle _
  rw [step_inputs_cons, step_inputs_cons, boundaryStep_abort_idle hIdle]

/-! The host's boundary. -/

theorem deferred_eq_true_iff {a : AgentAccess} {s : State} :
    deferred a s = true ↔ s.guard = true ∨ ∃ h ∈ s.held, h.agent = a.agent := by
  simp [deferred]

theorem deferred_eq_false {a : AgentAccess} {s : State} (hGuard : s.guard = false) (hHeld : ∀ h ∈ s.held, h.agent ≠ a.agent) :
    deferred a s = false := by
  simpa [deferred, hGuard] using hHeld

/-- An agent that can act has its access at its boundary (R38, R150). -/
theorem step_host {s : State} {g : Nat} {access : HostAccess} {later : List Inputs}
    (hInputs : s.inputs = { host := some ⟨g, access⟩ } :: later) (hNotAborting : s.aborting = false)
    (hGuard : s.guard = false) (hHeld : ∀ h ∈ s.held, h.agent ≠ g) :
    step s = hostAccess ⟨g, access⟩ { s with inputs := later } := by
  have hActs : deferred ⟨g, access⟩ s = false := deferred_eq_false hGuard hHeld
  simp [step, advance, boundaryStep, hInputs, hNotAborting, hActs]

/-- An access that is deferred stays to come, and the block makes its own step (R91; log 9). -/
theorem step_deferred {s : State} {a : AgentAccess} {later : List Inputs}
    (hInputs : s.inputs = { host := some a } :: later) (hNotAborting : s.aborting = false)
    (hDeferred : s.guard = true ∨ ∃ h ∈ s.held, h.agent = a.agent) : step s = blockStep s := by
  have hWaits : deferred a s = true := deferred_eq_true_iff.2 hDeferred
  have hSame : { s with inputs := { host := some a } :: later } = s := by rw [← hInputs]
  calc step s
    _ = blockStep { s with inputs := { host := some a } :: later } := by
      simp [step, advance, boundaryStep, keepHost, hInputs, hNotAborting, hWaits]
    _ = blockStep s := by rw [hSame]

theorem hostAccess_read_of_ok {g : Nat} {r : BitVec 2} {s : State} {v : CmdWord} (h : hostRead r s = .ok v) :
    hostAccess ⟨g, .read r⟩ s = .next { s with hostData := v } := by
  simp [hostAccess, h]

theorem hostAccess_read_of_error {g : Nat} {r : BitVec 2} {s : State} {f : Fault} (h : hostRead r s = .error f) :
    hostAccess ⟨g, .read r⟩ s = .fault f := by
  simp [hostAccess, h]

theorem hostRead_rdata {s : State} {v : Byte} (h : s.rdata = some v) : hostRead 2#2 s = .ok (v.zeroExtend 24) := by
  simp [hostRead, h, Except.map]

theorem hostRead_linkver {s : State} {v : Byte} (h : s.link = .identified v) : hostRead 3#2 s = .ok (v.zeroExtend 24) := by
  simp [hostRead, State.linkver, Link.version, h, Except.map]

/-- Settles O39, register by register. -/
theorem hostReadsReturnRegisters : Obligations.HostReadsReturnRegisters := by
  intro s g r later hInputs hNotAborting hGuard hHeld
  rw [step_host hInputs hNotAborting hGuard hHeld]
  refine ⟨?cmd, ?status, ?rdata, ?linkver⟩
  case cmd => rintro rfl; exact hostAccess_read_of_ok rfl
  case status => rintro rfl; exact hostAccess_read_of_ok rfl
  case rdata => rintro v rfl hValue; exact hostAccess_read_of_ok (hostRead_rdata hValue)
  case linkver => rintro v rfl hLink; exact hostAccess_read_of_ok (hostRead_linkver hLink)

theorem linkver_eq_none {s : State} (h : ∀ v, s.link ≠ .identified v) : s.linkver = none := by
  unfold State.linkver
  cases hLink : s.link with
  | uninit => rfl
  | resetIssued => rfl
  | identified v => exact absurd hLink (h v)

/-- Settles O40: these are the two faults of `hostRead`. -/
theorem readsOfNoValueFault : Obligations.ReadsOfNoValueFault := by
  intro s g r later hInputs hNotAborting hGuard hHeld
  rw [step_host hInputs hNotAborting hGuard hHeld]
  refine ⟨fun hReg hInvalid => ?rdata, fun hReg hLink => ?linkver⟩
  case rdata =>
    have hNone : s.rdata = none := Option.not_isSome_iff_eq_none.1 (Bool.eq_false_iff.1 hInvalid)
    exact hostAccess_read_of_error (hostRead_eq_error.2 (.inl ⟨hReg, hNone, rfl⟩))
  case linkver => exact hostAccess_read_of_error (hostRead_eq_error.2 (.inr ⟨hReg, linkver_eq_none hLink, rfl⟩))

theorem hostAccess_write_cmd (g : Nat) (w : CmdWord) (s : State) :
    hostAccess ⟨g, .write 0#2 24 w⟩ s = .next (hostCommand g w s) := rfl

theorem hostAccess_write_other {r : BitVec 2} (h : r ≠ 0#2) (g bits : Nat) (w : CmdWord) (s : State) :
    hostAccess ⟨g, .write r bits w⟩ s = .next s := by
  simp [hostAccess, h]

theorem hostAccess_write_width {bits : Nat} (h : bits ≠ 24) (g : Nat) (w : CmdWord) (s : State) :
    hostAccess ⟨g, .write 0#2 bits w⟩ s = .refused (.partialCmdWrite bits) := by
  simp [hostAccess, h]

/-- Settles O41: a write by its register and width, and a 24-bit write of `CMD` by whether it must wait. -/
theorem hostWrites : Obligations.HostWrites := by
  intro s g bits r w later hInputs hNotAborting hGuard hHeld
  rw [step_host hInputs hNotAborting hGuard hHeld]
  refine ⟨?held, ?accepted, ?rejected, ?width, ?other⟩
  case held =>
    rintro rfl rfl hWaits
    rw [hostAccess_write_cmd, hostCommand_holds (s := { s with inputs := later }) hWaits]
  case accepted =>
    rintro i rfl rfl hIdle hNoneHeld hDecode
    rw [hostAccess_write_cmd, hostCommand_takes (s := { s with inputs := later }) hIdle hNoneHeld,
      acceptWord_of_decodeCmd hDecode]
    exact congrArg Host.Outcome.next (accept_of_decodeCmd hDecode _)
  case rejected =>
    rintro rfl rfl hIdle hNoneHeld hIllegal
    rw [hostAccess_write_cmd, hostCommand_takes (s := { s with inputs := later }) hIdle hNoneHeld,
      acceptWord_of_not_legal hIllegal]
    rfl
  case width => rintro rfl hWidth; exact hostAccess_write_width hWidth _ _ _
  case other => exact fun hReg => hostAccess_write_other hReg _ _ _ _

end Sys2Proof.Machine
end

section
/-! What the slots of a list do to `RDATA`, `LINK` and the sink (10_state.md R31 to R33, R37; 43_device_probe.md R127):
nothing inside a byte transfer or a transaction, but for the assignments its caller makes with its last event. -/

namespace Sys2Proof.Machine

/-- The assignments `TransferByte` itself makes (41_bit_transfer.md R96). -/
def Assign.ofTransfer : Assign → Bool
  | .load _ => true
  | .sampleNone => true
  | .shiftBit => true
  | .latchResult => false
  | .linkReset => false
  | .identify => false

/-- The slot is no record of a probe, and what it assigns beside the engine's own registers is one of `after`. -/
def Slot.Within (after : List Assign) (x : Slot) : Prop :=
  x.prim ≠ .reportVersion ∧ ∀ a ∈ x.assigns, a.ofTransfer = true ∨ a ∈ after

/-! The slots of a transfer and of a transaction. -/

theorem bitSlots_within (cap : Capture) : ∀ x ∈ bitSlots cap, x.Within [] := by
  cases cap <;> simp [bitSlots, Slot.Within, Assign.ofTransfer]

theorem bitLoop_within (cap : Capture) (n : Nat) : ∀ x ∈ bitLoop cap n, x.Within [] := by
  induction n with
  | zero => exact fun x hx => nomatch hx
  | succ n ih => exact fun x hx => (List.mem_append.1 hx).elim (bitSlots_within cap x) (ih x)

theorem Slot.Within.mono {x : Slot} (after : List Assign) (h : x.Within []) : x.Within after :=
  ⟨h.1, fun a ha => .inl ((h.2 a ha).resolve_right (List.not_mem_nil))⟩

theorem transferByte_within (cap : Capture) (b : Byte) (after : List Assign) :
    ∀ x ∈ transferByte cap b after, x.Within after := by
  intro x hx
  simp only [transferByte, List.mem_cons, List.mem_append, List.not_mem_nil, or_false] at hx
  obtain rfl | hx | rfl := hx
  · simp [Slot.Within, Assign.ofTransfer]
  · exact (bitLoop_within cap 8 x hx).mono after
  · exact ⟨by simp, fun a ha => .inr ha⟩

theorem transaction_within (cap : Capture) (b0 b1 : Byte) (after : List Assign) :
    ∀ x ∈ transaction cap b0 b1 after, x.Within after := by
  intro x hx
  simp only [transaction, List.mem_cons, List.mem_append, List.not_mem_nil, or_false] at hx
  obtain rfl | rfl | (hx | hx) | rfl | rfl := hx
  · simp [Slot.Within]
  · simp [Slot.Within]
  · exact (transferByte_within cap b0 [] x hx).mono after
  · exact (transferByte_within cap b1 [] x hx).mono after
  · simp [Slot.Within]
  · exact ⟨by simp, fun a ha => .inr ha⟩

/-- Only the last slot of a transaction carries its caller's assignments (42_register_access.md R109, R110). -/
theorem transaction_eq_concat (cap : Capture) (b0 b1 : Byte) (after : List Assign) :
    transaction cap b0 b1 after = (transaction cap b0 b1 []).dropLast ++ [⟨.wait .csTrail, after⟩] := by
  have hSplit : ∀ as, transaction cap b0 b1 as = (⟨.chipSelect false, []⟩ :: ⟨.wait .csLead, []⟩ ::
      (transferByte cap b0 [] ++ transferByte cap b1 [] ++ [⟨.chipSelect true, []⟩])) ++ [⟨.wait .csTrail, as⟩] := by
    simp [transaction]
  rw [hSplit after, hSplit [], List.dropLast_concat]

theorem transferByte_length (cap : Capture) (b : Byte) (after : List Assign) :
    (transferByte cap b after).length = if cap = .sample then 58 else 50 := by
  cases cap <;> rfl

theorem transaction_length (cap : Capture) (b0 b1 : Byte) (after : List Assign) :
    (transaction cap b0 b1 after).length = if cap = .sample then 120 else 104 := by
  simp only [transaction, List.length_cons, List.length_append, transferByte_length]
  cases cap <;> rfl

/-! What such slots do. -/

/-- `RDATA`, `LINK` and the sink are as before. -/
structure SameResults (s t : State) : Prop where
  link : t.link = s.link
  rdata : t.rdata = s.rdata
  sinkLog : t.sinkLog = s.sinkLog

theorem SameResults.refl (s : State) : SameResults s s := ⟨rfl, rfl, rfl⟩

theorem SameResults.trans {s t u : State} (h : SameResults s t) (g : SameResults t u) : SameResults s u :=
  ⟨g.link.trans h.link, g.rdata.trans h.rdata, g.sinkLog.trans h.sinkLog⟩

theorem performPrim_sameResults {p : Prim} {s t : State} (hNoRecord : p ≠ .reportVersion) (h : performPrim p s = .next t) :
    SameResults s t := by
  cases p with
  | chipSelect l => cases h; exact ⟨rfl, rfl, rfl⟩
  | driveBit =>
    obtain ⟨v, -, rfl⟩ := driveBit_eq_next.1 h
    exact ⟨rfl, rfl, rfl⟩
  | clock l => cases h; exact ⟨rfl, rfl, rfl⟩
  | sampleBit =>
    obtain ⟨v, -, rfl⟩ := sampleBit_eq_next.1 h
    obtain ⟨ms, n, hRead⟩ := readDataIn_sample s
    rw [hRead]
    exact ⟨rfl, rfl, rfl⟩
  | wait k => cases h; exact ⟨rfl, rfl, rfl⟩
  | guardAcquire =>
    obtain ⟨-, rfl⟩ := guardAcquire_eq_next.1 h
    exact ⟨rfl, rfl, rfl⟩
  | guardRelease => cases h; exact ⟨rfl, rfl, rfl⟩
  | reportVersion => contradiction

theorem performAssign_sameResults {a : Assign} {s t : State} (ha : a.ofTransfer = true) (h : performAssign a s = .next t) :
    SameResults s t := by
  cases a with
  | load b => cases h; exact ⟨rfl, rfl, rfl⟩
  | sampleNone =>
    obtain ⟨v, -, rfl⟩ := sampleBit_eq_next.1 h
    exact ⟨rfl, rfl, rfl⟩
  | shiftBit =>
    obtain ⟨v, n, -, -, rfl⟩ := shiftBit_eq_next.1 h
    exact ⟨rfl, rfl, rfl⟩
  | latchResult => cases ha
  | linkReset => cases ha
  | identify => cases ha

theorem performAssigns_sameResults {as : List Assign} {s t : State} (has : ∀ a ∈ as, a.ofTransfer = true)
    (h : performAssigns as s = .next t) : SameResults s t := by
  induction as generalizing s with
  | nil => cases h; exact .refl _
  | cons a as ih =>
    obtain ⟨u, hu, ht⟩ := andThen_eq_next.1 h
    exact (performAssign_sameResults (has a List.mem_cons_self) hu).trans
      (ih (fun b hb => has b (List.mem_cons_of_mem a hb)) ht)

theorem performSlot_sameResults {x : Slot} {s t : State} (hx : x.Within []) (h : performSlot x s = .next t) :
    SameResults s t := by
  obtain ⟨u, hu, ht⟩ := andThen_eq_next.1 h
  exact (performPrim_sameResults hx.1 hu).trans
    (performAssigns_sameResults (fun a ha => (hx.2 a ha).resolve_right List.not_mem_nil) ht)

theorem runSlots_sameResults {xs : List Slot} {s t : State} (hxs : ∀ x ∈ xs, x.Within [])
    (h : runSlots xs s = .next t) : SameResults s t := by
  induction xs generalizing s with
  | nil => cases h; exact .refl _
  | cons x xs ih =>
    obtain ⟨u, hu, ht⟩ := andThen_eq_next.1 h
    exact (performSlot_sameResults (hxs x List.mem_cons_self) hu).trans
      (ih (fun y hy => hxs y (List.mem_cons_of_mem x hy)) ht)

/-! `LINK`. -/

/-- An assignment leaves `LINK`, or is one of the two of PROBE that write it (R127). -/
theorem performAssign_link {a : Assign} {s t : State} (h : performAssign a s = .next t) :
    t.link = s.link ∨ (a = .linkReset ∧ t.link = .resetIssued) ∨ (a = .identify ∧ ∃ v, t.link = .identified v) := by
  cases a with
  | load b => exact .inl (performAssign_sameResults rfl h).link
  | sampleNone => exact .inl (performAssign_sameResults rfl h).link
  | shiftBit => exact .inl (performAssign_sameResults rfl h).link
  | latchResult =>
    obtain ⟨r, -, rfl⟩ := latchResult_eq_next.1 h
    exact .inl rfl
  | linkReset => cases h; exact .inr (.inl ⟨rfl, rfl⟩)
  | identify =>
    obtain ⟨v, -, rfl⟩ := identify_eq_next.1 h
    exact .inr (.inr ⟨rfl, v, rfl⟩)

theorem performAssigns_link {as : List Assign} {s t : State} (h : performAssigns as s = .next t) :
    t.link = s.link ∨
      ((.linkReset ∈ as ∨ .identify ∈ as) ∧ (t.link = .resetIssued ∨ ∃ v, t.link = .identified v)) := by
  induction as generalizing s with
  | nil => cases h; exact .inl rfl
  | cons a as ih =>
    obtain ⟨u, hu, ht⟩ := andThen_eq_next.1 h
    obtain hSame | ⟨hMem, hLink⟩ := ih ht
    · rw [hSame]
      obtain hNew | ⟨rfl, hNew⟩ | ⟨rfl, hNew⟩ := performAssign_link hu
      · exact .inl hNew
      · exact .inr ⟨.inl List.mem_cons_self, .inl hNew⟩
      · exact .inr ⟨.inr List.mem_cons_self, .inr hNew⟩
    · exact .inr ⟨hMem.imp (List.mem_cons_of_mem a) (List.mem_cons_of_mem a), hLink⟩

theorem performPrim_link {p : Prim} {s t : State} (h : performPrim p s = .next t) : t.link = s.link := by
  by_cases hRecord : p = .reportVersion
  · subst hRecord
    obtain ⟨v, -, rfl⟩ := reportVersion_eq_next.1 h
    rfl
  · exact (performPrim_sameResults hRecord h).link

theorem performSlot_link {x : Slot} {s t : State} (h : performSlot x s = .next t) :
    t.link = s.link ∨
      ((.linkReset ∈ x.assigns ∨ .identify ∈ x.assigns) ∧ (t.link = .resetIssued ∨ ∃ v, t.link = .identified v)) := by
  obtain ⟨u, hu, ht⟩ := andThen_eq_next.1 h
  rw [← performPrim_link hu]
  exact performAssigns_link ht

/-- Every list but PROBE's is one transfer or transaction with at most the latching of the result after it. -/
theorem slotsOf_within {c : Instr} (hc : c ≠ .probe) (p : Params) : ∀ x ∈ slotsOf p c, x.Within [.latchResult] := by
  intro x hx
  cases c with
  | xfer b => exact transferByte_within _ _ _ x hx
  | wrreg a v => exact (transaction_within _ _ _ _ x hx).mono _
  | rdreg a => exact transaction_within _ _ _ _ x hx
  | probe => contradiction
  | frameWrite r v => exact (transaction_within _ _ _ _ x hx).mono _
  | frameRead r => exact (transaction_within _ _ _ _ x hx).mono _

/-- An event that changes `LINK` is one of a PROBE (43_device_probe.md R127). -/
theorem slot_link {c : Instr} {p : Params} {x : Slot} {s t : State} (hx : x ∈ slotsOf p c)
    (h : performSlot x s = .next t) (hLink : t.link ≠ s.link) :
    c = .probe ∧ (t.link = .resetIssued ∨ ∃ v, t.link = .identified v) := by
  obtain hSame | ⟨hMem, hNew⟩ := performSlot_link h
  · contradiction
  · refine ⟨by_contra fun hc => ?notProbe, hNew⟩
    obtain ⟨-, hAssigns⟩ := slotsOf_within hc p x hx
    obtain hMem | hMem := hMem
    · simpa [Assign.ofTransfer] using hAssigns _ hMem
    · simpa [Assign.ofTransfer] using hAssigns _ hMem

end Sys2Proof.Machine
end

section
/-! The running command: one event per step, the stretch of steps from acceptance on, and the obligations O33, O34 and O35
(10_state.md R20; 43_device_probe.md R126, R127). -/

namespace Sys2Proof.Machine

/-- Settles O33: the step is a tick, and a tick performs the slot at k. -/
theorem oneEventPerStep : Obligations.OneEventPerStep := by
  intro s t hBusy hNotAborting hQuiet hStep
  rw [step_quiet_busy hQuiet hNotAborting hBusy, tick_eq_next] at hStep
  obtain ⟨c, k, x, u, hPhase, hSlot, hPerformed, rfl⟩ := hStep
  obtain ⟨⟨e, hTrace⟩, hSame⟩ := performSlot_next hPerformed
  obtain ⟨hIndex, -⟩ := List.getElem?_eq_some_iff.1 hSlot
  refine ⟨c, k, e, hPhase, ?_⟩
  split
  case isTrue hLast => exact ⟨hTrace, .inr ⟨hLast, rfl, rfl⟩⟩
  case isFalse hMore => exact ⟨hTrace, .inl ⟨lt_of_le_of_ne hIndex hMore, rfl, hSame.busy.trans hBusy⟩⟩

/-- The state in which a held command starts: accepted, its write and the boundary taken (R20). -/
def accepted (i : Instr) (w : CmdWord) (s : State) : State :=
  accept i w { s with inputs := s.inputs.drop 1, held := [] }

@[simp] theorem accepted_inputs (i : Instr) (w : CmdWord) (s : State) :
    (accepted i w s).inputs = s.inputs.drop 1 := rfl

theorem step_accepts {s : State} {a : Nat} {w : CmdWord} {i : Instr} (hQuiet : QuietFor 1 s)
    (hNotAborting : s.aborting = false) (hIdle : s.busy = false) (hPort : s.port = []) (hHeld : s.held = [⟨a, w⟩])
    (hDecode : decodeCmd w = .ok i) : step s = .next (accepted i w s) := by
  rw [step_quiet_idle hQuiet hNotAborting hIdle,
    idleStep_of_one_held (s := { s with inputs := s.inputs.drop 1 }) hPort hHeld, acceptWord_of_decodeCmd hDecode]
  rfl

/-- A command's own list runs to its end from its acceptance, and `exec` is that run, finished. -/
theorem runSlots_accept {s : State} {w : CmdWord} {i : Instr} (hReady : Ready s) (hDecode : decodeCmd w = .ok i) :
    ∃ u, runSlots (slotsOf s.params i) (accept i w s) = .next u ∧ exec i s = .next (finish u) := by
  obtain ⟨t, hExec, -⟩ := exec_ready i hReady
  have hIssued := hExec
  rw [exec_of_decodeCmd hDecode, issueCommand_idle hReady.1] at hIssued
  obtain ⟨u, hu, hFinish⟩ := andThen_eq_next.1 hIssued
  cases hFinish
  exact ⟨u, hu, hExec⟩

/-- Settles O34: the schedule is not read by any event, so the stepped run and the whole run differ in nothing. -/
theorem steppedCommandEqualsWholeCommand : Obligations.SteppedCommandEqualsWholeCommand := by
  intro s a w i n hReady hNotAborting hPort hHeld hDecode hn hQuiet
  obtain ⟨u, hRun, hExec⟩ :=
    runSlots_accept (s := { s with held := [], inputs := s.inputs.drop n }) hReady hDecode
  refine ⟨finish u, ?_, hExec⟩
  have hPlace : accept i w { s with held := [], inputs := s.inputs.drop n } =
      atPlace (.run i 0) (s.inputs.drop n) (accepted i w s) := rfl
  rw [hPlace, runSlots_atPlace] at hRun
  obtain ⟨v, hStepped, hPlaced⟩ := andThen_eq_next.1 hRun
  cases hPlaced
  have hPos := slotsOf_pos s.params i
  obtain ⟨m, hm⟩ : ∃ m, (slotsOf s.params i).length = m + 1 := ⟨_, (Nat.succ_pred_eq_of_pos hPos).symm⟩
  have hRest : QuietFor (m + 1) (accepted i w s) := QuietFor.drop (k := 1) (by rwa [← hm, ← hn]) rfl
  have hEnd := run_quiet_to_end (s := accepted i w s) (k := 0) rfl rfl hNotAborting hRest
    (by rw [Nat.zero_add]; exact hm.symm) hStepped
  rw [hn, hm, runSteps_add, runSteps_succ,
    step_accepts (hQuiet.mono (by omega)) hNotAborting hReady.1 hPort hHeld hDecode, andThen_next, runSteps_zero,
    andThen_next, hEnd, accepted_inputs, List.drop_drop]
  rfl

/-- The first k events of a held command, short of its end, after its acceptance (R20). -/
theorem runSteps_accepted {s u : State} {a k : Nat} {w : CmdWord} {i : Instr} (hIdle : s.busy = false)
    (hNotAborting : s.aborting = false) (hPort : s.port = []) (hHeld : s.held = [⟨a, w⟩]) (hDecode : decodeCmd w = .ok i)
    (hQuiet : QuietFor (1 + k) s) (hk : k < (slotsOf s.params i).length)
    (hRun : runSlots ((slotsOf s.params i).take k) (accepted i w s) = .next u) :
    runSteps (1 + k) s = .next (atPlace (.run i k) ((accepted i w s).inputs.drop k) u) := by
  have hRest : QuietFor k (accepted i w s) := QuietFor.drop (k := 1) hQuiet rfl
  have hInside := run_quiet_inside k (accepted i w s) u i 0 rfl rfl hNotAborting hRest (by rwa [Nat.zero_add]) hRun
  rw [runSteps_add, runSteps_succ, step_accepts (hQuiet.mono (by omega)) hNotAborting hIdle hPort hHeld hDecode,
    andThen_next, runSteps_zero, andThen_next, hInside, Nat.zero_add]

/-! The list of a PROBE around its three writes of the results (43_device_probe.md R126). -/

/-- The reset write up to its trail wait. -/
def probeFront (p : Params) : List Slot :=
  (transaction p.capture (writeAddressByte p.regCommand) p.cmdSoftReset []).dropLast

/-- The recovery wait and the version read up to its trail wait. -/
def probeMiddle (p : Params) : List Slot :=
  ⟨.wait .resetRecovery, []⟩ :: (transaction p.capture (readAddressByte p.regVersion) dummyByte []).dropLast

/-- Everything but the record. -/
def probeBody (p : Params) : List Slot :=
  probeFront p ++ ⟨.wait .csTrail, [.linkReset]⟩ ::
    (probeMiddle p ++ [⟨.wait .csTrail, [.identify, .latchResult]⟩])

theorem probeSlots_eq (p : Params) : probeSlots p = probeBody p ++ [⟨.reportVersion, []⟩] := by
  rw [probeSlots, writeTransaction, readTransaction, transaction_eq_concat _ _ _ [.linkReset],
    transaction_eq_concat _ _ _ [.identify, .latchResult]]
  simp [probeBody, probeFront, probeMiddle]

theorem probeFront_within (p : Params) : ∀ x ∈ probeFront p, x.Within [] :=
  fun x hx => transaction_within _ _ _ _ x (List.mem_of_mem_dropLast hx)

theorem probeMiddle_within (p : Params) : ∀ x ∈ probeMiddle p, x.Within [] := by
  intro x hx
  obtain rfl | hx := List.mem_cons.1 hx
  · simp [Slot.Within]
  · exact transaction_within _ _ _ _ x (List.mem_of_mem_dropLast hx)

theorem probeFront_length {p : Params} {n : Nat} (hn : n = if p.capture = .sample then 120 else 104) :
    (probeFront p).length = n - 1 := by
  rw [probeFront, List.length_dropLast, transaction_length, hn]

theorem probeMiddle_length {p : Params} {n : Nat} (hn : n = if p.capture = .sample then 120 else 104) :
    (probeMiddle p).length = n := by
  rw [probeMiddle, List.length_cons, List.length_dropLast, transaction_length, hn]
  cases p.capture <;> rfl

theorem probeBody_length {p : Params} {n : Nat} (hn : n = if p.capture = .sample then 120 else 104) :
    (probeBody p).length = 2 * n + 1 := by
  have hPos : 0 < n := by rw [hn]; cases p.capture <;> decide
  simp only [probeBody, List.length_append, List.length_cons, List.length_nil, probeFront_length hn,
    probeMiddle_length hn]
  omega

theorem probeSlots_length {p : Params} {n : Nat} (hn : n = if p.capture = .sample then 120 else 104) :
    (probeSlots p).length = 2 * n + 2 := by
  rw [probeSlots_eq, List.length_append, probeBody_length hn]
  rfl

theorem probeSlots_take {p : Params} {k n : Nat} (hn : n = if p.capture = .sample then 120 else 104)
    (hk : k < 2 * n + 2) : (probeSlots p).take k = (probeBody p).take k := by
  rw [probeSlots_eq, List.take_append_of_le_length (by rw [probeBody_length hn]; omega)]

/-- Before the write's trail wait is done nothing has changed. -/
theorem probe_before_reset {p : Params} {s u : State} {k n : Nat}
    (hn : n = if p.capture = .sample then 120 else 104) (hk : k < n)
    (h : runSlots ((probeSlots p).take k) s = .next u) : SameResults s u := by
  have hFront : k ≤ (probeFront p).length := by rw [probeFront_length hn]; omega
  rw [probeSlots_take hn (by omega), probeBody, List.take_append_of_le_length hFront] at h
  exact runSlots_sameResults (fun x hx => probeFront_within p x (List.mem_of_mem_take hx)) h

/-- From there to the read's trail wait `LINK` is `RESET_ISSUED`. -/
theorem probe_between {p : Params} {s u : State} {k n : Nat}
    (hn : n = if p.capture = .sample then 120 else 104) (hFrom : n ≤ k) (hTo : k < 2 * n + 1)
    (h : runSlots ((probeSlots p).take k) s = .next u) :
    u.link = .resetIssued ∧ u.rdata = s.rdata ∧ u.sinkLog = s.sinkLog := by
  have hPos : 0 < n := by rw [hn]; cases p.capture <;> decide
  have hFront : (probeFront p).length ≤ k := by rw [probeFront_length hn]; omega
  have hMiddle : k - n ≤ (probeMiddle p).length := by rw [probeMiddle_length hn]; omega
  have hRest : k - (probeFront p).length = (k - n) + 1 := by rw [probeFront_length hn]; omega
  rw [probeSlots_take hn (by omega), probeBody, List.take_append, List.take_of_length_le hFront, hRest,
    List.take_succ_cons, List.take_append_of_le_length hMiddle, runSlots_append] at h
  obtain ⟨f, hf, h⟩ := andThen_eq_next.1 h
  obtain ⟨g, hg, h⟩ := andThen_eq_next.1 h
  cases hg
  have hBefore := runSlots_sameResults (probeFront_within p) hf
  have hAfter := runSlots_sameResults (fun x hx => probeMiddle_within p x (List.mem_of_mem_take hx)) h
  exact ⟨hAfter.link, hAfter.rdata.trans hBefore.rdata, hAfter.sinkLog.trans hBefore.sinkLog⟩

/-- The last event only adds the record. -/
theorem probe_before_record {p : Params} {u v : State} {n : Nat}
    (hn : n = if p.capture = .sample then 120 else 104) (h : runSlots ((probeSlots p).drop (2 * n + 1)) u = .next v) :
    v.link = u.link ∧ v.rdata = u.rdata ∧ v.sinkLog.length = u.sinkLog.length + 1 := by
  rw [probeSlots_eq, List.drop_left' (probeBody_length hn), runSlots_singleton] at h
  obtain ⟨w, hw, hEnd⟩ := andThen_eq_next.1 h
  cases hEnd
  obtain ⟨b, -, rfl⟩ := reportVersion_eq_next.1 hw
  exact ⟨rfl, rfl, by simp⟩

/-- What a whole probe leaves of the link, the result and the sink. -/
theorem probe_results {s t : State} (hReady : Ready s) (hExec : exec .probe s = .next t) :
    t.link = .identified (inByte s 24) ∧ t.rdata = some (inByte s 24) ∧ t.busy = false ∧
      t.sinkLog.length = s.sinkLog.length + 1 := by
  rw [probeCompletes s hReady] at hExec
  cases hExec
  exact ⟨rfl, rfl, rfl, by simp⟩

/-- A list that runs to its end runs to each of its indices. -/
theorem runSlots_take {xs : List Slot} {s v : State} (h : runSlots xs s = .next v) (k : Nat) :
    ∃ u, runSlots (xs.take k) s = .next u ∧ runSlots (xs.drop k) u = .next v := by
  rw [← List.take_append_drop k xs, runSlots_append] at h
  exact andThen_eq_next.1 h

/-- Settles O35: inside the list by the part that k falls in, at its end by the whole command. -/
theorem probeLinkTimeline : Obligations.ProbeLinkTimeline := by
  intro s a k n hReady hNotAborting hPort hHeld hQuiet hn hk
  have hLength : (slotsOf s.params .probe).length = 2 * n + 2 := probeSlots_length hn
  have hDecode : decodeCmd probeWord = .ok .probe := decodeOfEncode .probe
  by_cases hEnd : k = 2 * n + 2
  case pos =>
    obtain ⟨t, hRun, hExec⟩ := steppedCommandEqualsWholeCommand s a probeWord .probe (1 + k) hReady hNotAborting hPort
      hHeld hDecode (by rw [hLength, hEnd]) hQuiet
    obtain ⟨hLink, hResult, hBusy, hSink⟩ :=
      probe_results (s := { s with held := [], inputs := s.inputs.drop (1 + k) }) hReady hExec
    refine ⟨t, hRun, ?_⟩
    rw [if_neg (by omega), if_neg (by omega), if_neg (by omega), if_neg (by omega), decide_eq_false (by omega)]
    exact ⟨hLink, hResult, hBusy, hSink⟩
  case neg =>
    obtain ⟨v, hWhole, hExec⟩ :=
      runSlots_accept (s := { s with held := [], inputs := s.inputs.drop 1 }) hReady hDecode
    obtain ⟨u, hTake, hDrop⟩ := runSlots_take (s := accepted .probe probeWord s) hWhole k
    have hRun := runSteps_accepted hReady.1 hNotAborting hPort hHeld hDecode hQuiet (by omega) hTake
    have hBusy : u.busy = true := (runSlots_next hTake).2.busy
    refine ⟨_, hRun, ?_⟩
    rw [if_pos (show k < 2 * n + 2 by omega), decide_eq_true (show k < 2 * n + 2 by omega)]
    obtain hBefore | ⟨hFrom, hTo⟩ | hIdentified : k < n ∨ (n ≤ k ∧ k < 2 * n + 1) ∨ k = 2 * n + 1 := by omega
    · have hSame := probe_before_reset hn hBefore hTake
      rw [if_pos hBefore, if_pos (by omega)]
      exact ⟨hSame.link, hSame.rdata, hBusy, congrArg List.length hSame.sinkLog⟩
    · obtain ⟨hLink, hResult, hSink⟩ := probe_between hn hFrom hTo hTake
      rw [if_neg (by omega), if_pos hTo, if_pos hTo]
      exact ⟨hLink, hResult, hBusy, congrArg List.length hSink⟩
    · subst hIdentified
      obtain ⟨hLink, hResult, -, hSink⟩ :=
        probe_results (s := { s with held := [], inputs := s.inputs.drop 1 }) hReady hExec
      obtain ⟨hLinkLast, hResultLast, hSinkLast⟩ := probe_before_record hn hDrop
      rw [if_neg (by omega), if_neg (by omega), if_neg (by omega)]
      exact ⟨hLinkLast.symm.trans hLink, hResultLast.symm.trans hResult, hBusy,
        Nat.succ.inj (hSinkLast.symm.trans hSink)⟩

end Sys2Proof.Machine
end

section
/-! What every step keeps: the logs, the parameters, the port, the sticky flags, the held writes of a busy block and
`LINK`; one frame per kind of step, and the obligations O37, O42, O44, O45, O52, O53, O57 and O58 from them. -/

namespace Sys2Proof.Machine

/-! An instruction on the idle block. -/

theorem performSlot_guardAcquire_held {s : State} (h : s.guard = true) (as : List Assign) :
    performSlot ⟨.guardAcquire, as⟩ s = .fault .guardNested := by
  simp [performSlot, performPrim, guardAcquire, h]

theorem runSlots_transferByte_held {s : State} (h : s.guard = true) (cap : Capture) (b : Byte) (after : List Assign) :
    runSlots (transferByte cap b after) s = .fault .guardNested := by
  rw [transferByte, runSlots_cons, performSlot_guardAcquire_held h, andThen_fault]

theorem runSlots_transaction_held {s : State} (h : s.guard = true) (cap : Capture) (b0 b1 : Byte) (after : List Assign) :
    runSlots (transaction cap b0 b1 after) s = .fault .guardNested := by
  have hByte := runSlots_transferByte_held (s := busyWait .csLead (setChipSelect false s)) h cap b0 []
  rw [transaction, List.append_assoc]
  show runSlots (transferByte cap b0 [] ++ _) (busyWait .csLead (setChipSelect false s)) = _
  rw [runSlots_append, hByte, andThen_fault]

/-- A list started with the guard held nests it (40_line_primitives.md R88). -/
theorem runSlots_slotsOf_held {s : State} (h : s.guard = true) (p : Params) (i : Instr) :
    runSlots (slotsOf p i) s = .fault .guardNested := by
  cases i with
  | xfer b => exact runSlots_transferByte_held h _ _ _
  | wrreg a v => exact runSlots_transaction_held h _ _ _ _
  | rdreg a => exact runSlots_transaction_held h _ _ _ _
  | probe => rw [slotsOf, probeSlots, runSlots_append, writeTransaction, runSlots_transaction_held h, andThen_fault]
  | frameWrite r v => exact runSlots_transaction_held h _ _ _ _
  | frameRead r => exact runSlots_transaction_held h _ _ _ _

theorem exec_of_guard_held {s : State} (hIdle : s.busy = false) (hGuard : s.guard = true) (i : Instr) :
    exec i s = .fault .guardNested := by
  have hCommand : ∀ w, issueCommand i w (slotsOf s.params i) s = .fault .guardNested := by
    intro w
    rw [issueCommand_idle hIdle, runSlots_slotsOf_held (s := accept i w s) hGuard, andThen_fault]
  have hFrame : ∀ b0 b1, issueFrame b0 b1 (slotsOf s.params i) s = .fault .guardNested := by
    intro b0 b1
    rw [issueFrame_idle hIdle, runSlots_slotsOf_held hGuard]
  cases i with
  | xfer b => exact hCommand _
  | wrreg a v => exact hCommand _
  | rdreg a => exact hCommand _
  | probe => exact hCommand _
  | frameWrite r v => exact hFrame _ _
  | frameRead r => exact hFrame _ _

/-- An instruction that the idle block completes found the guard free. -/
theorem ready_of_exec_next {i : Instr} {s t : State} (hIdle : s.busy = false) (h : exec i s = .next t) : Ready s := by
  refine ⟨hIdle, Bool.eq_false_iff.2 fun hGuard => ?_⟩
  rw [exec_of_guard_held hIdle hGuard] at h
  cases h

/-! Logs, parameters, the port. -/

/-- The parameters are as before, the logs have grown, and nothing was put into the port. -/
structure Onward (s t : State) : Prop where
  params : t.params = s.params
  logs : Extends s t
  port : t.port <:+ s.port

theorem performSlot_sinkLog {x : Slot} {s t : State} (h : performSlot x s = .next t) : s.sinkLog <+: t.sinkLog := by
  obtain ⟨u, hu, ht⟩ := andThen_eq_next.1 h
  obtain ⟨-, hSink, -⟩ := performAssigns_next ht
  rw [hSink]
  by_cases hRecord : x.prim = .reportVersion
  · rw [hRecord] at hu
    obtain ⟨v, -, rfl⟩ := reportVersion_eq_next.1 hu
    exact List.prefix_append _ _
  · rw [(performPrim_sameResults hRecord hu).sinkLog]

/-- The fields a tick never writes, with the one event it records. -/
structure TickFrame (s t : State) : Prop where
  event : ∃ e, t.trace = s.trace ++ [e]
  sinkLog : s.sinkLog <+: t.sinkLog
  curCmd : t.curCmd = s.curCmd
  illegal : t.illegal = s.illegal
  aborted : t.aborted = s.aborted
  illegalLog : t.illegalLog = s.illegalLog
  held : t.held = s.held
  params : t.params = s.params
  inputs : t.inputs = s.inputs
  hostData : t.hostData = s.hostData
  port : t.port = s.port

theorem tick_frame {s t : State} (h : tick s = .next t) : TickFrame s t := by
  obtain ⟨c, k, x, u, -, -, hSlot, rfl⟩ := tick_eq_next.1 h
  obtain ⟨hTrace, hSame⟩ := performSlot_next hSlot
  have hFrame : TickFrame s u := ⟨hTrace, performSlot_sinkLog hSlot, hSame.curCmd, hSame.illegal, hSame.aborted,
    hSame.illegalLog, hSame.held, hSame.params, hSame.inputs, hSame.hostData, hSame.port⟩
  split
  · exact { hFrame with }
  · exact { hFrame with }

/-- The fields an event of the abort sequence never writes, with the one event it records (R145, R146). -/
structure AbortFrame (s t : State) : Prop where
  event : ∃ e, t.trace = s.trace ++ [e]
  sinkLog : t.sinkLog = s.sinkLog
  illegal : t.illegal = s.illegal
  aborted : s.aborted = true → t.aborted = true
  illegalLog : t.illegalLog = s.illegalLog
  held : t.held = s.held
  params : t.params = s.params
  port : t.port = s.port
  link : t.link = s.link
  mosi : t.mosi = s.mosi
  curCmd : t.busy = true → t.curCmd = s.curCmd

theorem abortEvent_keeps (s : State) : AbortFrame s (abortEvent s) := by
  obtain ⟨-, h⟩ | ⟨-, -, h⟩ | ⟨-, -, -, h⟩ | ⟨-, -, -, h⟩ := abortEvent_cases s
  · rw [h]; exact ⟨⟨_, rfl⟩, rfl, rfl, id, rfl, rfl, rfl, rfl, rfl, rfl, fun _ => rfl⟩
  · rw [h]; exact ⟨⟨_, rfl⟩, rfl, rfl, id, rfl, rfl, rfl, rfl, rfl, rfl, fun _ => rfl⟩
  · rw [h]; exact ⟨⟨_, rfl⟩, rfl, rfl, id, rfl, rfl, rfl, rfl, rfl, rfl, fun _ => rfl⟩
  · rw [h]; exact ⟨⟨_, rfl⟩, rfl, rfl, fun _ => rfl, rfl, rfl, rfl, rfl, rfl, rfl, fun hBusy => nomatch hBusy⟩

/-- The sequence's first event is one of its events (R144). -/
theorem abortBegin_keeps (s : State) : AbortFrame s (abortBegin s) :=
  { abortEvent_keeps { s with aborting := true } with }

theorem exec_sinkLog {i : Instr} {s t : State} (hReady : Ready s) (h : exec i s = .next t) : s.sinkLog <+: t.sinkLog := by
  by_cases hProbe : i = .probe
  · subst hProbe
    rw [probeCompletes s hReady] at h
    cases h
    exact List.prefix_append _ _
  · obtain ⟨-, -, -, -, -, -, -, -, -, -, hOther, -⟩ := commandFrame i s t hReady h
    rw [(hOther hProbe).2]

/-- Every step, RESET and ABORT included, goes onward. -/
theorem step_onward {s t : State} (h : step s = .next t) : Onward s t := by
  cases step_kind h with
  | reset x later i _ _ result =>
    subst result
    exact ⟨by simp, ⟨by simp, by simp, by simp⟩, by simp⟩
  | abortGoesOn i _ _ result =>
    subst result
    have hFrame := abortEvent_keeps { s with inputs := i }
    obtain ⟨e, hTrace⟩ := hFrame.event
    exact ⟨hFrame.params, ⟨by simp [hTrace], by simp [hFrame.sinkLog], by simp [hFrame.illegalLog]⟩,
      by simp [hFrame.port]⟩
  | abortBegins i _ result =>
    subst result
    have hFrame := abortBegin_keeps { s with inputs := i }
    obtain ⟨e, hTrace⟩ := hFrame.event
    exact ⟨hFrame.params, ⟨by simp [hTrace], by simp [hFrame.sinkLog], by simp [hFrame.illegalLog]⟩,
      by simp [hFrame.port]⟩
  | tick i _ _ result =>
    have hFrame := tick_frame result
    obtain ⟨e, hTrace⟩ := hFrame.event
    exact ⟨hFrame.params, ⟨by simp [hTrace], hFrame.sinkLog, by simp [hFrame.illegalLog]⟩, by simp [hFrame.port]⟩
  | issued i e rest c hIdle hPort _ result =>
    have hReady := ready_of_exec_next (s := { s with inputs := i, port := rest }) hIdle result
    obtain ⟨-, -, -, hLog, hParams, -, -, hRest, -⟩ := commandFrame c _ t hReady result
    have hSink := exec_sinkLog hReady result
    exact ⟨hParams, ⟨by simp [exec_ready_trace hReady result], hSink, by simp [hLog]⟩,
      by simp [hRest, hPort]⟩
  | issuedIllegal i w rest _ hPort result =>
    subst result
    exact ⟨rfl, ⟨by simp, by simp, by simp⟩, by simp [hPort]⟩
  | acceptance i n p hw c _ _ _ _ result =>
    subst result
    exact ⟨rfl, ⟨by simp, by simp, by simp⟩, by simp⟩
  | rejection i n p hw _ _ _ result =>
    subst result
    exact ⟨rfl, ⟨by simp, by simp, by simp⟩, by simp⟩
  | written i w c _ _ _ result =>
    subst result
    exact ⟨rfl, ⟨by simp, by simp, by simp⟩, by simp⟩
  | writtenIllegal i w _ _ result =>
    subst result
    exact ⟨rfl, ⟨by simp, by simp, by simp⟩, by simp⟩
  | outside i hd v _ _ result =>
    subst result
    exact ⟨rfl, ⟨by simp, by simp, by simp⟩, by simp⟩

/-- Settles O52. -/
theorem logsOnlyGrow : Obligations.LogsOnlyGrow := fun _ _ hStep => (step_onward hStep).logs

/-- Settles O53. -/
theorem parametersNeverChange : Obligations.ParametersNeverChange := fun _ _ hStep => (step_onward hStep).params

theorem instantiate_eq_next {p : Params} {s : State} :
    instantiate p = .next s ↔ p.wellFormed = true ∧ s = State.powerOn p := by
  cases h : p.pins.distinct <;> simp [instantiate, Params.wellFormed, h, eq_comm]

/-- Settles O58. -/
theorem noStepFillsThePort : Obligations.NoStepFillsThePort := by
  refine ⟨fun p s hNew => ?powerOn, fun s t hStep => (step_onward hStep).port⟩
  obtain ⟨-, rfl⟩ := instantiate_eq_next.1 hNew
  rfl

/-! The sticky flags. -/

/-- Settles O44: rejection sets `ILLEGAL`, the end of the abort sequence sets `ABORTED`, and RESET alone clears them. -/
theorem onlyResetClearsStickyFlags : Obligations.OnlyResetClearsStickyFlags := by
  intro s t hStep hNoReset
  cases step_kind hStep with
  | reset x later i hInputs hReset _ =>
    rw [hNoReset x later hInputs] at hReset
    cases hReset
  | abortGoesOn i _ _ result =>
    have hFrame := abortEvent_keeps { s with inputs := i }
    exact result ▸ ⟨fun h => hFrame.illegal.trans h, hFrame.aborted⟩
  | abortBegins i _ result =>
    have hFrame := abortBegin_keeps { s with inputs := i }
    exact result ▸ ⟨fun h => hFrame.illegal.trans h, hFrame.aborted⟩
  | tick i _ _ result => exact ⟨(tick_frame result).illegal.trans, (tick_frame result).aborted.trans⟩
  | issued i e rest c hIdle _ _ result =>
    have hReady := ready_of_exec_next (s := { s with inputs := i, port := rest }) hIdle result
    obtain ⟨hIllegal, hAborted, -⟩ := commandFrame c _ t hReady result
    exact ⟨hIllegal.trans, hAborted.trans⟩
  | issuedIllegal i w rest _ _ result => exact result ▸ ⟨fun _ => rfl, id⟩
  | acceptance i n p hw c _ _ _ _ result => exact result ▸ ⟨id, id⟩
  | rejection i n p hw _ _ _ result => exact result ▸ ⟨fun _ => rfl, id⟩
  | written i w c _ _ _ result => exact result ▸ ⟨id, id⟩
  | writtenIllegal i w _ _ result => exact result ▸ ⟨fun _ => rfl, id⟩
  | outside i hd v _ _ result => exact result ▸ ⟨id, id⟩

/-! The busy block. -/

/-- What a step of a busy block can be. -/
theorem step_busy_kind {s t : State} (hBusy : s.busy = true) (hStep : step s = .next t) :
    (∃ x later i, s.inputs = x :: later ∧ x.reset = true ∧ t = resetSequence { s with inputs := i }) ∨
      (∃ i, AbortFrame { s with inputs := i } t) ∨
      (∃ i, s.aborting = false ∧ tick { s with inputs := i } = .next t) ∨
      ∃ i hd v, s.held <+: hd ∧ hd.length ≤ s.held.length + 1 ∧ t = { s with inputs := i, held := hd, hostData := v } := by
  cases step_kind hStep with
  | reset x later i hInputs hReset result => exact .inl ⟨x, later, i, hInputs, hReset, result⟩
  | abortGoesOn i _ _ result => exact .inr (.inl ⟨i, result ▸ abortEvent_keeps _⟩)
  | abortBegins i _ result => exact .inr (.inl ⟨i, result ▸ abortBegin_keeps _⟩)
  | tick i _ hNotAborting result => exact .inr (.inr (.inl ⟨i, hNotAborting, result⟩))
  | outside i hd v more atMostOne result => exact .inr (.inr (.inr ⟨i, hd, v, more, atMostOne, result⟩))
  | issued _ _ _ _ hIdle => cases hIdle.symm.trans hBusy
  | issuedIllegal _ _ _ hIdle => cases hIdle.symm.trans hBusy
  | acceptance _ _ _ _ _ hIdle => cases hIdle.symm.trans hBusy
  | rejection _ _ _ _ hIdle => cases hIdle.symm.trans hBusy
  | written _ _ _ hIdle => cases hIdle.symm.trans hBusy
  | writtenIllegal _ _ hIdle => cases hIdle.symm.trans hBusy

/-- Settles O37: only a host's write touches what is held while `BUSY` is 1, and it adds to it. -/
theorem noAcceptanceWhileBusy : Obligations.NoAcceptanceWhileBusy := by
  intro s t hBusy hStep
  obtain ⟨x, later, i, -, -, rfl⟩ | ⟨i, hFrame⟩ | ⟨i, -, hTick⟩ | ⟨i, hd, v, hMore, hOne, rfl⟩ :=
    step_busy_kind hBusy hStep
  · simp
  · exact ⟨by simp [hFrame.held], by simp [hFrame.held], hFrame.illegalLog, hFrame.curCmd⟩
  · have hFrame := tick_frame hTick
    exact ⟨by simp [hFrame.held], by simp [hFrame.held], hFrame.illegalLog, fun _ => hFrame.curCmd⟩
  · exact ⟨hMore, hOne, rfl, fun _ => rfl⟩

/-! At most one event. -/

/-- Settles O57: with an empty port a step is an event of the abort sequence or of a command, or it records none. -/
theorem atMostOneEventPerStep : Obligations.AtMostOneEventPerStep := by
  intro s t hPort hNoReset hStep
  cases step_kind hStep with
  | reset x later i hInputs hReset _ =>
    rw [hNoReset x later hInputs] at hReset
    cases hReset
  | abortGoesOn i hAborting _ result =>
    refine ⟨.inr ?_, fun _ hNotAborting => ?_⟩
    · exact result ▸ (abortEvent_keeps { s with inputs := i }).event
    · rw [hAborting] at hNotAborting
      cases hNotAborting
  | abortBegins i hBusy result =>
    refine ⟨.inr ?_, fun hIdle => ?_⟩
    · exact result ▸ (abortBegin_keeps { s with inputs := i }).event
    · rw [hBusy] at hIdle
      cases hIdle
  | tick i hBusy _ result =>
    refine ⟨.inr (tick_frame result).event, fun hIdle => ?_⟩
    rw [hBusy] at hIdle
    cases hIdle
  | issued i e rest c _ hFull => rw [hPort] at hFull; cases hFull
  | issuedIllegal i w rest _ hFull => rw [hPort] at hFull; cases hFull
  | acceptance i n p hw c _ _ _ _ result => exact result ▸ ⟨.inl rfl, fun _ _ => ⟨rfl, fun _ => ⟨c, rfl⟩⟩⟩
  | rejection i n p hw hIdle _ _ result =>
    exact result ▸ ⟨.inl rfl, fun _ _ => ⟨rfl, fun hBusy => by cases hIdle.symm.trans hBusy⟩⟩
  | written i w c _ _ _ result => exact result ▸ ⟨.inl rfl, fun _ _ => ⟨rfl, fun _ => ⟨c, rfl⟩⟩⟩
  | writtenIllegal i w hIdle _ result =>
    exact result ▸ ⟨.inl rfl, fun _ _ => ⟨rfl, fun hBusy => by cases hIdle.symm.trans hBusy⟩⟩
  | outside i hd v _ _ result =>
    exact result ▸ ⟨.inl rfl, fun hIdle _ => ⟨rfl, fun hBusy => by cases hIdle.symm.trans hBusy⟩⟩

/-! `LINK`. -/

theorem tick_link {s t : State} (h : tick s = .next t) (hLink : t.link ≠ s.link) :
    ∃ k, s.phase = .run .probe k ∧ (t.link = .resetIssued ∨ ∃ v, t.link = .identified v) := by
  obtain ⟨c, k, x, u, hPhase, hSlot, hPerformed, rfl⟩ := tick_eq_next.1 h
  have hSame : (if k + 1 = (slotsOf s.params c).length then finish u else { u with phase := .run c (k + 1) }).link =
      u.link := by split <;> rfl
  rw [hSame] at hLink ⊢
  obtain ⟨rfl, hNew⟩ := slot_link (List.mem_of_getElem? hSlot) hPerformed hLink
  exact ⟨k, hPhase, hNew⟩

theorem exec_link {i : Instr} {s t : State} (hReady : Ready s) (h : exec i s = .next t) (hLink : t.link ≠ s.link) :
    i = .probe ∧ ∃ v, t.link = .identified v := by
  have hProbe : i = .probe := by
    obtain ⟨-, -, -, -, -, -, -, -, -, -, hOther, -⟩ := commandFrame i s t hReady h
    exact by_contra fun hi => hLink (hOther hi).1
  subst hProbe
  exact ⟨rfl, _, (probe_results hReady h).1⟩

/-- Settles O45: of the kinds of step only RESET, a tick and an instruction of the port write `LINK`. -/
theorem onlyProbeOrResetChangesLink : Obligations.OnlyProbeOrResetChangesLink := by
  intro s t hStep hLink
  cases step_kind hStep with
  | reset x later i hInputs hReset result =>
    subst result
    exact .inl ⟨x, later, hInputs, hReset, resetSequence_link _⟩
  | abortGoesOn i _ _ result => subst result; exact absurd (abortEvent_keeps _).link hLink
  | abortBegins i _ result => subst result; exact absurd (abortBegin_keeps _).link hLink
  | tick i hBusy _ result =>
    obtain ⟨k, hPhase, hNew⟩ := tick_link result hLink
    exact .inr (.inl ⟨k, hBusy, hPhase, hNew⟩)
  | issued i e rest c hIdle hPort hDecode result =>
    have hReady := ready_of_exec_next (s := { s with inputs := i, port := rest }) hIdle result
    obtain ⟨rfl, hNew⟩ := exec_link hReady result hLink
    have hWord : Encoded.cmd probeWord = e := encodeOfDecode e .probe hDecode
    exact .inr (.inr ⟨hIdle, by rw [hPort, ← hWord]; rfl, hNew⟩)
  | issuedIllegal i w rest _ _ result => subst result; exact absurd rfl hLink
  | acceptance i n p hw c _ _ _ _ result => subst result; exact absurd rfl hLink
  | rejection i n p hw _ _ _ result => subst result; exact absurd rfl hLink
  | written i w c _ _ _ result => subst result; exact absurd rfl hLink
  | writtenIllegal i w _ _ result => subst result; exact absurd rfl hLink
  | outside i hd v _ _ result => subst result; exact absurd rfl hLink

/-! An access that waits. -/

/-- The idle step leaves the schedule and the last value read. -/
theorem idleStep_schedule {s t : State} (hIdle : s.busy = false) (h : idleStep s = .next t) :
    t.inputs = s.inputs ∧ t.hostData = s.hostData := by
  cases hPort : s.port with
  | nil =>
    by_cases hHeld : s.held = []
    · rw [idleStep_of_nothing hPort hHeld] at h
      cases h
      exact ⟨rfl, rfl⟩
    · obtain ⟨n, hw, p, -, hTake⟩ := idleStep_of_held hPort hHeld
      rw [hTake] at h
      cases h
      unfold acceptWord
      split
      · exact ⟨rfl, rfl⟩
      · exact ⟨rfl, rfl⟩
  | cons e rest =>
    rw [idleStep_of_port hPort] at h
    unfold runPort at h
    split at h
    · have hReady := ready_of_exec_next (s := { s with port := rest }) hIdle h
      obtain ⟨-, -, -, -, -, -, hInputs, -, -, hData, -⟩ := commandFrame _ _ t hReady h
      exact ⟨hInputs, hData⟩
    · split at h
      · cases h
        exact ⟨rfl, rfl⟩
      · cases h

/-- Settles O42: the access deferred, the step is the block's own: a tick, or the idle step. -/
theorem hostWaitsForGuardAndHeldWrite : Obligations.HostWaitsForGuardAndHeldWrite := by
  intro s a later hInputs hNotAborting hDeferred
  rw [step_deferred hInputs hNotAborting hDeferred]
  refine ⟨fun hBusy t hStep => ?busy, fun hIdle hPort hHeld => ?taken, fun t hIdle hStep => ?idle⟩
  case busy =>
    rw [blockStep, if_pos hBusy] at hStep
    have hFrame := tick_frame hStep
    exact ⟨hFrame.inputs, hFrame.held, hFrame.hostData, hFrame.event⟩
  case taken =>
    rw [blockStep, if_neg (by simp [hIdle])]
    exact idleStep_of_held hPort hHeld
  case idle =>
    rw [blockStep, if_neg (by simp [hIdle])] at hStep
    exact idleStep_schedule hIdle hStep

end Sys2Proof.Machine
end

section
/-! The invariant of a safe run (10_state.md R16 to R28, R42; 40_line_primitives.md R88 and R90): power-on meets it, every
kind of step keeps it, and what it rules out; the obligations O49, O50, O51 and O54. -/

namespace Sys2Proof.Machine

/-! Where the invariant holds at once. -/

theorem inv_of_idle {s : State} (hNotBusy : s.busy = false) (hIdle : IdleInv s) (hBits : ∀ n, s.bitCnt = some n → n ≤ 8)
    (hPins : s.params.wellFormed = true) : Inv s where
  idle _ := hIdle
  run hBusy := nomatch hNotBusy.symm.trans hBusy
  bits := hBits
  pins := hPins

theorem inv_of_run {s : State} {c : Instr} {k : Nat} (hBusy : s.busy = true) (hRun : RunInv s c k)
    (hBits : ∀ n, s.bitCnt = some n → n ≤ 8) (hPins : s.params.wellFormed = true) : Inv s where
  idle hIdle := nomatch hIdle.symm.trans hBusy
  run _ := ⟨c, k, hRun⟩
  bits := hBits
  pins := hPins

theorem inv_powerOn {p : Params} (h : p.wellFormed = true) : Inv (State.powerOn p) :=
  inv_of_idle rfl ⟨rfl, rfl, rfl, rfl, rfl⟩ (fun n hn => by cases hn; exact Nat.zero_le 8) h

theorem config_wellFormed : Config.params.wellFormed = true := by
  show Config.pins.distinct = true
  unfold Config.pins
  split
  · assumption
  · rfl

/-- Settles O8: `Config.pins` are four distinct pins whatever the free constant is. -/
theorem resetIsAPowerOn : Obligations.ResetIsAPowerOn :=
  ⟨instantiate_of_wellFormed config_wellFormed, config_wellFormed, rfl, status_powerOn _⟩

/-- Settles O49. -/
theorem powerOnMeetsTheInvariant : Obligations.PowerOnMeetsTheInvariant := by
  refine ⟨inv_powerOn config_wellFormed, fun p s hNew => ?_⟩
  obtain ⟨hWellFormed, rfl⟩ := instantiate_eq_next.1 hNew
  exact inv_powerOn hWellFormed

/-! The operations of a step keep it. -/

/-- The invariant reads neither the schedule nor the host's port, the flag `ILLEGAL` nor the model's own fields. -/
theorem inv_bookkeeping {s : State} (h : Inv s) (i : List Inputs) (hd : List HeldWrite) (d : CmdWord) (p : Nat)
    (q : List Encoded) (ill : Bool) (log : List CmdWord) :
    Inv { s with inputs := i, held := hd, hostData := d, picks := p, port := q, illegal := ill, illegalLog := log } where
  idle hIdle := { h.idle hIdle with }
  run hBusy :=
    have ⟨c, k, hRun⟩ := h.run hBusy
    ⟨c, k, { hRun with agrees := fun ha => { hRun.agrees ha with } }⟩
  bits := h.bits
  pins := h.pins

theorem inv_raiseIllegal {s : State} (h : Inv s) (w : CmdWord) : Inv (raiseIllegal w s) :=
  inv_bookkeeping h s.inputs s.held s.hostData s.picks s.port true (s.illegalLog ++ [w])

theorem inv_resetSequence {s : State} (h : Inv s) : Inv (resetSequence s) :=
  inv_of_idle (by simp) ⟨by simp, by simp, by simp, by simp, by simp⟩ (by simp) (by simp [h.pins])

/-- The idle block stands at the view before a list. -/
theorem stands_start {s : State} (h : IdleInv s) (hBits : ∀ n, s.bitCnt = some n → n ≤ 8) : Stands s View.start where
  agrees :=
    { guard := h.guard
      csN := h.csN
      sclk := h.sclk
      mosi := fun _ hl => nomatch hl
      srOut := fun hl => nomatch hl
      srIn := fun hl => nomatch hl
      bitCnt := fun hl => nomatch hl
      link := fun hl => nomatch hl }
  bits := hBits

theorem inv_accept {s : State} {c : Instr} {w : CmdWord} (h : Inv s) (hIdle : s.busy = false)
    (hDecode : decodeCmd w = .ok c) : Inv (accept c w s) :=
  inv_of_run rfl
    { phase := rfl
      command := ⟨w, rfl, hDecode⟩
      index := slotsOf_pos s.params c
      agrees := fun _ => { (stands_start (h.idle hIdle) h.bits).agrees with } }
    h.bits h.pins

/-- A restoring event of the abort sequence: the command stays latched, and the lines are free to move (R145). -/
theorem inv_restoring {s t : State} (h : Inv s) (hBusy : s.busy = true) (hAborting : t.aborting = true)
    (hSame : t.busy = s.busy ∧ t.phase = s.phase ∧ t.curCmd = s.curCmd ∧ t.bitCnt = s.bitCnt ∧ t.params = s.params) :
    Inv t := by
  obtain ⟨hB, hPhase, hCmd, hBits, hParams⟩ := hSame
  obtain ⟨c, k, hRun⟩ := h.run hBusy
  refine inv_of_run (c := c) (k := k) (hB.trans hBusy) ⟨hPhase.trans hRun.phase, ?_, ?_, ?_⟩ ?_ ?_
  · rw [hCmd]; exact hRun.command
  · rw [hParams]; exact hRun.index
  · exact fun hNot => nomatch hNot.symm.trans hAborting
  · rw [hBits]; exact h.bits
  · rw [hParams]; exact h.pins

/-- The sequence ends with the lines at rest, since it ends only where nothing is left to restore (R145, R146). -/
theorem inv_abortEvent {s : State} (h : Inv s) (hBusy : s.busy = true) (hAborting : s.aborting = true) :
    Inv (abortEvent s) := by
  obtain ⟨-, hEvent⟩ | ⟨-, -, hEvent⟩ | ⟨-, -, -, hEvent⟩ | ⟨hGuard, hClock, hSelect, hEvent⟩ := abortEvent_cases s
  · rw [hEvent]; exact inv_restoring h hBusy hAborting ⟨rfl, rfl, rfl, rfl, rfl⟩
  · rw [hEvent]; exact inv_restoring h hBusy hAborting ⟨rfl, rfl, rfl, rfl, rfl⟩
  · rw [hEvent]; exact inv_restoring h hBusy hAborting ⟨rfl, rfl, rfl, rfl, rfl⟩
  · rw [hEvent]; exact inv_of_idle rfl ⟨rfl, rfl, hGuard, hSelect, hClock⟩ (fun _ hn => nomatch hn) h.pins

theorem inv_abortBegin {s : State} (h : Inv s) (hBusy : s.busy = true) : Inv (abortBegin s) :=
  inv_abortEvent (inv_restoring h hBusy (t := { s with aborting := true }) rfl ⟨rfl, rfl, rfl, rfl, rfl⟩) hBusy rfl

/-- An event of a running command is performed and leaves the state at the next view; after the last one the lines are at
rest (R20, R42). -/
theorem inv_tick {s : State} (h : Inv s) (hBusy : s.busy = true) (hNotAborting : s.aborting = false) :
    ∃ t, tick s = .next t ∧ Inv t := by
  obtain ⟨c, k, hRun⟩ := h.run hBusy
  have hSlot := List.getElem?_eq_getElem hRun.index
  have hStands : Stands s (viewAt s.params c k) := ⟨hRun.agrees hNotAborting, h.bits⟩
  obtain ⟨u, hPerformed, hNext⟩ := performSlot_stands hStands (fits_at (slotsOf_fits s.params c) hSlot)
  rw [← viewAt_succ hSlot] at hNext
  have hSame := (performSlot_next hPerformed).2
  have hPins : u.params.wellFormed = true := hSame.params ▸ h.pins
  refine ⟨_, tick_eq_next.2 ⟨c, k, _, u, hRun.phase, hSlot, hPerformed, rfl⟩, ?_⟩
  split
  case isTrue hLast =>
    obtain ⟨hGuard, hSelect, hClock⟩ := fits_end (slotsOf_fits s.params c)
    have hWhole : viewAt s.params c (k + 1) = (slotsOf s.params c).foldl Slot.view View.start := by
      rw [viewAt, hLast, List.take_length]
    rw [hWhole] at hNext
    exact inv_of_idle rfl ⟨rfl, hSame.aborting.trans hNotAborting, hNext.agrees.guard.trans hGuard,
      hNext.agrees.csN.trans hSelect, hNext.agrees.sclk.trans hClock⟩ hNext.bits hPins
  case isFalse hMore =>
    have hIndex : k + 1 < (slotsOf u.params c).length := by
      rw [hSame.params]
      exact lt_of_le_of_ne hRun.index hMore
    refine inv_of_run (c := c) (k := k + 1) (hSame.busy.trans hBusy) ⟨rfl, ?_, hIndex, fun _ => ?_⟩ hNext.bits hPins
    · exact hSame.curCmd.symm ▸ hRun.command
    · show Agrees _ (viewAt u.params c (k + 1))
      rw [hSame.params]
      exact { hNext.agrees with }

theorem ready_of_inv {s : State} (h : Inv s) (hIdle : s.busy = false) : Ready s := ⟨hIdle, (h.idle hIdle).guard⟩

/-- An instruction run whole ends idle with the lines at rest (log 1). -/
theorem inv_exec {s t : State} {i : Instr} (h : Inv s) (hIdle : s.busy = false) (hExec : exec i s = .next t) : Inv t := by
  have hReady := ready_of_inv h hIdle
  obtain ⟨hPhase, hNotAborting, -, hSelect, -⟩ := h.idle hIdle
  have hEight : ∀ n, some 8 = some n → n ≤ 8 := fun n hn => (Option.some.inj hn).ge
  cases i with
  | xfer b =>
    cases hExec.symm.trans (xferCompletes b s hReady)
    exact inv_of_idle rfl ⟨rfl, hNotAborting, rfl, hSelect, rfl⟩ hEight h.pins
  | wrreg a v =>
    cases hExec.symm.trans (wrregCompletes a v s hReady)
    exact inv_of_idle rfl ⟨rfl, hNotAborting, rfl, rfl, rfl⟩ hEight h.pins
  | rdreg a =>
    cases hExec.symm.trans (rdregCompletes a s hReady)
    exact inv_of_idle rfl ⟨rfl, hNotAborting, rfl, rfl, rfl⟩ hEight h.pins
  | probe =>
    cases hExec.symm.trans (probeCompletes s hReady)
    exact inv_of_idle rfl ⟨rfl, hNotAborting, rfl, rfl, rfl⟩ hEight h.pins
  | frameWrite r v =>
    cases hExec.symm.trans (framesComplete.1 r v s hReady)
    exact inv_of_idle hIdle ⟨hPhase, hNotAborting, rfl, rfl, rfl⟩ hEight h.pins
  | frameRead r =>
    cases hExec.symm.trans (framesComplete.2 r s hReady)
    exact inv_of_idle hIdle ⟨hPhase, hNotAborting, rfl, rfl, rfl⟩ hEight h.pins

/-- An abort sequence is in progress only while `BUSY` is 1. -/
theorem busy_of_aborting {s : State} (h : Inv s) (hAborting : s.aborting = true) : s.busy = true := by
  by_contra hIdle
  cases (h.idle (Bool.eq_false_iff.2 hIdle)).aborting.symm.trans hAborting

theorem inv_inputs {s : State} (h : Inv s) (i : List Inputs) : Inv { s with inputs := i } :=
  inv_bookkeeping h i s.held s.hostData s.picks s.port s.illegal s.illegalLog

/-- Settles O50, kind of step by kind of step. -/
theorem everyStepKeepsTheInvariant : Obligations.EveryStepKeepsTheInvariant := by
  intro s t hInv hStep
  cases step_kind hStep with
  | reset x later i _ _ result => exact result ▸ inv_resetSequence (inv_inputs hInv i)
  | abortGoesOn i hAborting _ result =>
    have hBusy := busy_of_aborting hInv hAborting
    exact result ▸ inv_abortEvent (inv_inputs hInv i) hBusy hAborting
  | abortBegins i hBusy result => exact result ▸ inv_abortBegin (inv_inputs hInv i) hBusy
  | tick i hBusy hNotAborting result =>
    obtain ⟨u, hTick, hNext⟩ := inv_tick (inv_inputs hInv i) hBusy hNotAborting
    rw [result] at hTick
    cases hTick
    exact hNext
  | issued i e rest c hIdle _ _ result =>
    exact inv_exec (inv_bookkeeping hInv i s.held s.hostData s.picks rest s.illegal s.illegalLog) hIdle result
  | issuedIllegal i w rest _ _ result =>
    exact result ▸ inv_raiseIllegal
      (inv_bookkeeping hInv i s.held s.hostData s.picks rest s.illegal s.illegalLog) w
  | acceptance i n p hw c hIdle _ _ hDecode result =>
    exact result ▸ inv_accept
      (inv_bookkeeping hInv i (s.held.eraseIdx n) s.hostData p s.port s.illegal s.illegalLog) hIdle hDecode
  | rejection i n p hw _ _ _ result =>
    exact result ▸ inv_raiseIllegal
      (inv_bookkeeping hInv i (s.held.eraseIdx n) s.hostData p s.port s.illegal s.illegalLog) hw.word
  | written i w c hIdle _ hDecode result => exact result ▸ inv_accept (inv_inputs hInv i) hIdle hDecode
  | writtenIllegal i w _ _ result => exact result ▸ inv_raiseIllegal (inv_inputs hInv i) w
  | outside i hd v _ _ result =>
    exact result ▸ inv_bookkeeping hInv i hd v s.picks s.port s.illegal s.illegalLog

/-! Faults. -/

theorem hostAccess_eq_fault {a : AgentAccess} {s : State} {f : Fault} (h : hostAccess a s = .fault f) :
    ∃ r, a.access = .read r ∧ hostRead r s = .error f := by
  unfold hostAccess at h
  split at h
  next r bits w _ =>
    split at h
    · split at h <;> cases h
    · cases h
  next r hRead =>
    split at h
    next => cases h
    next g hError =>
      cases h
      exact ⟨r, hRead, hError⟩

theorem runPort_ne_fault {s : State} (hReady : Ready s) (e : Encoded) (f : Fault) : runPort e s ≠ .fault f := by
  intro h
  unfold runPort at h
  split at h
  next i _ =>
    obtain ⟨t, hExec, -⟩ := exec_ready i hReady
    rw [hExec] at h
    cases h
  next =>
    split at h
    · cases h
    · cases h

/-- The block's own step never faults: the sequencer finds its event, the event finds its registers and a free guard. -/
theorem blockStep_ne_fault {s : State} (h : Inv s) (hNotAborting : s.aborting = false) (f : Fault) :
    blockStep s ≠ .fault f := by
  intro hFault
  unfold blockStep at hFault
  split at hFault
  case isTrue hBusy =>
    obtain ⟨t, hTick, -⟩ := inv_tick h hBusy hNotAborting
    rw [hTick] at hFault
    cases hFault
  case isFalse hNotBusy =>
    have hReady := ready_of_inv h (Bool.eq_false_iff.2 hNotBusy)
    unfold idleStep at hFault
    split at hFault
    next e rest _ => exact runPort_ne_fault (s := { s with port := rest }) hReady e f hFault
    next => split at hFault <;> cases hFault

theorem boundaryStep_eq_fault {s : State} {x : Inputs} {rest : List Inputs} {f : Fault} (h : Inv s)
    (hFault : boundaryStep x rest s = .fault f) :
    ∃ g r, x.host = some ⟨g, .read r⟩ ∧ hostRead r { s with inputs := rest } = .error f := by
  unfold boundaryStep at hFault
  split at hFault
  · cases hFault
  · split at hFault
    · cases hFault
    · rename_i hAborting
      have hNotAborting := Bool.eq_false_iff.2 hAborting
      split at hFault
      · cases hFault
      · split at hFault
        next a hHost =>
          split at hFault
          · exact absurd hFault (blockStep_ne_fault (inv_inputs h (keepHost x rest)) hNotAborting f)
          · obtain ⟨r, hRead, hError⟩ := hostAccess_eq_fault hFault
            exact ⟨a.agent, r, by rw [hHost, ← hRead], hError⟩
        next => exact absurd hFault (blockStep_ne_fault (inv_inputs h rest) hNotAborting f)

/-- Settles O51: every other part of a boundary answers a next state. -/
theorem onlyUnwrittenHostReadsFault : Obligations.OnlyUnwrittenHostReadsFault := by
  intro s f hInv hFault
  unfold step advance at hFault
  split at hFault
  next =>
    obtain ⟨g, r, hHost, -⟩ := boundaryStep_eq_fault hInv hFault
    cases hHost
  next x later hInputs =>
    obtain ⟨g, r, hHost, hError⟩ := boundaryStep_eq_fault hInv hFault
    exact ⟨g, r, later, ⟨x, hInputs, hHost⟩, hostRead_eq_error.1 hError⟩

/-! Data-out. -/

/-- The one event that writes `MOSI` leaves the clock (40_line_primitives.md R82). -/
theorem performPrim_mosi {p : Prim} {s t : State} (h : performPrim p s = .next t) :
    t.mosi = s.mosi ∨ (p = .driveBit ∧ t.sclk = s.sclk) := by
  cases p with
  | chipSelect l => cases h; exact .inl rfl
  | driveBit =>
    obtain ⟨v, -, rfl⟩ := driveBit_eq_next.1 h
    exact .inr ⟨rfl, rfl⟩
  | clock l => cases h; exact .inl rfl
  | sampleBit =>
    obtain ⟨v, -, rfl⟩ := sampleBit_eq_next.1 h
    obtain ⟨ms, n, hRead⟩ := readDataIn_sample s
    rw [hRead]
    exact .inl rfl
  | wait k => cases h; exact .inl rfl
  | guardAcquire =>
    obtain ⟨-, rfl⟩ := guardAcquire_eq_next.1 h
    exact .inl rfl
  | guardRelease => cases h; exact .inl rfl
  | reportVersion =>
    obtain ⟨v, -, rfl⟩ := reportVersion_eq_next.1 h
    exact .inl rfl

theorem performSlot_mosi {x : Slot} {s t : State} (h : performSlot x s = .next t) (hMosi : t.mosi ≠ s.mosi) :
    x.prim = .driveBit ∧ t.sclk = s.sclk := by
  obtain ⟨u, hu, ht⟩ := andThen_eq_next.1 h
  obtain ⟨-, -, hClock, hData, -⟩ := performAssigns_next ht
  rw [hData] at hMosi
  rw [hClock]
  exact (performPrim_mosi hu).resolve_left hMosi

/-- In every list data-out is driven where the view has the clock low (30_encoding.md R75). -/
theorem tick_mosi {s t : State} (h : Inv s) (hBusy : s.busy = true) (hNotAborting : s.aborting = false)
    (hTick : tick s = .next t) (hMosi : t.mosi ≠ s.mosi) : s.sclk = false ∧ t.sclk = false := by
  obtain ⟨c, k, hRun⟩ := h.run hBusy
  obtain ⟨c', k', x, u, hPhase, hSlot, hPerformed, hEnd⟩ := tick_eq_next.1 hTick
  cases hPhase.symm.trans hRun.phase
  have hData : t.mosi = u.mosi := by rw [hEnd]; split <;> rfl
  have hClock : t.sclk = u.sclk := by rw [hEnd]; split <;> rfl
  rw [hData] at hMosi
  obtain ⟨hDrive, hKeeps⟩ := performSlot_mosi hPerformed hMosi
  have hFits := fits_at (slotsOf_fits s.params c) hSlot
  simp only [Slot.fits, hDrive, Prim.fits, Bool.and_eq_true, Bool.not_eq_true'] at hFits
  have hLow : s.sclk = false := (hRun.agrees hNotAborting).sclk.trans hFits.1.2
  exact ⟨hLow, hClock.trans (hKeeps.trans hLow)⟩

/-- Settles O54. -/
theorem dataOutChangesOnlyWithClockLow : Obligations.DataOutChangesOnlyWithClockLow := by
  intro s t hInv hBusy hNoReset hStep hMosi
  obtain ⟨x, later, i, hInputs, hReset, -⟩ | ⟨i, hFrame⟩ | ⟨i, hNotAborting, hTick⟩ | ⟨i, hd, v, -, -, rfl⟩ :=
    step_busy_kind hBusy hStep
  · cases (hNoReset x later hInputs).symm.trans hReset
  · exact absurd hFrame.mosi hMosi
  · exact tick_mosi (s := { s with inputs := i }) (inv_inputs hInv i) hBusy hNotAborting hTick hMosi
  · exact absurd rfl hMosi

end Sys2Proof.Machine
end

section
/-! Where chip-select is asserted and the guard is held along a list (10_state.md R27, R42; 40_line_primitives.md R90;
42_register_access.md R113, R117; 43_device_probe.md R128), part by part of the list, and the obligations O11 and O55. -/

namespace Sys2Proof.Machine

/-! The micro-operations. -/

theorem readDataIn_sample_eq (s : State) :
    readDataIn .sample s = (answerAt s 0, { afterDraws 1 s with trace := s.trace ++ [.di (answerAt s 0)] }) := by
  show ((draw s).1, record (.di (draw s).1) (draw s).2) = _
  rw [draw_eq]
  rfl

theorem guardAcquire_of_held {s : State} (h : s.guard = true) : guardAcquire s = .fault .guardNested := if_pos h

/-- Settles O11. -/
theorem primitivesActAndRecord : Obligations.PrimitivesActAndRecord := by
  intro s
  exact ⟨fun _ => rfl, fun _ => rfl, fun _ => rfl, fun _ => rfl, readDataIn_sample_eq s, rfl,
    fun hFree => guardAcquire_eq_next.2 ⟨hFree, rfl⟩, guardAcquire_of_held, rfl, fun _ _ => rfl⟩

/-! The view along a list. -/

/-- What the first k slots of `xs` leave of a view; `viewAt` is this for a command's list from the idle view. -/
def viewAfter (xs : List Slot) (k : Nat) (v : View) : View := (xs.take k).foldl Slot.view v

theorem viewAt_eq_viewAfter (p : Params) (c : Instr) (k : Nat) :
    viewAt p c k = viewAfter (slotsOf p c) k View.start := rfl

@[simp] theorem viewAfter_zero (xs : List Slot) (v : View) : viewAfter xs 0 v = v := rfl

@[simp] theorem viewAfter_nil (k : Nat) (v : View) : viewAfter [] k v = v := by simp [viewAfter]

@[simp] theorem viewAfter_cons_succ (x : Slot) (xs : List Slot) (k : Nat) (v : View) :
    viewAfter (x :: xs) (k + 1) v = viewAfter xs k (x.view v) := rfl

theorem viewAfter_append_left {xs : List Slot} {k : Nat} (h : k ≤ xs.length) (ys : List Slot) (v : View) :
    viewAfter (xs ++ ys) k v = viewAfter xs k v := by
  rw [viewAfter, List.take_append_of_le_length h, viewAfter]

theorem viewAfter_append_right (xs ys : List Slot) (k : Nat) (v : View) :
    viewAfter (xs ++ ys) (xs.length + k) v = viewAfter ys k (viewAfter xs xs.length v) := by
  simp [viewAfter, List.take_append, List.take_of_length_le]

/-! Guard and chip-select: which slots move them. -/

theorem assigns_view_lines (as : List Assign) (v : View) :
    (as.foldl (fun v a => a.view v) v).guard = v.guard ∧ (as.foldl (fun v a => a.view v) v).csN = v.csN := by
  induction as generalizing v with
  | nil => exact ⟨rfl, rfl⟩
  | cons a as ih =>
    have hOne : (a.view v).guard = v.guard ∧ (a.view v).csN = v.csN := by cases a <;> exact ⟨rfl, rfl⟩
    exact ⟨(ih (a.view v)).1.trans hOne.1, (ih (a.view v)).2.trans hOne.2⟩

theorem slot_view_lines (x : Slot) (v : View) :
    (x.view v).guard = (x.prim.view v).guard ∧ (x.view v).csN = (x.prim.view v).csN :=
  assigns_view_lines x.assigns (x.prim.view v)

/-- The event writes neither the guard nor chip-select. -/
def Prim.insideBit : Prim → Bool
  | .chipSelect _ => false
  | .driveBit => true
  | .clock _ => true
  | .sampleBit => true
  | .wait _ => true
  | .guardAcquire => false
  | .guardRelease => false
  | .reportVersion => true

theorem slot_view_insideBit {x : Slot} (h : x.prim.insideBit = true) (v : View) :
    (x.view v).guard = v.guard ∧ (x.view v).csN = v.csN := by
  obtain ⟨hGuard, hSelect⟩ := slot_view_lines x v
  rw [hGuard, hSelect]
  generalize x.prim = p at h
  cases p with
  | chipSelect l => cases h
  | guardAcquire => cases h
  | guardRelease => cases h
  | _ => exact ⟨rfl, rfl⟩

theorem viewAfter_insideBit {xs : List Slot} (h : ∀ x ∈ xs, x.prim.insideBit = true) (k : Nat) (v : View) :
    (viewAfter xs k v).guard = v.guard ∧ (viewAfter xs k v).csN = v.csN := by
  induction xs generalizing k v with
  | nil => rw [viewAfter_nil]; exact ⟨rfl, rfl⟩
  | cons x xs ih =>
    cases k with
    | zero => exact ⟨rfl, rfl⟩
    | succ k =>
      obtain ⟨hGuard, hSelect⟩ := slot_view_insideBit (h x List.mem_cons_self) v
      obtain ⟨hGuard', hSelect'⟩ := ih (fun y hy => h y (List.mem_cons_of_mem x hy)) k (x.view v)
      exact ⟨hGuard'.trans hGuard, hSelect'.trans hSelect⟩

theorem bitLoop_insideBit (cap : Capture) (n : Nat) : ∀ x ∈ bitLoop cap n, x.prim.insideBit = true := by
  induction n with
  | zero => exact fun x hx => nomatch hx
  | succ n ih =>
    have hPass : ∀ x ∈ bitSlots cap, x.prim.insideBit = true := by
      cases cap <;> simp [bitSlots, Prim.insideBit]
    exact fun x hx => (List.mem_append.1 hx).elim (hPass x) (ih x)

/-- A byte transfer takes the guard with its first event and releases it with its last; chip-select stays. -/
theorem transferByte_lines {cap : Capture} {m : Nat} (hm : m = if cap = .sample then 58 else 50) (b : Byte)
    (after : List Assign) {v : View} (hFree : v.guard = false) (k : Nat) (hk : k ≤ m) :
    ((viewAfter (transferByte cap b after) k v).guard = true ↔ 1 ≤ k ∧ k < m) ∧
      (viewAfter (transferByte cap b after) k v).csN = v.csN := by
  have hLoop : (bitLoop cap 8).length + 2 = m := by rw [hm]; cases cap <;> rfl
  cases k with
  | zero => simp [hFree]
  | succ k =>
    rw [transferByte, viewAfter_cons_succ]
    obtain ⟨hTaken, hSelect⟩ := slot_view_lines ⟨.guardAcquire, [.load b]⟩ v
    by_cases hInside : k ≤ (bitLoop cap 8).length
    · rw [viewAfter_append_left hInside]
      obtain ⟨hGuard, hSelect'⟩ := viewAfter_insideBit (bitLoop_insideBit cap 8) k
        (Slot.view v ⟨.guardAcquire, [.load b]⟩)
      refine ⟨?_, hSelect'.trans hSelect⟩
      have hHeld : k + 1 < m := by omega
      simp [hGuard, hTaken, Prim.view, hHeld]
    · obtain rfl : k = (bitLoop cap 8).length + 1 := by omega
      rw [viewAfter_append_right]
      obtain ⟨-, hSelect'⟩ := viewAfter_insideBit (bitLoop_insideBit cap 8) (bitLoop cap 8).length
        (Slot.view v ⟨.guardAcquire, [.load b]⟩)
      obtain ⟨hReleased, hSelect''⟩ := slot_view_lines ⟨.guardRelease, after⟩
        (viewAfter (bitLoop cap 8) (bitLoop cap 8).length (Slot.view v ⟨.guardAcquire, [.load b]⟩))
      rw [viewAfter_cons_succ, viewAfter_zero]
      refine ⟨?_, hSelect''.trans (hSelect'.trans hSelect)⟩
      have hEnd : ¬ (bitLoop cap 8).length + 1 + 1 < m := by omega
      simp [hReleased, Prim.view, hEnd]

/-- After its last event a byte transfer leaves the guard free, and chip-select as it was. -/
theorem transferByte_lines_end (cap : Capture) (b : Byte) (after : List Assign) {v : View} (hFree : v.guard = false) :
    (viewAfter (transferByte cap b after) (transferByte cap b after).length v).guard = false ∧
      (viewAfter (transferByte cap b after) (transferByte cap b after).length v).csN = v.csN := by
  obtain ⟨hGuard, hSelect⟩ := transferByte_lines (transferByte_length cap b after) b after hFree _ le_rfl
  exact ⟨Bool.eq_false_iff.2 fun h => Nat.lt_irrefl _ (hGuard.1 h).2, hSelect⟩

/-- The end of a transaction: chip-select is high, and the guard stays free. -/
theorem trail_lines (after : List Assign) {v : View} (hFree : v.guard = false) (k : Nat) :
    (viewAfter [⟨.chipSelect true, []⟩, ⟨.wait .csTrail, after⟩] (k + 1) v).guard = false ∧
      (viewAfter [⟨.chipSelect true, []⟩, ⟨.wait .csTrail, after⟩] (k + 1) v).csN = true := by
  rw [viewAfter_cons_succ]
  obtain ⟨hGuard, hSelect⟩ := viewAfter_insideBit (xs := [⟨.wait .csTrail, after⟩]) (by simp [Prim.insideBit]) k
    (Slot.view v ⟨.chipSelect true, []⟩)
  exact ⟨hGuard.trans hFree, hSelect⟩

/-- The spans of one transaction (R113, R117): chip-select from `CS(0)` to `CS(1)`, the guard in each byte. -/
theorem transaction_lines {cap : Capture} {m : Nat} (hm : m = if cap = .sample then 58 else 50) (b0 b1 : Byte)
    (after : List Assign) {v : View} (hFree : v.guard = false) (hHigh : v.csN = true) (k : Nat) (hk : k ≤ 2 * m + 4) :
    ((viewAfter (transaction cap b0 b1 after) k v).csN = false ↔ 1 ≤ k ∧ k < 2 * m + 3) ∧
      ((viewAfter (transaction cap b0 b1 after) k v).guard = true ↔
        (3 ≤ k ∧ k < m + 2) ∨ (m + 3 ≤ k ∧ k < 2 * m + 2)) := by
  have hLength0 : (transferByte cap b0 []).length = m := hm ▸ transferByte_length cap b0 []
  have hLength1 : (transferByte cap b1 []).length = m := hm ▸ transferByte_length cap b1 []
  rw [transaction, List.append_assoc]
  match k with
  | 0 => simp [hFree, hHigh]
  | 1 => simp [viewAfter_cons_succ, Slot.view, Prim.view, hFree]
  | k + 2 =>
    rw [viewAfter_cons_succ, viewAfter_cons_succ]
    generalize hLead : Slot.view (Slot.view v ⟨.chipSelect false, []⟩) ⟨.wait .csLead, []⟩ = w
    have hFree0 : w.guard = false := hLead ▸ hFree
    have hLow0 : w.csN = false := hLead ▸ rfl
    by_cases hFirst : k ≤ m
    · obtain ⟨hGuard, hSelect⟩ := transferByte_lines hm b0 [] hFree0 k hFirst
      rw [viewAfter_append_left (hLength0.symm ▸ hFirst), hGuard, hSelect, hLow0]
      constructor <;> simp <;> omega
    · obtain ⟨j, rfl⟩ : ∃ j, k = (transferByte cap b0 []).length + j := ⟨k - m, by omega⟩
      obtain ⟨hFree1, hSelect0⟩ := transferByte_lines_end cap b0 [] hFree0
      rw [viewAfter_append_right]
      by_cases hSecond : j ≤ m
      · obtain ⟨hGuard, hSelect⟩ := transferByte_lines hm b1 [] hFree1 j hSecond
        rw [viewAfter_append_left (hLength1.symm ▸ hSecond), hGuard, hSelect, hSelect0, hLow0]
        constructor <;> simp <;> omega
      · obtain ⟨i, rfl⟩ : ∃ i, j = (transferByte cap b1 []).length + (i + 1) := ⟨j - m - 1, by omega⟩
        obtain ⟨hFree2, -⟩ := transferByte_lines_end cap b1 [] hFree1
        obtain ⟨hGuard, hSelect⟩ := trail_lines after hFree2 i
        rw [viewAfter_append_right, hGuard, hSelect]
        constructor <;> simp <;> omega

theorem transaction_length_eq {cap : Capture} {m : Nat} (hm : m = if cap = .sample then 58 else 50) (b0 b1 : Byte)
    (after : List Assign) : (transaction cap b0 b1 after).length = 2 * m + 4 := by
  rw [transaction_length, hm]
  cases cap <;> rfl

/-- After its last event a transaction leaves the guard free and chip-select high. -/
theorem transaction_lines_end (cap : Capture) (b0 b1 : Byte) (after : List Assign) {v : View} (hFree : v.guard = false)
    (hHigh : v.csN = true) :
    (viewAfter (transaction cap b0 b1 after) (transaction cap b0 b1 after).length v).guard = false ∧
      (viewAfter (transaction cap b0 b1 after) (transaction cap b0 b1 after).length v).csN = true := by
  have hLength := transaction_length_eq (cap := cap) rfl b0 b1 after
  obtain ⟨hSelect, hGuard⟩ := transaction_lines rfl b0 b1 after hFree hHigh _ hLength.le
  exact ⟨Bool.eq_false_iff.2 fun h => by have := hGuard.1 h; omega,
    Bool.eq_true_of_not_eq_false fun h => by have := hSelect.1 h; omega⟩

/-- Both transactions of a probe, the second one after the recovery wait (43_device_probe.md R128). -/
theorem probe_lines {p : Params} {m : Nat} (hm : m = if p.capture = .sample then 58 else 50) (k : Nat)
    (hk : k < (probeSlots p).length) :
    ((viewAt p .probe k).csN = false ↔ (1 ≤ k ∧ k < 2 * m + 3) ∨ (2 * m + 6 ≤ k ∧ k < 4 * m + 8)) ∧
      ((viewAt p .probe k).guard = true ↔ (3 ≤ k ∧ k < m + 2) ∨ (m + 3 ≤ k ∧ k < 2 * m + 2) ∨
        (2 * m + 8 ≤ k ∧ k < 3 * m + 7) ∨ (3 * m + 8 ≤ k ∧ k < 4 * m + 7)) := by
  have hWrite := transaction_length_eq hm (writeAddressByte p.regCommand) p.cmdSoftReset [.linkReset]
  have hRead := transaction_length_eq hm (readAddressByte p.regVersion) dummyByte [.identify, .latchResult]
  simp only [probeSlots, writeTransaction, readTransaction, List.length_append, List.length_cons, List.length_nil,
    hWrite, hRead] at hk
  rw [viewAt_eq_viewAfter, slotsOf, probeSlots, writeTransaction, readTransaction]
  by_cases hFirst : k ≤ 2 * m + 4
  · obtain ⟨hSelect, hGuard⟩ := transaction_lines hm (writeAddressByte p.regCommand) p.cmdSoftReset [.linkReset]
      (v := View.start) rfl rfl k hFirst
    rw [viewAfter_append_left (hWrite.symm ▸ hFirst), hSelect, hGuard]
    constructor <;> omega
  · obtain ⟨j, rfl⟩ : ∃ j, k =
        (transaction p.capture (writeAddressByte p.regCommand) p.cmdSoftReset [.linkReset]).length + (j + 1) :=
      ⟨k - (2 * m + 4) - 1, by omega⟩
    obtain ⟨hFree, hHigh⟩ := transaction_lines_end p.capture (writeAddressByte p.regCommand) p.cmdSoftReset [.linkReset]
      (v := View.start) rfl rfl
    rw [viewAfter_append_right, viewAfter_cons_succ]
    generalize viewAfter (transaction p.capture (writeAddressByte p.regCommand) p.cmdSoftReset [.linkReset]) _
      View.start = w at hFree hHigh ⊢
    have hInside : j ≤ 2 * m + 4 := by omega
    obtain ⟨hSelect, hGuard⟩ := transaction_lines hm (readAddressByte p.regVersion) dummyByte [.identify, .latchResult]
      (v := Slot.view w ⟨.wait .resetRecovery, []⟩) hFree hHigh j hInside
    rw [viewAfter_append_left (hRead.symm ▸ hInside), hSelect, hGuard]
    constructor <;> omega

/-- Settles O55: the invariant puts the guard and chip-select where the view of the list has them. -/
theorem chipSelectAndGuardSpans : Obligations.ChipSelectAndGuardSpans := by
  intro s c k m hInv hBusy hNotAborting hPhase hm
  obtain ⟨c', k', hRun⟩ := hInv.run hBusy
  cases hPhase.symm.trans hRun.phase
  have hAgrees := hRun.agrees hNotAborting
  have hIndex := hRun.index
  rw [hAgrees.guard, hAgrees.csN]
  refine ⟨?xfer, ?register, ?probe⟩
  case xfer =>
    rintro ⟨b, rfl⟩
    have hLength : (slotsOf s.params (.xfer b)).length = m := hm ▸ transferByte_length _ _ _
    obtain ⟨hGuard, hSelect⟩ := transferByte_lines hm b [.latchResult] (v := View.start) rfl k (by omega)
    exact ⟨hSelect, hGuard⟩
  case register =>
    rintro (⟨a, v, rfl⟩ | ⟨a, rfl⟩)
    · have hLength : (slotsOf s.params (.wrreg a v)).length = 2 * m + 4 := transaction_length_eq hm _ _ _
      exact transaction_lines hm _ _ [] (v := View.start) rfl rfl k (by omega)
    · have hLength : (slotsOf s.params (.rdreg a)).length = 2 * m + 4 := transaction_length_eq hm _ _ _
      exact transaction_lines hm _ _ [.latchResult] (v := View.start) rfl rfl k (by omega)
  case probe =>
    rintro rfl
    exact probe_lines hm k hIndex

end Sys2Proof.Machine
end
